-- ==== Sys2Proof/Syntax.lean ====
section
/-! DEFINITION. The command set CORE-CMD v1 (30_encoding.md R84): one constructor per row of spec/opcode_table.json. A command word
has no operand fields (R82, R83), so no constructor has an argument. -/

namespace Sys2Proof

/-- The eleven commands, in the order of 30_encoding.md R84. -/
inductive Instr where
  | init
  | alloc
  | free
  | realloc
  | mul
  | shl
  | shr
  | be32tolen
  | bentolen
  | lentobe32
  | lentoben
  deriving DecidableEq, Repr

end Sys2Proof
end

