-- ==== Sys2Proof/Word.lean ====
section
/-! DEFINITION. The word types of solang CORE (00_scope.md R8, R10): bytes, 32-bit words (`XLEN`, `LIMB`) and the 64-bit halves of a
WideInt128. -/

namespace Sys2Proof

/-- A byte is 8 bits (20_memory.md R50). -/
abbrev Byte := BitVec 8

/-- An address, a pointer, a size, a limb, an `a` register (00_scope.md R8: `XLEN` = `LIMB` = 32). -/
abbrev Word := BitVec 32

/-- One half of a WideInt128 (00_scope.md R8: `WIDE`, two 64-bit halves). -/
abbrev DWord := BitVec 64

end Sys2Proof
end

