-- ==== Sys2Proof/Config.lean ====
section
/-! DEFINITION. The parameters of an implementation (00_scope.md R8), the constants the spec fixes, and the free values. -/

namespace Sys2Proof

/-- The parameters a model takes (00_scope.md R8, 93_implementation_defined.md part 2). A machine holds one value of this type in its
state and no step changes it, so a statement about every state is a statement about every parameter setting. -/
structure Config where
  /-- `HDR`, bytes of a chunk header. For `HDR` over 16 see log entry 6. -/
  hdr : Nat
  /-- `ARENA_BASE`, the address of the first chunk header. -/
  arenaBase : Nat
  /-- `MEM_LIMIT`: addresses `0 .. MEM_LIMIT-1` are backed. -/
  memLimit : Nat
  /-- `BE32_FILL`: whether LENTOBE32 zeroes the bytes of the 32-byte buffer it does not fill. -/
  be32Fill : Bool
  deriving DecidableEq, Repr

/-- The parameters of `State.reset`: the spec's defaults (00_scope.md R8). `MEM_LIMIT` is OPEN there; the whole address space is
DESIGN CHOICE, log entry 5. -/
def Config.default : Config :=
  { hdr := 16, arenaBase := 16, memLimit := 4294967296, be32Fill := false }

/-- The number of addresses of the 32-bit address space (20_memory.md R50, R51). -/
def Config.addressSpace : Nat := 4294967296

/-- `ALIGN`, the allocation rounding (00_scope.md R8). -/
def Config.align : Nat := 8

/-- `MINPAY`, the payload of a minimal chunk (00_scope.md R8). -/
def Config.minPay : Nat := 8

/-- FREE VALUE: what a byte of memory holds while nothing has written it, one unconstrained value for each address (10_state.md R45;
93_implementation_defined.md part 2: "any value per byte until written"). Log entry 4. -/
opaque Config.powerUpByte : Nat → Byte

/-- FREE VALUE: the draw that a host read of an unwritten register returns (10_state.md R23: "an unconstrained value (a draw)"); the
argument is the counter `State.draws`. Log entry 3. -/
opaque Config.drawnValue : Nat → DWord

end Sys2Proof
end

