-- ==== Sys2Proof/WellFormed.lean ====
section
/-! DEFINITION. Well-formed parameters (00_scope.md R8, the Constraint column) and well-formed commands. -/

namespace Sys2Proof

/-- `HDR`: "multiple of 8, at least 16". -/
def Config.hdrOk (c : Config) : Bool := c.hdr % 8 == 0 && decide (16 ≤ c.hdr)

/-- `ARENA_BASE`: "multiple of 8; not 0". -/
def Config.arenaBaseOk (c : Config) : Bool := c.arenaBase % 8 == 0 && c.arenaBase != 0

/-- `MEM_LIMIT`: between 1 and `2^32`. -/
def Config.memLimitOk (c : Config) : Bool := decide (1 ≤ c.memLimit) && decide (c.memLimit ≤ Config.addressSpace)

/-- "A configuration is well-formed only when every constraint in the last column holds; a model is stated over well-formed
configurations only" (00_scope.md R8). -/
def Config.wellFormed (c : Config) : Bool := c.hdrOk && c.arenaBaseOk && c.memLimitOk

/-- A command has no fields (30_encoding.md R82, R83), so every term of `Instr` is well-formed. -/
def Instr.wellFormed : Instr → Bool
  | .init => true
  | .alloc => true
  | .free => true
  | .realloc => true
  | .mul => true
  | .shl => true
  | .shr => true
  | .be32tolen => true
  | .bentolen => true
  | .lentobe32 => true
  | .lentoben => true

end Sys2Proof
end

