-- ==== Sys2Proof/Decode.lean ====
section
/-! DEFINITION. The command word (30_encoding.md R82 to R87): a total decoder that rejects reserved words by name, and the encoder. -/

namespace Sys2Proof

/-- Why a command word is reserved (30_encoding.md R87). -/
inductive DecodeError where
  /-- The `zero` field, bits 31:8, is not 0. -/
  | zeroFieldNotZero (word : Word)
  /-- The `zero` field is 0 and the opcode is none of the eleven. -/
  | reservedOpcode (opcode : Byte)
  deriving DecidableEq, Repr

/-- Bits 7:0 of the command word (30_encoding.md R82). -/
def opcodeField (word : Word) : Byte := word.extractLsb' 0 8

/-- Bits 31:8 of the command word (30_encoding.md R82). -/
def zeroField (word : Word) : BitVec 24 := word.extractLsb' 8 24

/-- The opcode map of 30_encoding.md R84, by opcode; every other opcode is reserved (R87). -/
def decodeOpcode (op : Byte) : Except DecodeError Instr :=
  match op.toNat with
  | 0x01 => .ok .init
  | 0x02 => .ok .alloc
  | 0x03 => .ok .free
  | 0x04 => .ok .realloc
  | 0x10 => .ok .mul
  | 0x20 => .ok .shl
  | 0x21 => .ok .shr
  | 0x30 => .ok .be32tolen
  | 0x31 => .ok .bentolen
  | 0x32 => .ok .lentobe32
  | 0x33 => .ok .lentoben
  | _ => .error (.reservedOpcode op)

/-- Decoding is total and depends on the word alone (30_encoding.md R86). -/
def decode (word : Word) : Except DecodeError Instr :=
  if zeroField word = 0#24 then decodeOpcode (opcodeField word) else .error (.zeroFieldNotZero word)

/-- The command word of each command (30_encoding.md R84). -/
def encode : Instr → Word
  | .init => 0x00000001#32
  | .alloc => 0x00000002#32
  | .free => 0x00000003#32
  | .realloc => 0x00000004#32
  | .mul => 0x00000010#32
  | .shl => 0x00000020#32
  | .shr => 0x00000021#32
  | .be32tolen => 0x00000030#32
  | .bentolen => 0x00000031#32
  | .lentobe32 => 0x00000032#32
  | .lentoben => 0x00000033#32

/-- The command word that the low `nbits` bits of `w` are (a command word has 32 bits, 30_encoding.md R82; bits above `nbits` are 0). -/
def tableWord (nbits w : Nat) : Word := BitVec.ofNat 32 (w % 2 ^ nbits)

/-- The instruction the decoder reads from the opcode table's bits; `none` where it refuses. More than 32 significant bits are no
command word. -/
def decodeTableWord (nbits w : Nat) : Option Instr :=
  if w % 2 ^ nbits < 4294967296 then
    match decode (tableWord nbits w) with
    | .ok i => some i
    | .error _ => none
  else none

end Sys2Proof
end

