-- ==== Sys2Proof/Machine/State.lean ====
section
/-! DEFINITION. The architectural state of solang CORE (10_state.md), the host's transactions (30_encoding.md R80, R81, R90), the
reasons a step can stop, and the state after reset (10_state.md R45). -/

namespace Sys2Proof.Machine

/-- The 32-bit operand registers (10_state.md R20). -/
inductive AReg where
  | a0 | a1 | a2 | a3
  deriving DecidableEq, Repr

/-- The 64-bit wide registers (10_state.md R21). -/
inductive WReg where
  | w0 | w1
  deriving DecidableEq, Repr

/-- The port registers (30_encoding.md R81). -/
inductive PortReg where
  | a (r : AReg)
  | w (r : WReg)
  | status
  | cmd
  deriving DecidableEq, Repr

/-- A register: what it holds, and whether the host or a command has written it since reset (10_state.md R23). -/
structure Register (n : Nat) where
  value : BitVec n
  written : Bool
  deriving DecidableEq, Repr

/-- One transaction of the host: the port's three kinds (30_encoding.md R80; the value of a WR has the width of the register it names,
R81), a host access to memory bytes (20_memory.md R62) and `reset` (70_reset_and_hazards.md R180). -/
inductive Transaction where
  /-- `WR a0..a3, value`. -/
  | wrA (r : AReg) (value : Word)
  /-- `WR w0/w1, value`. -/
  | wrW (r : WReg) (value : DWord)
  /-- `WR STATUS, value`. -/
  | wrStatus (value : Word)
  /-- `WR CMD, word`. -/
  | wrCmd (word : Word)
  /-- `RD reg`. -/
  | rd (r : PortReg)
  /-- The host writes bytes at `addr`, `addr+1`, ... (`MW`, 30_encoding.md R88). -/
  | memWrite (addr : Word) (bytes : List Byte)
  /-- The host reads `count` bytes at `addr` (`MR`, 30_encoding.md R88). -/
  | memRead (addr : Word) (count : Nat)
  /-- The host asserts `reset` (`RESET`, 30_encoding.md R88). -/
  | reset
  deriving DecidableEq, Repr

/-- What a read returned to the host. -/
inductive Response where
  /-- RD of a 32-bit register. -/
  | word (v : Word)
  /-- RD of a 64-bit register. -/
  | dword (v : DWord)
  /-- A host read of memory bytes. -/
  | bytes (bs : List Byte)
  deriving DecidableEq, Repr

/-- Memory: the bytes something has written, as (address, byte) pairs, addresses strictly rising (`Memory.wf`, Machine/Ops.lean). -/
abbrev Memory := List Host.Cell

/-- Everything the spec gives the machine (INVENTORY.md, heading State). -/
structure State where
  /-- The parameters (00_scope.md R8); no step changes them. -/
  cfg : Config
  a0 : Register 32
  a1 : Register 32
  a2 : Register 32
  a3 : Register 32
  /-- Low 64 bits of the WideInt128 (10_state.md R21). -/
  w0 : Register 64
  /-- High 64 bits of the WideInt128. -/
  w1 : Register 64
  /-- `STATUS` (10_state.md R24); its fields are in Machine/Flags.lean. -/
  status : Word
  mem : Memory
  /-- `ARENA_SIZE` (10_state.md R33, ghost state); `none` until INIT completes (R45). -/
  arenaSize : Option Nat
  /-- Whether something other than a heap command has written a byte of a live header since INIT (20_memory.md R62 duty 1; log entry 9). -/
  headerOverwritten : Bool
  /-- The host's transactions not yet issued, the next one first (10_state.md R22, 30_encoding.md R90; log entry 7). -/
  pending : List Transaction
  /-- What reads have returned to the host, the latest first (30_encoding.md R80; log entry 12). -/
  responses : List Response
  /-- violation(UnwrittenRegister) (10_state.md R23, 60_exceptions.md R166) as the model records it: a command has been issued whose
  operand registers were not all written since reset. "The fault is never cleared" (R165). Log entry 2. -/
  unwrittenRegisterViolation : Bool
  /-- The model's counter of draws (log entry 3). -/
  draws : Nat
  deriving DecidableEq, Repr

/-- Why a step has no next state. The first twelve are the contract violations of 60_exceptions.md R166, under its names: "the step has
no defined next state" (R165); its thirteenth, UnwrittenRegister, is recorded in
`State.unwrittenRegisterViolation` and stops nothing (log entry 2). All are safe: the hardware goes on, unspecified, where the model stops. -/
inductive Fault where
  /-- ALLOC, FREE, REALLOC: `STATUS.INIT = 0` (40_heap.md R100). Safe. -/
  | heapNotInitialised
  /-- INIT: `STATUS.INIT = 1` (40_heap.md R100). Safe. -/
  | secondInit
  /-- INIT: a bad `MEM_SIZE` (40_heap.md R101). Safe. -/
  | badMemSize
  /-- ALLOC, FREE, REALLOC: the host has written a live header, or `HeapWF` is false (20_memory.md R62, 40_heap.md R100). Safe. -/
  | corruptHeap
  /-- FREE: the pointer is neither null nor a valid allocated pointer (40_heap.md R108). Safe. -/
  | badFree
  /-- REALLOC: the pointer is not a valid allocated pointer (40_heap.md R110). Safe. -/
  | badRealloc
  /-- REALLOC: the copy path with a byte count not a multiple of 8 (40_heap.md R112). Safe. -/
  | copyGranularity
  /-- MUL: `N = 0` (41_widemul.md R131). Safe. -/
  | badLimbCount
  /-- SHL, SHR: a shift amount of 128 or more (42_wideshift.md R140). Safe. -/
  | badShiftAmount
  /-- The converters: a length of 0 or over 32 (43_endian.md R150). Safe. -/
  | badLength
  /-- MUL and the converters: an output byte is also an input byte (41_widemul.md R131, 43_endian.md R150). Safe. -/
  | overlappingBuffers
  /-- MUL and the converters: an accessed address is not backed or past `2^32-1` (20_memory.md R51); a heap command whose arena is not
  backed, which no run reaches (log entry 18). Safe. -/
  | unbackedAccess
  /-- The port: any write, command issues and host memory writes included, while `STATUS.HALT = 1` "is not accepted and has no step"
  (30_encoding.md R80, 60_exceptions.md R162; log entry 8). Safe. -/
  | writeWhileHalted
  /-- The host: a memory access of at least one byte, not all of them backed (20_memory.md R51, R62; log entry 11). Safe. -/
  | hostUnbackedAccess
  deriving DecidableEq, Repr

/-- Why a command has no meaning. -/
inductive Refusal where
  /-- Raised by exec for an instruction that has no meaning yet. Safe. -/
  | notModelled (mnemonic : String)
  /-- Raised at issue: the command word is reserved, its `zero` field is not 0 (30_encoding.md R87). Safe. -/
  | reservedWord (word : Word)
  /-- Raised at issue: the command word is reserved, its opcode is none of the eleven (30_encoding.md R87). Safe. -/
  | reservedOpcode (opcode : Byte)
  deriving DecidableEq, Repr

/-- What a command or a step of this machine answers. -/
abbrev Result := Host.Outcome State Fault Refusal

/-- The state after power-up with given parameters (10_state.md R45; the register values are log entry 1). -/
def State.resetWith (cfg : Config) : State :=
  { cfg := cfg
    a0 := ⟨0#32, false⟩
    a1 := ⟨0#32, false⟩
    a2 := ⟨0#32, false⟩
    a3 := ⟨0#32, false⟩
    w0 := ⟨0#64, false⟩
    w1 := ⟨0#64, false⟩
    status := 0#32
    mem := []
    arenaSize := none
    headerOverwritten := false
    pending := []
    responses := []
    unwrittenRegisterViolation := false
    draws := 0 }

/-- The machine right after reset (10_state.md R45), with the spec's default parameters (log entry 5). -/
def State.reset : State := State.resetWith Config.default

end Sys2Proof.Machine
end

