-- ==== Sys2Proof/Machine/Flags.lean ====
section
/-! DEFINITION. The fields of STATUS (10_state.md R24) and the `halt` output (R26). There are no condition codes (R24). -/

namespace Sys2Proof.Machine

/-- `STATUS.INIT`, bit 0. -/
def statusInit (st : Word) : Bool := st.getLsbD 0

/-- `STATUS.HALT`, bit 1. -/
def statusHalt (st : Word) : Bool := st.getLsbD 1

/-- `STATUS.CAUSE`, bits 15:8. -/
def statusCause (st : Word) : Byte := st.extractLsb' 8 8

/-- The reserved bits 7:2 and 31:16, in place; they read as 0. -/
def statusReserved (st : Word) : Word := st &&& 0xFFFF00FC#32

/-- `CAUSE = 1`, `OOM` (10_state.md R24). -/
def causeOOM : Byte := 1#8

/-- `STATUS.INIT <- 1`. -/
def statusSetInit (st : Word) : Word := st ||| 0x00000001#32

/-- `STATUS.HALT <- 1`, `STATUS.CAUSE <- cause`. -/
def statusSetHalt (st : Word) (cause : Byte) : Word :=
  ((st &&& 0xFFFF00FF#32) ||| 0x00000002#32) ||| (cause.setWidth 32 <<< 8)

/-- The arena exists: `STATUS.INIT = 1`. -/
def State.initialised (s : State) : Bool := statusInit s.status

/-- The block has halted: `STATUS.HALT = 1`. -/
def State.halted (s : State) : Bool := statusHalt s.status

/-- The `halt` output, "equal to `STATUS.HALT` at all times" (10_state.md R26). -/
def State.haltOutput (s : State) : Bool := s.halted

end Sys2Proof.Machine
end

