-- ==== Sys2Proof/Machine/Ops.lean ====
section
/-! DEFINITION. The named operations over memory (20_memory.md R51, R52), the registers (10_state.md R20, R21), halt entry
(60_exceptions.md R161) and its only way out, reset (R163, 70_reset_and_hazards.md R180). -/

namespace Sys2Proof.Machine

/-- The canonical form of a memory: addresses strictly rising. An address that is not listed has no value of its own (`Memory.lookup`
answers `none`), so no listed entry can equal what an unlisted address reads as. -/
abbrev Memory.wf (m : Memory) : Prop := List.Pairwise (fun x y => x.1 < y.1) m

/-- The byte something has written at an address, if something has. -/
def Memory.lookup : Memory → Nat → Option Byte
  | [], _ => none
  | (a, b) :: m, x => if x = a then some b else Memory.lookup m x

/-- `Mem[addr]` (00_scope.md R11). A byte nothing has written holds an unconstrained value, the same at every read until it is written
(10_state.md R45, 93_implementation_defined.md part 2; log entry 4). -/
def Memory.read (m : Memory) (addr : Nat) : Byte := (m.lookup addr).getD (Config.powerUpByte addr)

/-- `Mem[addr] <- v`. -/
def Memory.write : Memory → Nat → Byte → Memory
  | [], x, v => [(x, v)]
  | (a, b) :: m, x, v =>
    if x < a then (x, v) :: (a, b) :: m
    else if x = a then (x, v) :: m
    else (a, b) :: Memory.write m x v

/-- The bytes at `addr`, `addr+1`, ..., in that order. -/
def Memory.readBytes (m : Memory) : Nat → Nat → List Byte
  | _, 0 => []
  | addr, n + 1 => m.read addr :: Memory.readBytes m (addr + 1) n

/-- Writes a list of bytes to `addr`, `addr+1`, .... -/
def Memory.writeBytes (m : Memory) : Nat → List Byte → Memory
  | _, [] => m
  | addr, b :: bs => Memory.writeBytes (m.write addr b) (addr + 1) bs

/-- A byte string as a little-endian unsigned number (20_memory.md R52). -/
def leNat : List Byte → Nat
  | [] => 0
  | b :: bs => b.toNat + 256 * leNat bs

/-- The `n` low bytes of a number, least significant first (20_memory.md R52). -/
def leBytes : Nat → Nat → List Byte
  | 0, _ => []
  | n + 1, v => BitVec.ofNat 8 v :: leBytes n (v / 256)

/-- `MemRead(addr, n)` (00_scope.md R11, 20_memory.md R52). -/
def memRead (m : Memory) (addr n : Nat) : Nat := leNat (m.readBytes addr n)

/-- `MemWrite(addr, n, v)` (00_scope.md R11, 20_memory.md R52). -/
def memWrite (m : Memory) (addr n v : Nat) : Memory := m.writeBytes addr (leBytes n v)

/-- The `n` addresses from `addr` on are backed and none is past `2^32-1` (20_memory.md R51; sums never wrap). -/
def backed (cfg : Config) (addr n : Nat) : Bool :=
  decide (addr + n ≤ cfg.memLimit) && decide (addr + n ≤ Config.addressSpace)

/-- The address ranges `a .. a+n-1` and `b .. b+k-1` share an address. -/
def rangesOverlap (a n b k : Nat) : Bool :=
  decide (0 < n) && decide (0 < k) && decide (a < b + k) && decide (b < a + n)

/-- Register `a<i>` (10_state.md R20). -/
def State.getA (s : State) : AReg → Register 32
  | .a0 => s.a0
  | .a1 => s.a1
  | .a2 => s.a2
  | .a3 => s.a3

/-- Register `w<k>` (10_state.md R21). -/
def State.getW (s : State) : WReg → Register 64
  | .w0 => s.w0
  | .w1 => s.w1

/-- `a[i] <- v`: the register holds `v` and has been written (10_state.md R20, R23). -/
def State.setA (s : State) (r : AReg) (v : Word) : State :=
  match r with
  | .a0 => { s with a0 := ⟨v, true⟩ }
  | .a1 => { s with a1 := ⟨v, true⟩ }
  | .a2 => { s with a2 := ⟨v, true⟩ }
  | .a3 => { s with a3 := ⟨v, true⟩ }

/-- `w[k] <- v` (10_state.md R21, R23). -/
def State.setW (s : State) (r : WReg) (v : DWord) : State :=
  match r with
  | .w0 => { s with w0 := ⟨v, true⟩ }
  | .w1 => { s with w1 := ⟨v, true⟩ }

/-- The memory after a heap command's own writes. -/
def State.setMem (s : State) (m : Memory) : State := { s with mem := m }

/-- `round8(s)`, computed without wrap-around (00_scope.md R11, 40_heap.md R103). -/
def round8 (size : Nat) : Nat := Config.align * ((size + (Config.align - 1)) / Config.align)

/-- TAKING THE ONE EXCEPTION, `Halt(cause)` (60_exceptions.md R161): STATUS.HALT and STATUS.CAUSE are written, the `halt` output follows,
and no register, no memory byte and not STATUS.INIT is changed. Nothing is saved and nowhere is gone to: there is no handler (R161). -/
def State.enterHalt (s : State) (cause : Byte) : State := { s with status := statusSetHalt s.status cause }

/-- THE ONLY EXIT FROM THE HALTED STATE, `reset` (60_exceptions.md R163, 70_reset_and_hazards.md R180): every register and flag takes its
reset value, the arena ceases to exist, memory is not touched. The host's own lists, the model's record of a
violation and its counter go on (log entries 2 and 17). -/
def State.applyReset (s : State) : State :=
  { State.resetWith s.cfg with
    mem := s.mem
    pending := s.pending
    responses := s.responses
    unwrittenRegisterViolation := s.unwrittenRegisterViolation
    draws := s.draws }

end Sys2Proof.Machine
end

