-- ==== Sys2Proof/Machine/Operands.lean ====
section
/-! DEFINITION. The operand convention (30_encoding.md R85): which registers a command reads, and whether they have been written since
reset (10_state.md R23). -/

namespace Sys2Proof.Machine

/-- The registers a command reads: the In column of 30_encoding.md R85. -/
def operandRegs : Instr → List PortReg
  | .init => [.a .a0]
  | .alloc => [.a .a0]
  | .free => [.a .a0]
  | .realloc => [.a .a0, .a .a1]
  | .mul => [.a .a0, .a .a1, .a .a2, .a .a3]
  | .shl => [.w .w0, .w .w1, .a .a0]
  | .shr => [.w .w0, .w .w1, .a .a0]
  | .be32tolen => [.a .a0, .a .a1, .a .a2]
  | .bentolen => [.a .a0, .a .a1, .a .a2]
  | .lentobe32 => [.a .a0, .a .a1, .a .a2]
  | .lentoben => [.a .a0, .a .a1, .a .a2]

/-- The host or a command has written the register since reset (10_state.md R23); STATUS and CMD always read as the spec says. -/
def State.written (s : State) : PortReg → Bool
  | .a r => (s.getA r).written
  | .w r => (s.getW r).written
  | .status => true
  | .cmd => true

/-- Every operand register of the command has been written since reset: the host keeps 10_state.md R23. -/
def State.operandsWritten (s : State) (i : Instr) : Bool := (operandRegs i).all s.written

/-- The record a model makes of violation(UnwrittenRegister) (10_state.md R23; 60_exceptions.md R165: "the model records a fault named as in
rule R166; the fault is never cleared") when a command is issued. The command then runs on what the registers hold, since reading a
register is no fault in this model (log entry 2). -/
def State.recordOperands (s : State) (i : Instr) : State :=
  { s with unwrittenRegisterViolation := s.unwrittenRegisterViolation || !s.operandsWritten i }

/-- An `a` register as an operand: an unsigned number, neither extended, scaled nor shifted (30_encoding.md R83). -/
def State.opA (s : State) (r : AReg) : Nat := (s.getA r).value.toNat

end Sys2Proof.Machine
end

