-- ==== Sys2Proof/Machine/Chunks.lean ====
section
/-! DEFINITION. Chunk headers, the chunk list and HeapWF (10_state.md R30 to R36, 00_scope.md R12), and the heap operations the commands
share (40_heap.md R102, R104, R107, R105, R108, R112). -/

namespace Sys2Proof.Machine

/-- `c.next` (00_scope.md R12). -/
def hdrNext (m : Memory) (c : Nat) : Nat := memRead m c 4
/-- `c.prev`. -/
def hdrPrev (m : Memory) (c : Nat) : Nat := memRead m (c + 4) 4
/-- `c.length`. -/
def hdrLength (m : Memory) (c : Nat) : Nat := memRead m (c + 8) 4
/-- `c.allocated`. -/
def hdrAllocated (m : Memory) (c : Nat) : Nat := memRead m (c + 12) 4

/-- `c.next <- v` (00_scope.md R12). -/
def setNext (m : Memory) (c v : Nat) : Memory := memWrite m c 4 v
/-- `c.prev <- v`. -/
def setPrev (m : Memory) (c v : Nat) : Memory := memWrite m (c + 4) 4 v
/-- `c.length <- v`. -/
def setLength (m : Memory) (c v : Nat) : Memory := memWrite m (c + 8) 4 v
/-- `c.allocated <- v`. -/
def setAllocated (m : Memory) (c v : Nat) : Memory := memWrite m (c + 12) 4 v

/-- The chunk list from header `c` on, following `next` until it is 0 (10_state.md R34); `none` when that takes more than `fuel` chunks. -/
def chunkWalk (m : Memory) : Nat → Nat → Option (List Nat)
  | 0, _ => none
  | fuel + 1, c =>
    if hdrNext m c = 0 then some [c]
    else
      match chunkWalk m fuel (hdrNext m c) with
      | none => none
      | some cs => some (c :: cs)

/-- `ARENA_END` (10_state.md R33). -/
def State.arenaEnd (s : State) (size : Nat) : Nat := s.cfg.arenaBase + size

/-- The chunk list of the arena (10_state.md R34). A list of chunks that tiles `size` bytes has at most `size / HDR` chunks, each having a
header, so the walk is bounded by that number: a longer one breaks clause 2. -/
def State.chunkList (s : State) : Option (List Nat) :=
  match s.arenaSize with
  | none => none
  | some size => chunkWalk s.mem (size / s.cfg.hdr) s.cfg.arenaBase

/-- `p x y` holds of every two neighbours of a list. -/
def adjacent (p : Nat → Nat → Bool) : List Nat → Bool
  | [] => true
  | [_] => true
  | x :: y :: xs => p x y && adjacent p (y :: xs)

/-- The address after a chunk: `c + HDR + c.length`. -/
def chunkEnd (cfg : Config) (m : Memory) (c : Nat) : Nat := c + cfg.hdr + hdrLength m c

/-- HeapWF clause 2 (10_state.md R34): "The chunk list exactly covers the arena from base to end". -/
def chunksTile (cfg : Config) (m : Memory) (stop : Nat) (cs : List Nat) : Bool :=
  adjacent (fun c d => d == chunkEnd cfg m c) cs && cs.getLast?.map (chunkEnd cfg m) == some stop

/-- HeapWF clause 3: the back links. -/
def chunksLinkedBack (m : Memory) (cs : List Nat) : Bool :=
  cs.head?.map (hdrPrev m) == some 0 && adjacent (fun c d => hdrPrev m d == c) cs

/-- HeapWF clause 4: every `allocated` word is 0 or 1. -/
def chunksFlagged (m : Memory) (cs : List Nat) : Bool := cs.all fun c => decide (hdrAllocated m c ≤ 1)

/-- HeapWF clause 5: "No two adjacent chunks are ever simultaneously free". -/
def noTwoFree (m : Memory) (cs : List Nat) : Bool :=
  adjacent (fun c d => !(hdrAllocated m c == 0 && hdrAllocated m d == 0)) cs

/-- HeapWF clause 6: every payload length is a multiple of 8. -/
def lengthsAligned (m : Memory) (cs : List Nat) : Bool := cs.all fun c => hdrLength m c % 8 == 0

/-- Clauses 2 to 6 of HeapWF over a chunk list (10_state.md R34). -/
def chunksWF (cfg : Config) (m : Memory) (stop : Nat) (cs : List Nat) : Bool :=
  chunksTile cfg m stop cs && chunksLinkedBack m cs && chunksFlagged m cs && noTwoFree m cs && lengthsAligned m cs

/-- The chunk list when the heap is well-formed, `none` when `HeapWF` is false (10_state.md R34, clause 1 and the rest). -/
def State.heapChunks (s : State) : Option (List Nat) :=
  match s.arenaSize, s.chunkList with
  | some size, some cs => if chunksWF s.cfg s.mem (s.arenaEnd size) cs then some cs else none
  | _, _ => none

/-- `HeapWF` (10_state.md R34). -/
def State.heapWF (s : State) : Bool := s.heapChunks.isSome

/-- The chunks whose headers are live: "A header in the chunk list is a live header" (10_state.md R34). -/
def State.liveChunks (s : State) : List Nat := s.chunkList.getD []

/-- A byte of `addr .. addr+n-1` belongs to a live header. -/
def State.touchesLiveHeader (s : State) (addr n : Nat) : Bool :=
  s.liveChunks.any fun c => rangesOverlap c s.cfg.hdr addr n

/-- A store of bytes by the host, or by a command into a buffer the host chose. A live header it writes to is no longer trusted
(20_memory.md R62 duty 1; log entry 9). -/
def State.storeBytes (s : State) (addr : Nat) (bs : List Byte) : State :=
  { s with
    mem := s.mem.writeBytes addr bs
    headerOverwritten := s.headerOverwritten || s.touchesLiveHeader addr bs.length }

/-- What every command of ALLOC, FREE and REALLOC requires (40_heap.md R100), then the command's own rule over the chunk list. -/
def State.withHeap (s : State) (body : List Nat → Result) : Result :=
  if !s.initialised then .fault .heapNotInitialised
  else if s.headerOverwritten then .fault .corruptHeap
  else
    match s.heapChunks with
    | none => .fault .corruptHeap
    | some cs => if !backed s.cfg s.cfg.arenaBase (s.arenaSize.getD 0) then .fault .unbackedAccess else body cs

/-- `p` is the payload address of an allocated chunk of the list (10_state.md R32, R36). -/
def validPointer (cfg : Config) (m : Memory) (cs : List Nat) (p : Nat) : Bool :=
  decide (cfg.hdr ≤ p) && cs.contains (p - cfg.hdr) && hdrAllocated m (p - cfg.hdr) == 1

/-- `FirstFit(rs)` (40_heap.md R102): the first header in list order, free and long enough. -/
def firstFit (m : Memory) (cs : List Nat) (rs : Nat) : Option Nat :=
  cs.find? fun c => hdrAllocated m c == 0 && decide (rs ≤ hdrLength m c)

/-- `Split(c, rs)` (40_heap.md R104), for `rs ≤ c.length`. -/
def split (cfg : Config) (m : Memory) (c rs : Nat) : Memory :=
  let len := hdrLength m c
  if Config.minPay + cfg.hdr ≤ len - rs then
    let t := c + cfg.hdr + rs
    let n := hdrNext m c
    let m1 := setNext m t n
    let m2 := setPrev m1 t c
    let m3 := setLength m2 t (len - rs - cfg.hdr)
    let m4 := setAllocated m3 t 0
    let m5 := if n = 0 then m4 else setPrev m4 n t
    let m6 := setNext m5 c t
    setLength m6 c rs
  else m

/-- `Absorb(c, n)` (40_heap.md R107), for `c.next = n`. -/
def absorb (cfg : Config) (m : Memory) (c n : Nat) : Memory :=
  let after := hdrNext m n
  let m1 := setLength m c (hdrLength m c + cfg.hdr + hdrLength m n)
  let m2 := setNext m1 c after
  if after = 0 then m2 else setPrev m2 after c

/-- ALLOC's work on memory (40_heap.md R105): the memory and the header granted, `none` where `FirstFit` finds nothing. -/
def allocChunk (cfg : Config) (m : Memory) (cs : List Nat) (size : Nat) : Option (Memory × Nat) :=
  match firstFit m cs (round8 size) with
  | none => none
  | some c => some (setAllocated (split cfg m c (round8 size)) c 1, c)

/-- FREE's work on memory (40_heap.md R108): the next chunk is absorbed first, then the current chunk into the previous one. -/
def freeChunk (cfg : Config) (m : Memory) (c : Nat) : Memory :=
  let m1 := setAllocated m c 0
  let n := hdrNext m1 c
  let m2 := if n ≠ 0 ∧ hdrAllocated m1 n = 0 then absorb cfg m1 c n else m1
  let q := hdrPrev m2 c
  if q ≠ 0 ∧ hdrAllocated m2 q = 0 then absorb cfg m2 q c else m2

/-- The copy of REALLOC (40_heap.md R112): `units` units of 8 bytes from `p` to `q`, in rising order. -/
def copyUnits (m : Memory) (p q : Nat) : Nat → Memory
  | 0 => m
  | units + 1 =>
    let m1 := copyUnits m p q units
    memWrite m1 (q + 8 * units) 8 (memRead m1 (p + 8 * units) 8)

end Sys2Proof.Machine
end

