-- ==== Sys2Proof/Machine/Endian.lean ====
section
/-! DEFINITION. The EndianConverter commands BE32TOLEN, BENTOLEN, LENTOBE32, LENTOBEN (43_endian.md). -/

namespace Sys2Proof.Machine

/-- The common preconditions of 43_endian.md R150 and then the reversal. A converter reads the `n` bytes at `src` and writes the bytes
`fill` followed by the bytes read, in reverse, at `dst`. The reads are all of the old memory (R151). -/
def convert (s : State) (n src dst : Nat) (fill : List Byte) : Result :=
  if n = 0 ∨ 32 < n then .fault .badLength
  else if !(backed s.cfg src n && backed s.cfg dst (fill.length + n)) then .fault .unbackedAccess
  else if rangesOverlap src n dst (fill.length + n) then .fault .overlappingBuffers
  else .next (s.storeBytes dst (fill ++ (s.mem.readBytes src n).reverse))

/-- BE32TOLEN (43_endian.md R151): reads `from+32-n .. from+31`, writes `to .. to+n-1`. -/
def execBe32tolen (s : State) : Result :=
  convert s (s.opA .a2) (s.opA .a0 + (32 - s.opA .a2)) (s.opA .a1) []

/-- BENTOLEN (43_endian.md R152): reads `from .. from+n-1`, writes `to .. to+n-1`. -/
def execBentolen (s : State) : Result :=
  convert s (s.opA .a2) (s.opA .a0) (s.opA .a1) []

/-- LENTOBE32 (43_endian.md R153): reads `from .. from+n-1`, writes `to+32-n .. to+31`, and with `BE32_FILL` zero to the 32-n bytes
before them. -/
def execLentobe32 (s : State) : Result :=
  if s.cfg.be32Fill then convert s (s.opA .a2) (s.opA .a0) (s.opA .a1) (List.replicate (32 - s.opA .a2) 0#8)
  else convert s (s.opA .a2) (s.opA .a0) (s.opA .a1 + (32 - s.opA .a2)) []

/-- LENTOBEN (43_endian.md R154): reads `from .. from+n-1`, writes `to .. to+n-1`. -/
def execLentoben (s : State) : Result :=
  convert s (s.opA .a2) (s.opA .a0) (s.opA .a1) []

end Sys2Proof.Machine
end

