-- ==== Sys2Proof/Machine/Heap.lean ====
section
/-! DEFINITION. The Heap Manager commands INIT, ALLOC, FREE, REALLOC (40_heap.md). -/

namespace Sys2Proof.Machine

/-- The preconditions of INIT on `MEM_SIZE` (40_heap.md R101). -/
def memSizeOk (cfg : Config) (memSize : Nat) : Bool :=
  memSize % 8 == 0 && decide (2 * cfg.hdr ≤ memSize) && decide (cfg.arenaBase + memSize - cfg.hdr ≤ cfg.memLimit)

/-- The one free chunk that spans the arena (40_heap.md R101). -/
def initHeader (cfg : Config) (m : Memory) (arenaSize : Nat) : Memory :=
  let c := cfg.arenaBase
  setAllocated (setLength (setPrev (setNext m c 0) c 0) c (arenaSize - cfg.hdr)) c 0

/-- INIT (40_heap.md R101). -/
def execInit (s : State) : Result :=
  if s.initialised then .fault .secondInit
  else if !memSizeOk s.cfg (s.opA .a0) then .fault .badMemSize
  else
    let arenaSize := s.opA .a0 - s.cfg.hdr
    .next { s with
      mem := initHeader s.cfg s.mem arenaSize
      arenaSize := some arenaSize
      headerOverwritten := false
      status := statusSetInit s.status }

/-- ALLOC (40_heap.md R105): where no chunk fits it halts, with nothing else changed. -/
def execAlloc (s : State) : Result :=
  s.withHeap fun cs =>
    match allocChunk s.cfg s.mem cs (s.opA .a0) with
    | none => .next (s.enterHalt causeOOM)
    | some (m, c) => .next ((s.setMem m).setA .a0 (BitVec.ofNat 32 (c + s.cfg.hdr)))

/-- FREE (40_heap.md R108): null is a no-op. -/
def execFree (s : State) : Result :=
  s.withHeap fun cs =>
    let p := s.opA .a0
    if p = 0 then .next s
    else if !validPointer s.cfg s.mem cs p then .fault .badFree
    else .next (s.setMem (freeChunk s.cfg s.mem (p - s.cfg.hdr)))

/-- The test of REALLOC's in-place path (40_heap.md R110), on the size as given, not rounded. -/
def reallocFitsInPlace (cfg : Config) (m : Memory) (c newSize : Nat) : Bool :=
  let n := hdrNext m c
  n != 0 && hdrAllocated m n == 0 && decide (newSize ≤ hdrLength m c + cfg.hdr + hdrLength m n)

/-- REALLOC in place (40_heap.md R111): absorb the next chunk, split at the rounded size. -/
def reallocInPlace (cfg : Config) (m : Memory) (c newSize : Nat) : Memory :=
  split cfg (absorb cfg m c (hdrNext m c)) c (round8 newSize)

/-- REALLOC by copy (40_heap.md R112): allocate (and perhaps halt), copy, free, in that order. -/
def reallocCopy (s : State) (cs : List Nat) (c newSize : Nat) : Result :=
  match allocChunk s.cfg s.mem cs newSize with
  | none => .next (s.enterHalt causeOOM)
  | some (m, d) =>
    let count := min (hdrLength s.mem c) newSize
    if count % 8 ≠ 0 then .fault .copyGranularity
    else
      let m1 := copyUnits m (c + s.cfg.hdr) (d + s.cfg.hdr) (count / 8)
      .next ((s.setMem (freeChunk s.cfg m1 c)).setA .a0 (BitVec.ofNat 32 (d + s.cfg.hdr)))

/-- REALLOC (40_heap.md R110). -/
def execRealloc (s : State) : Result :=
  s.withHeap fun cs =>
    let p := s.opA .a0
    let newSize := s.opA .a1
    let c := p - s.cfg.hdr
    if !validPointer s.cfg s.mem cs p then .fault .badRealloc
    else if reallocFitsInPlace s.cfg s.mem c newSize then .next (s.setMem (reallocInPlace s.cfg s.mem c newSize))
    else reallocCopy s cs c newSize

end Sys2Proof.Machine
end

