-- ==== Sys2Proof/Machine/WideMul.lean ====
section
/-! DEFINITION. The WideMultiply command MUL (41_widemul.md), and the datapath R132 gives for it. -/

namespace Sys2Proof.Machine

/-- The limbs of a LimbArray of `n` limbs at `addr`, limb 0 first (10_state.md R38). -/
def readLimbs (m : Memory) : Nat → Nat → List Nat
  | _, 0 => []
  | addr, n + 1 => memRead m addr 4 :: readLimbs m (addr + 4) n

/-- The integer a LimbArray represents: `sum_i limb_i * 2^(32 i)` (10_state.md R38). -/
def limbsValue : List Nat → Nat
  | [] => 0
  | l :: ls => l + 4294967296 * limbsValue ls

/-- The `n` low limbs of a number, least significant first. -/
def valueLimbs : Nat → Nat → List Nat
  | 0, _ => []
  | n + 1, v => v % 4294967296 :: valueLimbs n (v / 4294967296)

/-- The bytes of a LimbArray: each limb little-endian (10_state.md R38). -/
def limbsBytes : List Nat → List Byte
  | [] => []
  | l :: ls => leBytes 4 l ++ limbsBytes ls

/-- The product of two LimbArrays of `n` limbs, truncated to its low `n` limbs (41_widemul.md R131). -/
def mulLimbs (n : Nat) (left right : List Nat) : List Nat :=
  valueLimbs n (limbsValue left * limbsValue right % 2 ^ (32 * n))

/-- MUL (41_widemul.md R131). -/
def execMul (s : State) : Result :=
  let left := s.opA .a0
  let right := s.opA .a1
  let out := s.opA .a2
  let n := s.opA .a3
  if n = 0 then .fault .badLimbCount
  else if !(backed s.cfg left (4 * n) && backed s.cfg right (4 * n) && backed s.cfg out (4 * n)) then .fault .unbackedAccess
  else if rangesOverlap out (4 * n) left (4 * n) || rangesOverlap out (4 * n) right (4 * n) then .fault .overlappingBuffers
  else .next (s.storeBytes out (limbsBytes (mulLimbs n (readLimbs s.mem left n) (readLimbs s.mem right n))))

/-- `add64(x, y)` (00_scope.md R11). -/
def add64 (x y : DWord) : DWord × Bool := (x + y, decide (18446744073709551616 ≤ x.toNat + y.toNat))

/-- An operand's length less its zero limbs at the top (41_widemul.md R132, R133). -/
def trimmedLength (limbs : List Nat) : Nat := (limbs.reverse.dropWhile (fun l => l == 0)).length

/-- The 64-bit accumulator and side carry after the partial products `i + j = l` with `i < k` (41_widemul.md R132), each detected
overflow worth `2^32` of carry. -/
def mulColumn (left right : List Nat) (l : Nat) (val : DWord) : Nat → DWord × DWord
  | 0 => (val, 0#64)
  | k + 1 =>
    let before := mulColumn left right l val k
    if k < trimmedLength left ∧ l - k < trimmedLength right then
      let sum := add64 before.1 (BitVec.ofNat 64 (left.getD k 0 * right.getD (l - k) 0))
      (sum.1, if sum.2 then before.2 + 4294967296#64 else before.2)
    else before

/-- The output limbs of R132's datapath from column `l` on, `count` of them, entered with accumulator `val`. -/
def mulColumns (left right : List Nat) : Nat → Nat → DWord → List Nat
  | 0, _, _ => []
  | count + 1, l, val =>
    let col := mulColumn left right l val (l + 1)
    col.1.toNat % 4294967296 :: mulColumns left right count (l + 1) ((col.1 >>> 32) + col.2)

/-- The datapath of 41_widemul.md R132, which "any other datapath with the same result" may replace; MUL is defined by R131, and an
obligation says that the two agree. -/
def mulDatapath (n : Nat) (left right : List Nat) : List Nat := mulColumns left right n 0 0#64

end Sys2Proof.Machine
end

