-- ==== Sys2Proof/Machine/WideShift.lean ====
section
/-! DEFINITION. The WideShift commands SHL and SHR (42_wideshift.md), three explicit cases each (R143). -/

namespace Sys2Proof.Machine

/-- SHL's new `(w0, w1)` (42_wideshift.md R141); every 64-bit shift amount is in 0..63 (R143). -/
def shiftLeft128 (lo hi : DWord) (r : Nat) : DWord × DWord :=
  if r = 0 then (lo, hi)
  else if 64 ≤ r then (0#64, lo <<< (r - 64))
  else (lo <<< r, (hi <<< r) ||| (lo >>> (64 - r)))

/-- SHR's new `(w0, w1)` (42_wideshift.md R142). -/
def shiftRight128 (lo hi : DWord) (r : Nat) : DWord × DWord :=
  if r = 0 then (lo, hi)
  else if 64 ≤ r then (hi >>> (r - 64), 0#64)
  else ((lo >>> r) ||| (hi <<< (64 - r)), hi >>> r)

/-- The result of a shift replaces `w0` and `w1` (42_wideshift.md R140). -/
def State.setWide (s : State) (v : DWord × DWord) : State := (s.setW .w0 v.1).setW .w1 v.2

/-- SHL (42_wideshift.md R140, R141). -/
def execShl (s : State) : Result :=
  if 128 ≤ s.opA .a0 then .fault .badShiftAmount
  else .next (s.setWide (shiftLeft128 s.w0.value s.w1.value (s.opA .a0)))

/-- SHR (42_wideshift.md R140, R142). -/
def execShr (s : State) : Result :=
  if 128 ≤ s.opA .a0 then .fault .badShiftAmount
  else .next (s.setWide (shiftRight128 s.w0.value s.w1.value (s.opA .a0)))

end Sys2Proof.Machine
end

