-- ==== Sys2Proof/Machine/Dispatch.lean ====
section
/-! DEFINITION. One arm per command (30_encoding.md R84). -/

namespace Sys2Proof.Machine

def exec (i : Instr) (s : State) : Host.Outcome State Fault Refusal :=
  match i with
  | .init => Sys2Proof.Machine.execInit s
  | .alloc => Sys2Proof.Machine.execAlloc s
  | .free => Sys2Proof.Machine.execFree s
  | .realloc => Sys2Proof.Machine.execRealloc s
  | .mul => Sys2Proof.Machine.execMul s
  | .shl => Sys2Proof.Machine.execShl s
  | .shr => Sys2Proof.Machine.execShr s
  | .be32tolen => Sys2Proof.Machine.execBe32tolen s
  | .bentolen => Sys2Proof.Machine.execBentolen s
  | .lentobe32 => Sys2Proof.Machine.execLentobe32 s
  | .lentoben => Sys2Proof.Machine.execLentoben s

end Sys2Proof.Machine
end

