-- ==== Sys2Proof/Machine/Port.lean ====
section
/-! DEFINITION. The command port and the host's own accesses (30_encoding.md R80, R81, R90; 20_memory.md R62; 60_exceptions.md R162;
70_reset_and_hazards.md R180). -/

namespace Sys2Proof.Machine

/-- The 3-bit number of a port register (30_encoding.md R81). -/
def portNumber : PortReg → BitVec 3
  | .a .a0 => 0#3
  | .a .a1 => 1#3
  | .a .a2 => 2#3
  | .a .a3 => 3#3
  | .w .w0 => 4#3
  | .w .w1 => 5#3
  | .status => 6#3
  | .cmd => 7#3

/-- The port register a 3-bit number names (30_encoding.md R81): every number names one. -/
def portRegister (number : BitVec 3) : PortReg :=
  match number.toNat with
  | 0 => .a .a0
  | 1 => .a .a1
  | 2 => .a .a2
  | 3 => .a .a3
  | 4 => .w .w0
  | 5 => .w .w1
  | 6 => .status
  | _ => .cmd

/-- The WR transaction a (register number, value) pair is (30_encoding.md R90); "the `value` of a `WR` has the width of the register it
names" (R81), so a 32-bit register takes the low 32 bits. -/
def decodeWrite (number : BitVec 3) (value : DWord) : Transaction :=
  match portRegister number with
  | .a r => .wrA r (value.setWidth 32)
  | .w r => .wrW r value
  | .status => .wrStatus (value.setWidth 32)
  | .cmd => .wrCmd (value.setWidth 32)

/-- The (register number, value) pair of a WR transaction (30_encoding.md R90); the other transactions are no WR. -/
def encodeWrite : Transaction → Option (BitVec 3 × DWord)
  | .wrA r v => some (portNumber (.a r), v.setWidth 64)
  | .wrW r v => some (portNumber (.w r), v)
  | .wrStatus v => some (portNumber .status, v.setWidth 64)
  | .wrCmd v => some (portNumber .cmd, v.setWidth 64)
  | .rd _ => none
  | .memWrite _ _ => none
  | .memRead _ _ => none
  | .reset => none

/-- A value returned to the host. -/
def State.respond (s : State) (v : Response) : State := { s with responses := v :: s.responses }

/-- RD of a register that nothing has written since reset returns a draw (10_state.md R23; log entry 3), as wide as the register; the
counter advances. -/
def State.respondDraw (s : State) (r : PortReg) : State :=
  let v := Config.drawnValue s.draws
  let s' := { s with draws := s.draws + 1 }
  match r with
  | .w _ => s'.respond (.dword v)
  | .a _ => s'.respond (.word (v.setWidth 32))
  | .status => s'.respond (.word (v.setWidth 32))
  | .cmd => s'.respond (.word (v.setWidth 32))

/-- What a port register that has been written reads as (30_encoding.md R81): CMD reads as 0 (10_state.md R25). -/
def State.portValue (s : State) : PortReg → Response
  | .a r => .word (s.getA r).value
  | .w r => .dword (s.getW r).value
  | .status => .word s.status
  | .cmd => .word 0#32

/-- `RD reg` (30_encoding.md R80). -/
def State.portRead (s : State) (r : PortReg) : State := if s.written r then s.respond (s.portValue r) else s.respondDraw r

/-- Every byte of a host access is backed (20_memory.md R51, R62). An access of no bytes touches no address and is allowed wherever it
points, on which the spec is silent: DESIGN CHOICE, log entry 11. -/
def hostMayAccess (cfg : Config) (addr n : Nat) : Bool := n == 0 || backed cfg addr n

/-- The host writes memory bytes (20_memory.md R62). That bytes not all backed stop the step as a whole is log entry 11. -/
def hostWrite (s : State) (addr : Nat) (bs : List Byte) : Result :=
  if hostMayAccess s.cfg addr bs.length then .next (s.storeBytes addr bs) else .fault .hostUnbackedAccess

/-- The host reads memory bytes (20_memory.md R62). That bytes not all backed stop the step as a whole is log entry 11. -/
def hostRead (s : State) (addr n : Nat) : Result :=
  if hostMayAccess s.cfg addr n then .next (s.respond (.bytes (s.mem.readBytes addr n))) else .fault .hostUnbackedAccess

/-- A write of the CMD port (30_encoding.md R80, R86): the command the word encodes, operands nothing has written being recorded first
(log entry 2), or a refusal by name (R87). -/
def issueWord (s : State) (word : Word) : Result :=
  match decode word with
  | .ok i => exec i (s.recordOperands i)
  | .error (.zeroFieldNotZero w) => .refused (.reservedWord w)
  | .error (.reservedOpcode op) => .refused (.reservedOpcode op)

/-- The transaction writes: it is a WR, a command issue or a host memory write (60_exceptions.md R162; log entry 8). -/
def Transaction.isWrite : Transaction → Bool
  | .wrA _ _ => true
  | .wrW _ _ => true
  | .wrStatus _ => true
  | .wrCmd _ => true
  | .rd _ => false
  | .memWrite _ _ => true
  | .memRead _ _ => false
  | .reset => false

/-- A transaction the block accepts. A WR of STATUS is ignored (10_state.md R24). -/
def serve (s : State) : Transaction → Result
  | .wrA r v => .next (s.setA r v)
  | .wrW r v => .next (s.setW r v)
  | .wrStatus _ => .next s
  | .wrCmd word => issueWord s word
  | .rd r => .next (s.portRead r)
  | .memWrite addr bs => hostWrite s addr.toNat bs
  | .memRead addr n => hostRead s addr.toNat n
  | .reset => .next s.applyReset

/-- One transaction. "While `STATUS.HALT = 1` the block accepts no `WR`" (60_exceptions.md R162), and no host memory write
(93_implementation_defined.md: "`stuck` for every write"; log entry 8). -/
def transact (s : State) (t : Transaction) : Result :=
  if s.halted && t.isWrite then .fault .writeWhileHalted else serve s t

/-- The block serves the host's next transaction; with none it waits (70_reset_and_hazards.md R189). -/
def serveNext (s : State) : Result :=
  match s.pending with
  | [] => .next s
  | t :: ts => transact { s with pending := ts } t

/-- A command word placed as the host's next transaction (log entry 7). -/
def placeWord (s : State) (word : Word) : State := { s with pending := .wrCmd word :: s.pending }

end Sys2Proof.Machine
end

