-- ==== Sys2Proof/Machine/Step.lean ====
section
/-! DEFINITION. One step: the host's next transaction (10_state.md R22: there is no program counter). -/

namespace Sys2Proof.Machine

/-- One step of the machine: the next transaction of the host's list. -/
def step (s : State) : Host.Outcome State Fault Refusal := serveNext s

/-- The command word of the low `nbits` bits of `w`, placed where the next step takes its transaction from (log entry 7). -/
def State.withFetchWord (s : State) (nbits w : Nat) : State := placeWord s (tableWord nbits w)

end Sys2Proof.Machine
end

