-- ==== Sys2Proof/Safety.lean ====
section
/-! DEFINITION. What statements about this machine are stated in: the conditions under which a heap command runs, the heap as a list of
chunks, what each heap command does to that list, and the invariant of the machine. -/

namespace Sys2Proof.Machine

/-- The conditions on a state under which a heap command runs (40_heap.md R100), `cs` being the chunk list: the parameters are
well-formed, the arena exists, the host has written no live header, HeapWF holds and the arena is backed. -/
abbrev State.HeapReady (s : State) (cs : List Nat) : Prop :=
  s.cfg.wellFormed = true ∧ s.initialised = true ∧ s.headerOverwritten = false ∧
    s.heapChunks = some cs ∧ backed s.cfg s.cfg.arenaBase (s.arenaSize.getD 0) = true

/-- The same state with every register marked as written since reset. -/
def State.allWritten (s : State) : State :=
  { s with
    a0 := ⟨s.a0.value, true⟩
    a1 := ⟨s.a1.value, true⟩
    a2 := ⟨s.a2.value, true⟩
    a3 := ⟨s.a3.value, true⟩
    w0 := ⟨s.w0.value, true⟩
    w1 := ⟨s.w1.value, true⟩ }

/-- ALLOC, FREE and REALLOC: the commands that work on the heap (40_heap.md R100). -/
def heapCommands : List Instr := [.alloc, .free, .realloc]

/-- "Requested size fits free chunk `c`": what FirstFit looks for (40_heap.md R102). -/
abbrev chunkFits (m : Memory) (size c : Nat) : Prop := hdrAllocated m c = 0 ∧ round8 size ≤ hdrLength m c

/-- A byte address lies in a live header of the list. -/
abbrev inHeader (cfg : Config) (cs : List Nat) (a : Nat) : Prop := ∃ c ∈ cs, c ≤ a ∧ a < c + cfg.hdr

/-- A byte address is one of `start .. start+n-1`. -/
abbrev inRange (start n a : Nat) : Prop := start ≤ a ∧ a < start + n

/-- A chunk as the source describes it: where its header is, its payload length, whether it is allocated (10_state.md R30). -/
structure Chunk where
  addr : Nat
  len : Nat
  allocated : Bool
  deriving DecidableEq, Repr

/-- The chunk whose header is at `c`. -/
def chunkAt (m : Memory) (c : Nat) : Chunk := ⟨c, hdrLength m c, hdrAllocated m c != 0⟩

/-- The heap as a list of chunks in address order, `none` unless HeapWF holds. -/
def State.heapView (s : State) : Option (List Chunk) := s.heapChunks.map fun cs => cs.map (chunkAt s.mem)

/-- A granted chunk, and the free tail where the remainder is at least a minimal chunk (40_heap.md R104). -/
def grantChunk (hdr rs : Nat) (k : Chunk) : List Chunk :=
  if 8 + hdr ≤ k.len - rs then [⟨k.addr, rs, true⟩, ⟨k.addr + hdr + rs, k.len - rs - hdr, false⟩]
  else [⟨k.addr, k.len, true⟩]

/-- First-fit allocation of `rs` bytes on a list of chunks: the new list and the header granted (40_heap.md R102, R104, R105). -/
def allocList (hdr rs : Nat) : List Chunk → Option (List Chunk × Nat)
  | [] => none
  | k :: ks =>
    if k.allocated = false ∧ rs ≤ k.len then some (grantChunk hdr rs k ++ ks, k.addr)
    else
      match allocList hdr rs ks with
      | none => none
      | some (ks', c) => some (k :: ks', c)

/-- Marks the chunk at `c` free. -/
def markFree (c : Nat) (ks : List Chunk) : List Chunk := ks.map fun k => if k.addr = c then { k with allocated := false } else k

/-- Merges every run of free neighbours into its first chunk. -/
def coalesce (hdr : Nat) : List Chunk → List Chunk
  | [] => []
  | k :: ks =>
    match coalesce hdr ks with
    | [] => [k]
    | n :: rest =>
      if k.allocated = false ∧ n.allocated = false then ⟨k.addr, k.len + hdr + n.len, false⟩ :: rest
      else k :: n :: rest

/-- Freeing the chunk at `c` on a list of chunks (40_heap.md R107, R108). -/
def freeList (hdr c : Nat) (ks : List Chunk) : List Chunk := coalesce hdr (markFree c ks)

/-- The chunk after the list's chunk `k` does not let REALLOC work in place: there is none, it is allocated, or it is too small
(40_heap.md R110). -/
abbrev mustCopy (hdr newSize : Nat) (k : Chunk) (post : List Chunk) : Prop :=
  ∀ n ∈ post.head?, n.allocated = true ∨ k.len + hdr + n.len < newSize

/-- What the host may rely on after bytes are stored at `start .. start+n-1` on its behalf: nothing else is different, but for the note
that a live header was written, which is made exactly when one was (20_memory.md R62 duty 1; log entry 9). -/
def State.StoredAt (s t : State) (start n : Nat) : Prop :=
  (∀ x, ¬inRange start n x → t.mem.read x = s.mem.read x) ∧
  (t.headerOverwritten = true ↔
    s.headerOverwritten = true ∨ ∃ c ∈ s.liveChunks, ∃ x, inRange c s.cfg.hdr x ∧ inRange start n x) ∧
  t = { s with mem := t.mem, headerOverwritten := t.headerOverwritten }

/-- What halt entry leaves (60_exceptions.md R161): STATUS.HALT and CAUSE are set, the output follows, and every register, every memory
byte and STATUS.INIT are as before. -/
def State.HaltedFrom (s t : State) : Prop :=
  t.halted = true ∧ t.haltOutput = true ∧ statusCause t.status = 1#8 ∧ t.initialised = s.initialised ∧
  statusReserved t.status = statusReserved s.status ∧ t = { s with status := t.status }

/-- The bytes a converter reads, as start and count (43_endian.md R151 to R154); `(0, 0)` for the other commands. -/
def converterReads (s : State) : Instr → Nat × Nat
  | .be32tolen => (s.opA .a0 + 32 - s.opA .a2, s.opA .a2)
  | .bentolen => (s.opA .a0, s.opA .a2)
  | .lentobe32 => (s.opA .a0, s.opA .a2)
  | .lentoben => (s.opA .a0, s.opA .a2)
  | .init => (0, 0)
  | .alloc => (0, 0)
  | .free => (0, 0)
  | .realloc => (0, 0)
  | .mul => (0, 0)
  | .shl => (0, 0)
  | .shr => (0, 0)

/-- The bytes a converter writes, as start and count (43_endian.md R151 to R154). -/
def converterWrites (s : State) : Instr → Nat × Nat
  | .be32tolen => (s.opA .a1, s.opA .a2)
  | .bentolen => (s.opA .a1, s.opA .a2)
  | .lentobe32 => if s.cfg.be32Fill then (s.opA .a1, 32) else (s.opA .a1 + 32 - s.opA .a2, s.opA .a2)
  | .lentoben => (s.opA .a1, s.opA .a2)
  | .init => (0, 0)
  | .alloc => (0, 0)
  | .free => (0, 0)
  | .realloc => (0, 0)
  | .mul => (0, 0)
  | .shl => (0, 0)
  | .shr => (0, 0)

/-- The four converters (43_endian.md). -/
def converters : List Instr := [.be32tolen, .bentolen, .lentobe32, .lentoben]

/-- The 128-bit value `(w1, w0)` (10_state.md R21). -/
def State.wide (s : State) : Nat := s.w1.value.toNat * 2 ^ 64 + s.w0.value.toNat

/-- STATUS as 10_state.md R24 allows it: reserved bits 0; CAUSE is OOM when the block has halted and 0 when it has not. -/
abbrev State.StatusLegal (s : State) : Prop :=
  statusReserved s.status = 0#32 ∧ statusCause s.status = (if s.halted then causeOOM else 0#8)

/-- Every byte anything has written is a byte that exists (20_memory.md R51). -/
abbrev State.MemInRange (s : State) : Prop := ∀ c ∈ s.mem, c.1 < s.cfg.memLimit

/-- The arena exists exactly when STATUS.INIT = 1, its size is a multiple of 8 with room for one header, and it is backed
(10_state.md R33, R45; 40_heap.md R101). -/
abbrev State.ArenaLegal (s : State) : Prop :=
  s.initialised = s.arenaSize.isSome ∧
    ∀ size ∈ s.arenaSize, size % 8 = 0 ∧ s.cfg.hdr ≤ size ∧ backed s.cfg s.cfg.arenaBase size = true

/-- "HeapWF holds after INIT completes and is preserved ... provided the host keeps its duties" (10_state.md R35). -/
abbrev State.HeapIntact (s : State) : Prop := s.initialised = true → s.headerOverwritten = false → s.heapWF = true

/-- The invariant of the machine. -/
structure State.Inv (s : State) : Prop where
  cfg_wellFormed : s.cfg.wellFormed = true
  mem_canonical : s.mem.wf
  mem_inRange : s.MemInRange
  status_legal : s.StatusLegal
  halted_initialised : s.halted = true → s.initialised = true
  arena_legal : s.ArenaLegal
  heap_intact : s.HeapIntact

end Sys2Proof.Machine
end

