-- ==== Sys2Proof/Certificates/Slice0/Obligations.lean ====
section
/-! DEFINITION. The statements for the provers, from the numbered rules of spec/. OBLIGATIONS.json lists them. -/

open Sys2Proof Sys2Proof.Machine

/-! ## Encoding and the command port -/

/-- The eleven words of 30_encoding.md R84, written out, decode to their commands. -/
def Obligations.DecodesTheElevenCommandWords : Prop :=
  decode 0x00000001#32 = .ok .init ∧ decode 0x00000002#32 = .ok .alloc ∧ decode 0x00000003#32 = .ok .free ∧
  decode 0x00000004#32 = .ok .realloc ∧ decode 0x00000010#32 = .ok .mul ∧ decode 0x00000020#32 = .ok .shl ∧
  decode 0x00000021#32 = .ok .shr ∧ decode 0x00000030#32 = .ok .be32tolen ∧ decode 0x00000031#32 = .ok .bentolen ∧
  decode 0x00000032#32 = .ok .lentobe32 ∧ decode 0x00000033#32 = .ok .lentoben

/-- Decode and encode agree on every word and every command (30_encoding.md R84, R86): a word decodes to a command exactly when it is
that command's encoding. -/
def Obligations.DecodeAcceptsExactlyTheEncodings : Prop :=
  ∀ (w : Word) (i : Instr), decode w = .ok i ↔ w = encode i

/-- Every word but the eleven is refused by name when it is issued (30_encoding.md R87). -/
def Obligations.ReservedWordsAreRefused : Prop :=
  ∀ (s : State) (w : Word) (ts : List Transaction), s.pending = .wrCmd w :: ts → s.halted = false → (∀ i, w ≠ encode i) →
    step s = .refused (if w.toNat < 256 then .reservedOpcode (w.setWidth 8) else .reservedWord w)

/-- A WR transaction is its (register number, value) pair and back (30_encoding.md R81, R90), and each of the eight numbers names one
port register. -/
def Obligations.PortWritesRoundTripThroughTheirPair : Prop :=
  (∀ t n v, encodeWrite t = some (n, v) → decodeWrite n v = t) ∧
  (∀ n, portNumber (portRegister n) = n) ∧ (∀ r, portRegister (portNumber r) = r)

/-- A step runs the command the next transaction issues, with that transaction taken off the list, and records whether an operand register
of it (30_encoding.md R85) has not been written since reset; nothing else is done around the command. The record is log entry 2's. -/
def Obligations.StepRunsTheIssuedCommand : Prop :=
  ∀ (s : State) (w : Word) (i : Instr) (ts : List Transaction), s.pending = .wrCmd w :: ts → s.halted = false → decode w = .ok i →
    step s = exec i { s with
      pending := ts
      unwrittenRegisterViolation := s.unwrittenRegisterViolation || (operandRegs i).any fun r => !s.written r }

/-- Transactions are served one a step in the order of issue (20_memory.md R58), the parameters never change, a recorded violation is
never cleared (60_exceptions.md R165; log entry 2), and with none pending the block waits (70_reset_and_hazards.md R189). -/
def Obligations.EveryStepConsumesOneTransaction : Prop :=
  (∀ s t : State, step s = .next t → t.pending = s.pending.tail ∧ t.cfg = s.cfg ∧
    (s.unwrittenRegisterViolation = true → t.unwrittenRegisterViolation = true)) ∧
  (∀ s : State, s.pending = [] → step s = .next s)

/-- WR of an operand register writes it and nothing else; WR of STATUS is ignored (30_encoding.md R81). -/
def Obligations.PortWritesSetOnlyTheirRegister : Prop :=
  ∀ (s : State) (ts : List Transaction), s.halted = false →
    (∀ r v, s.pending = .wrA r v :: ts → ∃ t, step s = .next t ∧ t.getA r = ⟨v, true⟩ ∧ (∀ q, q ≠ r → t.getA q = s.getA q) ∧
      t = { s with pending := ts, a0 := t.a0, a1 := t.a1, a2 := t.a2, a3 := t.a3 }) ∧
    (∀ r v, s.pending = .wrW r v :: ts → ∃ t, step s = .next t ∧ t.getW r = ⟨v, true⟩ ∧ (∀ q, q ≠ r → t.getW q = s.getW q) ∧
      t = { s with pending := ts, w0 := t.w0, w1 := t.w1 }) ∧
    (∀ v, s.pending = .wrStatus v :: ts → step s = .next { s with pending := ts })

/-- RD of a register that has been written since reset returns it, CMD reading as 0, and changes nothing, halted or not (30_encoding.md
R80, R81); STATUS and CMD always read so. -/
def Obligations.PortReadsReturnTheRegister : Prop :=
  ∀ (s : State) (r : PortReg) (ts : List Transaction), s.pending = .rd r :: ts → s.written r = true →
    step s = .next { s with
      pending := ts
      responses := (match r with
        | .a q => .word (s.getA q).value
        | .w q => .dword (s.getW q).value
        | .status => .word s.status
        | .cmd => .word 0#32) :: s.responses }

/-- RD of a register that nothing has written since reset returns the free value of log entry 3, whatever it is, and changes nothing but
the counter of draws (10_state.md R23). The counter is the model's own. -/
def Obligations.ReadOfAnUnwrittenRegisterIsADraw : Prop :=
  ∀ (s : State) (ts : List Transaction),
    (∀ r, s.pending = .rd (.a r) :: ts → (s.getA r).written = false → ∃ v : Word,
      step s = .next { s with pending := ts, responses := .word v :: s.responses, draws := s.draws + 1 }) ∧
    (∀ r, s.pending = .rd (.w r) :: ts → (s.getW r).written = false → ∃ v : DWord,
      step s = .next { s with pending := ts, responses := .dword v :: s.responses, draws := s.draws + 1 })

/-- Whether a register has been written since reset changes nothing of what a command does: it completes, or stops with the same fault, as
it would with every register written, and leaves the same state but for those marks. That a command runs on a register nothing has written
is the model's choice (log entry 2). -/
def Obligations.CommandsRunOnUnwrittenRegisters : Prop :=
  ∀ (s : State) (i : Instr),
    (∀ t, exec i s = .next t → exec i s.allWritten = .next t.allWritten) ∧
    (∀ u, exec i s.allWritten = .next u → ∃ t, exec i s = .next t ∧ u = t.allWritten) ∧
    (∀ f, exec i s = .fault f ↔ exec i s.allWritten = .fault f)

/-- While halted the block accepts no write and every read, and nothing but reset ends it (60_exceptions.md R162). That a host memory
write is among the writes is 93_implementation_defined.md's "every write" (log entry 8). -/
def Obligations.HaltedBlockAcceptsOnlyReads : Prop :=
  ∀ s : State, s.halted = true →
    (∀ ts r v, s.pending = .wrA r v :: ts → step s = .fault .writeWhileHalted) ∧
    (∀ ts r v, s.pending = .wrW r v :: ts → step s = .fault .writeWhileHalted) ∧
    (∀ ts v, s.pending = .wrStatus v :: ts → step s = .fault .writeWhileHalted) ∧
    (∀ ts w, s.pending = .wrCmd w :: ts → step s = .fault .writeWhileHalted) ∧
    (∀ ts a bs, s.pending = .memWrite a bs :: ts → step s = .fault .writeWhileHalted) ∧
    (∀ ts r, s.pending = .rd r :: ts → ∃ t, step s = .next t) ∧
    (∀ ts a n, s.pending = .memRead a n :: ts → backed s.cfg a.toNat n = true → ∃ t, step s = .next t) ∧
    (∀ t, step s = .next t → s.pending.head? ≠ some .reset → t.halted = true ∧ t.status = s.status)

/-- Reset, from any state, halted or not (70_reset_and_hazards.md R180): STATUS and the output are 0, the registers are without value
(none has been written), the arena no longer exists and memory is not touched. That the host's remaining transactions, the responses and
the counter of draws stay is the model's (log entry 17), as is that a recorded violation stays (log entry 2) and what becomes of the
note `headerOverwritten` (log entry 9). -/
def Obligations.ResetClearsAllButMemory : Prop :=
  ∀ (s : State) (ts : List Transaction), s.pending = .reset :: ts → ∃ t, step s = .next t ∧
    t.status = 0#32 ∧ t.haltOutput = false ∧ (∀ r, (t.getA r).written = false) ∧ (∀ r, (t.getW r).written = false) ∧
    t.arenaSize = none ∧ t.headerOverwritten = false ∧ t.mem = s.mem ∧ t.cfg = s.cfg ∧ t.pending = ts ∧
    t.responses = s.responses ∧ t.draws = s.draws ∧ t.unwrittenRegisterViolation = s.unwrittenRegisterViolation

/-- The state after reset (10_state.md R45), with the spec's default parameters (00_scope.md R8). The values the registers hold, and
`MEM_LIMIT`, are the model's choice (log entries 1 and 5) and are not stated. -/
def Obligations.ResetStateIsAsTheSpecSays : Prop :=
  State.reset.status = 0#32 ∧ State.reset.haltOutput = false ∧ (∀ r, (State.reset.getA r).written = false) ∧
  (∀ r, (State.reset.getW r).written = false) ∧ State.reset.mem = [] ∧ State.reset.arenaSize = none ∧
  State.reset.chunkList = none ∧ State.reset.cfg.wellFormed = true ∧ State.reset.cfg.hdr = 16 ∧
  State.reset.cfg.arenaBase = 16 ∧ State.reset.cfg.be32Fill = false

/-- The host writes memory bytes between commands (20_memory.md R62): they are stored, nothing else changes, and a live header written to
is noted. -/
def Obligations.HostWriteStoresItsBytes : Prop :=
  ∀ (s : State) (a : Word) (bs : List Byte) (ts : List Transaction), s.halted = false → s.pending = .memWrite a bs :: ts →
    backed s.cfg a.toNat bs.length = true → ∃ t, step s = .next t ∧
      (∀ k (h : k < bs.length), t.mem.read (a.toNat + k) = bs[k]) ∧ ({ s with pending := ts } : State).StoredAt t a.toNat bs.length

/-- The host reads memory bytes between commands (20_memory.md R62), halted or not: the bytes come back in address order and nothing
else changes. -/
def Obligations.HostReadReturnsTheBytes : Prop :=
  ∀ (s : State) (a : Word) (n : Nat) (ts : List Transaction), s.pending = .memRead a n :: ts → backed s.cfg a.toNat n = true →
    ∃ bs : List Byte, bs.length = n ∧ (∀ k (h : k < bs.length), bs[k] = s.mem.read (a.toNat + k)) ∧
      step s = .next { s with pending := ts, responses := .bytes bs :: s.responses }

/-- A host access with at least one byte, not all of them backed, stops as a whole, and one of no bytes completes wherever it points and
stores nothing: both are the model's choice (20_memory.md R51, R62; log entry 11). That backed bytes are read and stored is
`HostReadReturnsTheBytes` and `HostWriteStoresItsBytes`. -/
def Obligations.HostAccessWithAnUnbackedByteStopsAndOfNoBytesCompletes : Prop :=
  ∀ (s : State) (a : Word) (ts : List Transaction),
    (∀ n, s.pending = .memRead a n :: ts → 1 ≤ n → backed s.cfg a.toNat n = false → step s = .fault .hostUnbackedAccess) ∧
    (∀ bs, s.pending = .memWrite a bs :: ts → s.halted = false → 1 ≤ bs.length → backed s.cfg a.toNat bs.length = false →
      step s = .fault .hostUnbackedAccess) ∧
    (s.pending = .memRead a 0 :: ts → step s = .next { s with pending := ts, responses := .bytes [] :: s.responses }) ∧
    (s.pending = .memWrite a [] :: ts → s.halted = false → step s = .next { s with pending := ts })

/-! ## WideShift -/

/-- SHL completes for every amount in 0..127 and multiplies the 128-bit value by `2^r` modulo `2^128`; it writes `w0` and `w1` alone
(42_wideshift.md R141). -/
def Obligations.ShlMultipliesByAPowerOfTwo : Prop :=
  ∀ s : State, s.opA .a0 ≤ 127 → ∃ t, exec .shl s = .next t ∧
    t.wide = s.wide * 2 ^ s.opA .a0 % 2 ^ 128 ∧ t = { s with w0 := ⟨t.w0.value, true⟩, w1 := ⟨t.w1.value, true⟩ }

/-- SHR completes for every amount in 0..127 and divides the 128-bit value by `2^r`, rounding down; it writes `w0` and `w1` alone
(42_wideshift.md R142). -/
def Obligations.ShrDividesByAPowerOfTwo : Prop :=
  ∀ s : State, s.opA .a0 ≤ 127 → ∃ t, exec .shr s = .next t ∧
    t.wide = s.wide / 2 ^ s.opA .a0 ∧ t = { s with w0 := ⟨t.w0.value, true⟩, w1 := ⟨t.w1.value, true⟩ }

/-- A shift amount of 128 or more is violation(BadShiftAmount) for both shifts (42_wideshift.md R140). -/
def Obligations.ShiftAmountOver127IsAViolation : Prop :=
  ∀ s : State, 128 ≤ s.opA .a0 → exec .shl s = .fault .badShiftAmount ∧ exec .shr s = .fault .badShiftAmount

/-- Shifting right and back clears the low `r` bits, left and back the high `r` bits (42_wideshift.md R144). -/
def Obligations.ShiftingThereAndBackClearsBits : Prop :=
  ∀ s t u : State,
    (exec .shr s = .next t → exec .shl t = .next u → u.wide = s.wide - s.wide % 2 ^ s.opA .a0) ∧
    (exec .shl s = .next t → exec .shr t = .next u → u.wide = s.wide % 2 ^ (128 - s.opA .a0))

/-! ## WideMultiply -/

/-- MUL completes under the preconditions of 41_widemul.md R131: the `4N` bytes at `a2` hold the product of the two integers modulo
`2^(32N)`, and nothing else is written. -/
def Obligations.MulStoresTheTruncatedProduct : Prop :=
  ∀ s : State, 1 ≤ s.opA .a3 → backed s.cfg (s.opA .a0) (4 * s.opA .a3) = true →
    backed s.cfg (s.opA .a1) (4 * s.opA .a3) = true → backed s.cfg (s.opA .a2) (4 * s.opA .a3) = true →
    (∀ x, inRange (s.opA .a2) (4 * s.opA .a3) x →
      ¬inRange (s.opA .a0) (4 * s.opA .a3) x ∧ ¬inRange (s.opA .a1) (4 * s.opA .a3) x) →
    ∃ t, exec .mul s = .next t ∧
      memRead t.mem (s.opA .a2) (4 * s.opA .a3) =
        memRead s.mem (s.opA .a0) (4 * s.opA .a3) * memRead s.mem (s.opA .a1) (4 * s.opA .a3) % 2 ^ (32 * s.opA .a3) ∧
      s.StoredAt t (s.opA .a2) (4 * s.opA .a3)

/-- The violations of MUL (41_widemul.md R131), each where the preconditions before it hold. -/
def Obligations.MulPreconditionsAreViolations : Prop :=
  ∀ s : State,
    (s.opA .a3 = 0 → exec .mul s = .fault .badLimbCount) ∧
    (1 ≤ s.opA .a3 → ((∃ r ∈ [AReg.a0, .a1, .a2], s.cfg.memLimit < s.opA r + 4 * s.opA .a3 ∨
        4294967296 < s.opA r + 4 * s.opA .a3) → exec .mul s = .fault .unbackedAccess) ∧
      ((∀ r ∈ [AReg.a0, .a1, .a2], backed s.cfg (s.opA r) (4 * s.opA .a3) = true) →
        (∃ x, inRange (s.opA .a2) (4 * s.opA .a3) x ∧
          (inRange (s.opA .a0) (4 * s.opA .a3) x ∨ inRange (s.opA .a1) (4 * s.opA .a3) x)) →
        exec .mul s = .fault .overlappingBuffers))

/-- The datapath of 41_widemul.md R132, with its 64-bit accumulator, side carry and trimmed operands, computes the truncated product of
R131, for every limb count whose buffers fit the address space. -/
def Obligations.MulDatapathComputesTheTruncatedProduct : Prop :=
  ∀ (n : Nat) (left right : List Nat), n ≤ 2 ^ 30 → left.length = n → right.length = n →
    (∀ l ∈ left, l < 2 ^ 32) → (∀ l ∈ right, l < 2 ^ 32) → mulDatapath n left right = mulLimbs n left right

/-- A LimbArray, as bytes, is the integer it represents in little-endian order (10_state.md R38). -/
def Obligations.LimbArrayIsALittleEndianInteger : Prop :=
  ∀ (m : Memory) (a n : Nat), (readLimbs m a n).length = n ∧ limbsValue (readLimbs m a n) = memRead m a (4 * n) ∧
    (∀ i (h : i < (readLimbs m a n).length), (readLimbs m a n)[i] = memRead m (a + 4 * i) 4)

/-! ## EndianConverter -/

/-- BE32TOLEN (43_endian.md R151). -/
def Obligations.Be32tolenReversesTheLowOrderBytes : Prop :=
  ∀ s : State, 1 ≤ s.opA .a2 → s.opA .a2 ≤ 32 →
    backed s.cfg (s.opA .a0 + 32 - s.opA .a2) (s.opA .a2) = true → backed s.cfg (s.opA .a1) (s.opA .a2) = true →
    (∀ x, inRange (s.opA .a0 + 32 - s.opA .a2) (s.opA .a2) x → ¬inRange (s.opA .a1) (s.opA .a2) x) →
    ∃ t, exec .be32tolen s = .next t ∧
      (∀ i < s.opA .a2, t.mem.read (s.opA .a1 + i) = s.mem.read (s.opA .a0 + 31 - i)) ∧ s.StoredAt t (s.opA .a1) (s.opA .a2)

/-- BENTOLEN (43_endian.md R152). -/
def Obligations.BentolenReversesTheBytes : Prop :=
  ∀ s : State, 1 ≤ s.opA .a2 → s.opA .a2 ≤ 32 → backed s.cfg (s.opA .a0) (s.opA .a2) = true →
    backed s.cfg (s.opA .a1) (s.opA .a2) = true → (∀ x, inRange (s.opA .a0) (s.opA .a2) x → ¬inRange (s.opA .a1) (s.opA .a2) x) →
    ∃ t, exec .bentolen s = .next t ∧
      (∀ i < s.opA .a2, t.mem.read (s.opA .a1 + i) = s.mem.read (s.opA .a0 + s.opA .a2 - 1 - i)) ∧
      s.StoredAt t (s.opA .a1) (s.opA .a2)

/-- LENTOBE32 with `BE32_FILL = false` (43_endian.md R153): the other bytes of the 32-byte buffer are left as they were. -/
def Obligations.Lentobe32PlacesTheLowOrderBytes : Prop :=
  ∀ s : State, s.cfg.be32Fill = false → 1 ≤ s.opA .a2 → s.opA .a2 ≤ 32 →
    backed s.cfg (s.opA .a0) (s.opA .a2) = true → backed s.cfg (s.opA .a1 + 32 - s.opA .a2) (s.opA .a2) = true →
    (∀ x, inRange (s.opA .a0) (s.opA .a2) x → ¬inRange (s.opA .a1 + 32 - s.opA .a2) (s.opA .a2) x) →
    ∃ t, exec .lentobe32 s = .next t ∧
      (∀ i < s.opA .a2, t.mem.read (s.opA .a1 + 31 - i) = s.mem.read (s.opA .a0 + i)) ∧
      s.StoredAt t (s.opA .a1 + 32 - s.opA .a2) (s.opA .a2)

/-- LENTOBE32 with `BE32_FILL = true` (43_endian.md R153): the other bytes of the 32-byte buffer are zeroed. -/
def Obligations.Lentobe32FillsTheBufferWhereConfigured : Prop :=
  ∀ s : State, s.cfg.be32Fill = true → 1 ≤ s.opA .a2 → s.opA .a2 ≤ 32 →
    backed s.cfg (s.opA .a0) (s.opA .a2) = true → backed s.cfg (s.opA .a1) 32 = true →
    (∀ x, inRange (s.opA .a0) (s.opA .a2) x → ¬inRange (s.opA .a1) 32 x) →
    ∃ t, exec .lentobe32 s = .next t ∧
      (∀ i < s.opA .a2, t.mem.read (s.opA .a1 + 31 - i) = s.mem.read (s.opA .a0 + i)) ∧
      (∀ k < 32 - s.opA .a2, t.mem.read (s.opA .a1 + k) = 0x00#8) ∧ s.StoredAt t (s.opA .a1) 32

/-- LENTOBEN (43_endian.md R154). -/
def Obligations.LentobenReversesTheBytes : Prop :=
  ∀ s : State, 1 ≤ s.opA .a2 → s.opA .a2 ≤ 32 → backed s.cfg (s.opA .a0) (s.opA .a2) = true →
    backed s.cfg (s.opA .a1) (s.opA .a2) = true → (∀ x, inRange (s.opA .a0) (s.opA .a2) x → ¬inRange (s.opA .a1) (s.opA .a2) x) →
    ∃ t, exec .lentoben s = .next t ∧
      (∀ i < s.opA .a2, t.mem.read (s.opA .a1 + s.opA .a2 - 1 - i) = s.mem.read (s.opA .a0 + i)) ∧
      s.StoredAt t (s.opA .a1) (s.opA .a2)

/-- The violations of the four converters (43_endian.md R150), each where the preconditions before it hold. -/
def Obligations.ConverterPreconditionsAreViolations : Prop :=
  ∀ (s : State) (i : Instr), i ∈ converters →
    (s.opA .a2 = 0 ∨ 32 < s.opA .a2 → exec i s = .fault .badLength) ∧
    (1 ≤ s.opA .a2 → s.opA .a2 ≤ 32 →
      ((backed s.cfg (converterReads s i).1 (converterReads s i).2 = false ∨
          backed s.cfg (converterWrites s i).1 (converterWrites s i).2 = false) → exec i s = .fault .unbackedAccess) ∧
      (backed s.cfg (converterReads s i).1 (converterReads s i).2 = true →
        backed s.cfg (converterWrites s i).1 (converterWrites s i).2 = true →
        (∃ x, inRange (converterReads s i).1 (converterReads s i).2 x ∧ inRange (converterWrites s i).1 (converterWrites s i).2 x) →
        exec i s = .fault .overlappingBuffers))

/-- Converting from big-endian and back, or from little-endian and back, reproduces the bytes, wherever the last output is put
(43_endian.md R155). -/
def Obligations.FullReversalsRoundTrip : Prop :=
  ∀ (s t u : State) (d : Word),
    (exec .bentolen s = .next t → exec .lentoben ((t.setA .a0 t.a1.value).setA .a1 d) = .next u →
      ∀ k < s.opA .a2, u.mem.read (d.toNat + k) = s.mem.read (s.opA .a0 + k)) ∧
    (exec .lentoben s = .next t → exec .bentolen ((t.setA .a0 t.a1.value).setA .a1 d) = .next u →
      ∀ k < s.opA .a2, u.mem.read (d.toNat + k) = s.mem.read (s.opA .a0 + k))

/-- To a 32-byte buffer and back reproduces the bytes whatever `BE32_FILL` is, and from one and back its low-order bytes
(43_endian.md R155). -/
def Obligations.Be32BuffersRoundTrip : Prop :=
  ∀ (s t u : State) (d : Word),
    (exec .lentobe32 s = .next t → exec .be32tolen ((t.setA .a0 t.a1.value).setA .a1 d) = .next u →
      ∀ k < s.opA .a2, u.mem.read (d.toNat + k) = s.mem.read (s.opA .a0 + k)) ∧
    (exec .be32tolen s = .next t → exec .lentobe32 ((t.setA .a0 t.a1.value).setA .a1 d) = .next u →
      ∀ k < s.opA .a2, u.mem.read (d.toNat + 31 - k) = s.mem.read (s.opA .a0 + 31 - k))

/-! ## Heap Manager -/

/-- INIT (40_heap.md R101): one free chunk spans the arena; exactly the 16 bytes at `ARENA_BASE` and `STATUS.INIT` are written. -/
def Obligations.InitCreatesOneFreeChunk : Prop :=
  ∀ s : State, s.cfg.wellFormed = true → s.initialised = false → s.opA .a0 % 8 = 0 →
    2 * s.cfg.hdr ≤ s.opA .a0 → s.cfg.arenaBase + s.opA .a0 - s.cfg.hdr ≤ s.cfg.memLimit →
    ∃ t, exec .init s = .next t ∧ t.initialised = true ∧ t.status = s.status ||| 1#32 ∧ t.arenaSize = some (s.opA .a0 - s.cfg.hdr) ∧
      hdrNext t.mem s.cfg.arenaBase = 0 ∧ hdrPrev t.mem s.cfg.arenaBase = 0 ∧
      hdrLength t.mem s.cfg.arenaBase = s.opA .a0 - 2 * s.cfg.hdr ∧ hdrAllocated t.mem s.cfg.arenaBase = 0 ∧
      t.heapChunks = some [s.cfg.arenaBase] ∧ (∀ x, ¬inRange s.cfg.arenaBase 16 x → t.mem.read x = s.mem.read x) ∧
      t = { s with mem := t.mem, arenaSize := t.arenaSize, status := t.status, headerOverwritten := false }

/-- The violations of INIT (40_heap.md R100, R101). -/
def Obligations.InitPreconditionsAreViolations : Prop :=
  ∀ s : State,
    (s.initialised = true → exec .init s = .fault .secondInit) ∧
    (s.initialised = false → (s.opA .a0 % 8 ≠ 0 ∨ s.opA .a0 < 2 * s.cfg.hdr ∨
      s.cfg.memLimit < s.cfg.arenaBase + s.opA .a0 - s.cfg.hdr) → exec .init s = .fault .badMemSize)

/-- ALLOC (40_heap.md R102, R104, R105): the first free chunk in list order that is long enough is granted, cut where at least a minimal
chunk remains; `a0` is its payload address; only headers are written. -/
def Obligations.AllocGrantsTheFirstFit : Prop :=
  ∀ (s : State) (pre post : List Nat) (c : Nat), s.HeapReady (pre ++ c :: post) →
    (∀ d ∈ pre, ¬chunkFits s.mem (s.opA .a0) d) → chunkFits s.mem (s.opA .a0) c →
    ∃ t, exec .alloc s = .next t ∧ t.a0 = ⟨BitVec.ofNat 32 (c + s.cfg.hdr), true⟩ ∧ t = { s with mem := t.mem, a0 := t.a0 } ∧
      hdrAllocated t.mem c = 1 ∧
      (8 + s.cfg.hdr ≤ hdrLength s.mem c - round8 (s.opA .a0) →
        t.heapChunks = some (pre ++ c :: (c + s.cfg.hdr + round8 (s.opA .a0)) :: post) ∧
        hdrLength t.mem c = round8 (s.opA .a0) ∧ hdrAllocated t.mem (c + s.cfg.hdr + round8 (s.opA .a0)) = 0 ∧
        hdrLength t.mem (c + s.cfg.hdr + round8 (s.opA .a0)) = hdrLength s.mem c - round8 (s.opA .a0) - s.cfg.hdr) ∧
      (hdrLength s.mem c - round8 (s.opA .a0) < 8 + s.cfg.hdr →
        t.heapChunks = some (pre ++ c :: post) ∧ hdrLength t.mem c = hdrLength s.mem c) ∧
      (∀ d ∈ pre ++ post, hdrLength t.mem d = hdrLength s.mem d ∧ hdrAllocated t.mem d = hdrAllocated s.mem d) ∧
      (∀ x, ¬inHeader s.cfg (t.heapChunks.getD []) x → t.mem.read x = s.mem.read x)

/-- ALLOC refines first-fit allocation on the list of chunks: where the list has room the heap becomes the list's new value and `a0` the
granted chunk's payload, and where it has none the block halts with nothing else changed (40_heap.md R105). -/
def Obligations.AllocRefinesFirstFitOnTheChunkList : Prop :=
  ∀ (s : State) (cs : List Nat) (ks : List Chunk), s.HeapReady cs → s.heapView = some ks →
    match allocList s.cfg.hdr (round8 (s.opA .a0)) ks with
    | some (ks', c) => ∃ t, exec .alloc s = .next t ∧ t.heapView = some ks' ∧
        t = { s with mem := t.mem, a0 := ⟨BitVec.ofNat 32 (c + s.cfg.hdr), true⟩ }
    | none => ∃ t, exec .alloc s = .next t ∧ s.HaltedFrom t

/-- Halt entry (60_exceptions.md R160, R161): where no chunk fits, ALLOC sets HALT and CAUSE and changes nothing else. -/
def Obligations.AllocHaltsWhenNothingFits : Prop :=
  ∀ (s : State) (cs : List Nat), s.HeapReady cs → (∀ c ∈ cs, ¬chunkFits s.mem (s.opA .a0) c) →
    ∃ t, exec .alloc s = .next t ∧ s.HaltedFrom t

/-- Rounding never wraps, so a request of more than `2^32 - 8` bytes finds no chunk and halts (40_heap.md R103, R106). -/
def Obligations.RequestNearTheTopHalts : Prop :=
  ∀ (s : State) (cs : List Nat), s.HeapReady cs → 4294967288 < s.opA .a0 →
    round8 (s.opA .a0) = 4294967296 ∧ ∃ t, exec .alloc s = .next t ∧ s.HaltedFrom t

/-- An allocated address is a multiple of 8 and not null (40_heap.md R105), for an arena that ends below the top of the address space
(log entry 13). -/
def Obligations.AllocatedAddressIsAlignedAndNotNull : Prop :=
  ∀ (s t : State) (cs : List Nat), s.HeapReady cs → s.cfg.arenaBase + s.arenaSize.getD 0 < 4294967296 → s.halted = false →
    exec .alloc s = .next t → t.halted = false → t.opA .a0 % 8 = 0 ∧ t.opA .a0 ≠ 0

/-- FREE of null does nothing (40_heap.md R108). -/
def Obligations.FreeOfNullIsANoOp : Prop :=
  ∀ (s : State) (cs : List Nat), s.HeapReady cs → s.opA .a0 = 0 → exec .free s = .next s

/-- FREE refines freeing on the list of chunks (40_heap.md R107, R108): the chunk is free and merged with every free neighbour; no
register is written, and of memory only bytes of headers that were live. -/
def Obligations.FreeRefinesCoalescingOnTheChunkList : Prop :=
  ∀ (s : State) (cs : List Nat) (ks : List Chunk) (k : Chunk), s.HeapReady cs → s.heapView = some ks → k ∈ ks →
    k.allocated = true → s.opA .a0 = k.addr + s.cfg.hdr →
    ∃ t, exec .free s = .next t ∧ t.heapView = some (freeList s.cfg.hdr k.addr ks) ∧ t = { s with mem := t.mem } ∧
      (∀ x, ¬inHeader s.cfg cs x → t.mem.read x = s.mem.read x)

/-- FREE of a pointer that is neither null nor the payload address of an allocated chunk is violation(BadFree) (40_heap.md R108). -/
def Obligations.FreeOfAnInvalidPointerIsAViolation : Prop :=
  ∀ (s : State) (cs : List Nat), s.HeapReady cs → s.opA .a0 ≠ 0 →
    (¬∃ c ∈ cs, hdrAllocated s.mem c = 1 ∧ s.opA .a0 = c + s.cfg.hdr) → exec .free s = .fault .badFree

/-- After FREE the pointer is no longer valid: a second FREE of it is violation(BadFree) (40_heap.md R109). -/
def Obligations.DoubleFreeIsAViolation : Prop :=
  ∀ (s t : State) (cs : List Nat), s.HeapReady cs → s.opA .a0 ≠ 0 → exec .free s = .next t →
    exec .free t = .fault .badFree

/-- ALLOC, FREE and REALLOC before INIT are violation(HeapNotInitialised), FREE of null included (40_heap.md R100). -/
def Obligations.HeapCommandsBeforeInitAreViolations : Prop :=
  ∀ (s : State) (i : Instr), i ∈ heapCommands → s.initialised = false →
    exec i s = .fault .heapNotInitialised

/-- With a live header overwritten by the host, or HeapWF false, every heap command is violation(CorruptHeap) (20_memory.md R62 duty 1,
40_heap.md R100), whatever its operands are. -/
def Obligations.CorruptHeapIsAViolation : Prop :=
  ∀ (s : State) (i : Instr), i ∈ heapCommands → s.initialised = true →
    (s.headerOverwritten = true ∨ s.heapWF = false) → exec i s = .fault .corruptHeap

/-- "From then on" (20_memory.md R62 duty 1): once a live header has been overwritten, no step but reset forgives it. -/
def Obligations.OverwrittenHeaderIsNeverForgiven : Prop :=
  ∀ s t : State, step s = .next t → s.initialised = true → s.headerOverwritten = true → s.pending.head? ≠ some .reset →
    t.initialised = true ∧ t.headerOverwritten = true

/-- REALLOC in place (40_heap.md R110, R111): with a free next chunk that is large enough, the two are merged and cut at the rounded size;
no register is written, and of memory only bytes of headers that are live afterwards. -/
def Obligations.ReallocInPlaceMergesAndSplits : Prop :=
  ∀ (s : State) (cs : List Nat) (pre post : List Chunk) (k n : Chunk), s.HeapReady cs →
    s.heapView = some (pre ++ k :: n :: post) → k.allocated = true → n.allocated = false → s.opA .a0 = k.addr + s.cfg.hdr →
    s.opA .a1 ≤ k.len + s.cfg.hdr + n.len →
    ∃ t, exec .realloc s = .next t ∧
      t.heapView = some (pre ++ grantChunk s.cfg.hdr (round8 (s.opA .a1)) ⟨k.addr, k.len + s.cfg.hdr + n.len, true⟩ ++ post) ∧
      t = { s with mem := t.mem } ∧ (∀ x, ¬inHeader s.cfg (t.heapChunks.getD []) x → t.mem.read x = s.mem.read x)

/-- REALLOC by copy (40_heap.md R112): allocate on the list of chunks, copy the lesser of the two sizes, free the old chunk; `a0` is the new
pointer; of memory only the copied bytes and bytes of headers are written. -/
def Obligations.ReallocByCopyAllocatesCopiesAndFrees : Prop :=
  ∀ (s : State) (cs : List Nat) (pre post ks' : List Chunk) (k : Chunk) (d : Nat), s.HeapReady cs →
    s.heapView = some (pre ++ k :: post) → k.allocated = true → s.opA .a0 = k.addr + s.cfg.hdr →
    mustCopy s.cfg.hdr (s.opA .a1) k post →
    allocList s.cfg.hdr (round8 (s.opA .a1)) (pre ++ k :: post) = some (ks', d) → min k.len (s.opA .a1) % 8 = 0 →
    ∃ t, exec .realloc s = .next t ∧ t.heapView = some (freeList s.cfg.hdr k.addr ks') ∧
      t = { s with mem := t.mem, a0 := ⟨BitVec.ofNat 32 (d + s.cfg.hdr), true⟩ } ∧
      (∀ j < min k.len (s.opA .a1), t.mem.read (d + s.cfg.hdr + j) = s.mem.read (k.addr + s.cfg.hdr + j)) ∧
      (∀ x, ¬inHeader s.cfg (ks'.map Chunk.addr) x → ¬inRange (d + s.cfg.hdr) (min k.len (s.opA .a1)) x →
        t.mem.read x = s.mem.read x)

/-- REALLOC's copy path where nothing fits halts with nothing else changed, whatever the copy size would have been
(40_heap.md R112, 60_exceptions.md R164). -/
def Obligations.ReallocHaltsWhenNothingFits : Prop :=
  ∀ (s : State) (cs : List Nat) (pre post : List Chunk) (k : Chunk), s.HeapReady cs →
    s.heapView = some (pre ++ k :: post) → k.allocated = true → s.opA .a0 = k.addr + s.cfg.hdr →
    mustCopy s.cfg.hdr (s.opA .a1) k post → allocList s.cfg.hdr (round8 (s.opA .a1)) (pre ++ k :: post) = none →
    ∃ t, exec .realloc s = .next t ∧ s.HaltedFrom t

/-- REALLOC's copy path with room and a byte count that is no multiple of 8 is violation(CopyGranularity) (40_heap.md R112). -/
def Obligations.ReallocCopyOfOddSizeIsAViolation : Prop :=
  ∀ (s : State) (cs : List Nat) (pre post ks' : List Chunk) (k : Chunk) (d : Nat), s.HeapReady cs →
    s.heapView = some (pre ++ k :: post) → k.allocated = true → s.opA .a0 = k.addr + s.cfg.hdr →
    mustCopy s.cfg.hdr (s.opA .a1) k post →
    allocList s.cfg.hdr (round8 (s.opA .a1)) (pre ++ k :: post) = some (ks', d) → min k.len (s.opA .a1) % 8 ≠ 0 →
    exec .realloc s = .fault .copyGranularity

/-- REALLOC of a pointer that is not the payload address of an allocated chunk, null included, is violation(BadRealloc)
(40_heap.md R110). -/
def Obligations.ReallocOfAnInvalidPointerIsAViolation : Prop :=
  ∀ (s : State) (cs : List Nat), s.HeapReady cs →
    (¬∃ c ∈ cs, hdrAllocated s.mem c = 1 ∧ s.opA .a0 = c + s.cfg.hdr) → exec .realloc s = .fault .badRealloc

/-- "realloc(ptr, newSize) preserves the first min(oldSize, newSize) bytes of content unchanged" (40_heap.md R113, R114), on both paths. -/
def Obligations.ReallocPreservesContents : Prop :=
  ∀ (s t : State) (cs : List Nat), s.HeapReady cs → exec .realloc s = .next t → t.halted = false →
    ∀ j < min (hdrLength s.mem (s.opA .a0 - s.cfg.hdr)) (s.opA .a1), t.mem.read (t.opA .a0 + j) = s.mem.read (s.opA .a0 + j)

/-- "allocate(size) immediately followed by free(pointer) then allocate(size) again (no intervening allocations) returns the same
address" (40_heap.md R114), for an arena that ends below the top of the address space (log entry 13). -/
def Obligations.AllocFreeAllocReturnsTheSameAddress : Prop :=
  ∀ (s t u : State) (cs : List Nat), s.HeapReady cs → s.cfg.arenaBase + s.arenaSize.getD 0 < 4294967296 → s.halted = false →
    exec .alloc s = .next t → t.halted = false → exec .free t = .next u →
    ∃ v, exec .alloc (u.setA .a0 s.a0.value) = .next v ∧ v.halted = false ∧ v.a0 = t.a0

/-- HeapWF holds after INIT completes and is preserved by every ALLOC, FREE and REALLOC that completes or halts, with the arena's size
unchanged by those three (10_state.md R35). -/
def Obligations.HeapCommandsPreserveHeapWF : Prop :=
  (∀ s t : State, s.cfg.wellFormed = true → exec .init s = .next t → t.heapWF = true) ∧
  ∀ (s t : State) (i : Instr) (cs : List Nat), i ∈ heapCommands → s.HeapReady cs → exec i s = .next t →
    t.heapWF = true ∧ t.arenaSize = s.arenaSize

/-- A well-formed heap covers the arena without gap or overlap, its payloads and headers sum to the arena size, and no two neighbours
are free (10_state.md R34, 40_heap.md R114). -/
def Obligations.WellFormedHeapAccountsForTheArena : Prop :=
  ∀ (s : State) (size : Nat) (ks : List Chunk), s.cfg.wellFormed = true → s.arenaSize = some size → s.heapView = some ks →
    (ks.map fun k => k.len + s.cfg.hdr).sum = size ∧ (ks.head?.map Chunk.addr) = some s.cfg.arenaBase ∧
    (∀ k ∈ ks, k.len % 8 = 0 ∧ k.addr % 8 = 0 ∧ k.addr + s.cfg.hdr + k.len ≤ s.cfg.arenaBase + size) ∧
    (∀ pre post k n, ks = pre ++ k :: n :: post →
      n.addr = k.addr + s.cfg.hdr + k.len ∧ ¬(k.allocated = false ∧ n.allocated = false) ∧
      hdrNext s.mem k.addr = n.addr ∧ hdrPrev s.mem n.addr = k.addr)

/-- The allocator reads only live headers (20_memory.md R62): with every other byte of memory changed at will, ALLOC grants the same
address, or halts alike. -/
def Obligations.AllocDependsOnlyOnLiveHeaders : Prop :=
  ∀ (s t : State) (m : Memory) (cs : List Nat), s.HeapReady cs →
    (∀ x, inHeader s.cfg cs x → m.read x = s.mem.read x) → exec .alloc s = .next t →
    ∃ u, exec .alloc { s with mem := m } = .next u ∧ u.a0 = t.a0 ∧ u.status = t.status ∧ u.heapView = t.heapView ∧
      (∀ x, ¬inHeader s.cfg (t.heapChunks.getD []) x → u.mem.read x = m.read x)

/-! ## The whole machine -/

/-- Only ALLOC and REALLOC halt (00_scope.md R13, 60_exceptions.md R160), and they then change nothing else (R161). -/
def Obligations.OnlyAllocAndReallocHalt : Prop :=
  ∀ (s t : State) (i : Instr), exec i s = .next t → s.halted = false → t.halted = true →
    (i = .alloc ∨ i = .realloc) ∧ s.HaltedFrom t

/-- Every step keeps memory in its canonical form, addresses strictly rising. The form is the model's choice (log entry 4). -/
def Obligations.EveryStepKeepsMemoryCanonical : Prop :=
  ∀ s t : State, step s = .next t → s.mem.wf → t.mem.wf

/-- Every step keeps the invariant of the machine: parameters well-formed, memory canonical and inside backed memory, STATUS legal, the
arena legal, and HeapWF as long as the host has written no live header. -/
def Obligations.EveryStepKeepsTheInvariant : Prop :=
  ∀ s t : State, s.Inv → step s = .next t → t.Inv

/-- The invariant holds after reset. -/
def Obligations.ResetStateMeetsTheInvariant : Prop := State.reset.Inv
end

