-- ==== Sys2Proof/Laws/Memory.lean ====
section
/-! SUPPORT. Memory: read after write, the canonical form, and little-endian numbers (20_memory.md R52). -/

namespace Sys2Proof.Laws

open Sys2Proof Sys2Proof.Machine

/-! ## One byte -/

theorem lookup_write_same (m : Memory) (a : Nat) (b : Byte) : (m.write a b).lookup a = some b := by
  induction m with
  | nil => simp [Memory.write, Memory.lookup]
  | cons x m ih =>
    obtain ⟨c, d⟩ := x
    unfold Memory.write
    split
    · simp [Memory.lookup]
    · split
      · simp [Memory.lookup]
      · rw [Memory.lookup, if_neg ‹_›, ih]

theorem lookup_write_other (m : Memory) (a x : Nat) (b : Byte) (h : x ≠ a) : (m.write a b).lookup x = m.lookup x := by
  induction m with
  | nil => simp [Memory.write, Memory.lookup, h]
  | cons y m ih =>
    obtain ⟨c, d⟩ := y
    unfold Memory.write
    split
    · simp [Memory.lookup, h]
    · split
      · subst ‹a = c›; simp [Memory.lookup, h]
      · simp only [Memory.lookup, ih]

@[simp] theorem read_write_same (m : Memory) (a : Nat) (b : Byte) : (m.write a b).read a = b := by
  simp [Memory.read, lookup_write_same]

theorem read_write_other (m : Memory) (a x : Nat) (b : Byte) (h : x ≠ a) : (m.write a b).read x = m.read x := by
  simp [Memory.read, lookup_write_other m a x b h]

/-- The addresses a write lists are the old ones and the one written. -/
theorem mem_write {m : Memory} {a : Nat} {b : Byte} {c : Host.Cell} (h : c ∈ m.write a b) : c = (a, b) ∨ c ∈ m := by
  induction m with
  | nil => simpa [Memory.write] using h
  | cons x m ih =>
    obtain ⟨d, e⟩ := x
    unfold Memory.write at h
    split at h
    · simpa using h
    · split at h
      · rcases List.mem_cons.1 h with h | h
        · exact .inl h
        · exact .inr (List.mem_cons_of_mem _ h)
      · rcases List.mem_cons.1 h with h | h
        · exact .inr (h ▸ List.mem_cons_self)
        · exact (ih h).imp id (List.mem_cons_of_mem _)

theorem wf_write {m : Memory} (h : m.wf) (a : Nat) (b : Byte) : (m.write a b).wf := by
  induction m with
  | nil => simp [Memory.write, Memory.wf]
  | cons x m ih =>
    obtain ⟨c, d⟩ := x
    obtain ⟨hx, hm⟩ := List.pairwise_cons.1 h
    unfold Memory.write
    split
    · refine List.pairwise_cons.2 ⟨fun y hy => ?_, h⟩
      rcases List.mem_cons.1 hy with rfl | hy
      · assumption
      · have := hx y hy; simp only at this ⊢; omega
    · split
      · subst ‹a = c›; exact List.pairwise_cons.2 ⟨hx, hm⟩
      · refine List.pairwise_cons.2 ⟨fun y hy => ?_, ih hm⟩
        rcases mem_write hy with rfl | hy
        · simp only; omega
        · exact hx y hy

theorem wf_empty : Memory.wf [] := List.Pairwise.nil

/-! ## Byte strings -/

@[simp] theorem length_readBytes (m : Memory) (a n : Nat) : (m.readBytes a n).length = n := by
  induction n generalizing a with
  | zero => rfl
  | succ n ih => simp [Memory.readBytes, ih]

theorem getElem?_readBytes (m : Memory) (a n k : Nat) (h : k < n) : (m.readBytes a n)[k]? = some (m.read (a + k)) := by
  induction n generalizing a k with
  | zero => omega
  | succ n ih =>
    cases k with
    | zero => simp [Memory.readBytes]
    | succ k =>
      rw [Memory.readBytes, List.getElem?_cons_succ, ih (a + 1) k (by omega)]
      congr 2
      omega

/-- A string of bytes written leaves every byte outside it alone. -/
theorem read_writeBytes_outside (m : Memory) (a x : Nat) (bs : List Byte) (h : x < a ∨ a + bs.length ≤ x) :
    (m.writeBytes a bs).read x = m.read x := by
  induction bs generalizing m a with
  | nil => rfl
  | cons b bs ih =>
    simp only [List.length_cons] at h
    rw [Memory.writeBytes, ih _ _ (by omega), read_write_other _ _ _ _ (by omega)]

/-- A string of bytes written is there. -/
theorem read_writeBytes_inside (m : Memory) (a k : Nat) (bs : List Byte) (h : k < bs.length) :
    (m.writeBytes a bs).read (a + k) = bs[k] := by
  induction bs generalizing m a k with
  | nil => simp at h
  | cons b bs ih =>
    cases k with
    | zero => simp [Memory.writeBytes, read_writeBytes_outside]
    | succ k =>
      have := ih (m.write a b) (a + 1) k (by simpa using h)
      rw [Memory.writeBytes, show a + (k + 1) = a + 1 + k by omega, this, List.getElem_cons_succ]

theorem wf_writeBytes {m : Memory} (h : m.wf) (a : Nat) (bs : List Byte) : (m.writeBytes a bs).wf := by
  induction bs generalizing m a with
  | nil => exact h
  | cons b bs ih => exact ih (wf_write h a b) (a + 1)

/-- Every listed address after a string of bytes is written was listed before or is one of the string's. -/
theorem mem_writeBytes {m : Memory} {a : Nat} {bs : List Byte} {c : Host.Cell} (h : c ∈ m.writeBytes a bs) :
    (a ≤ c.1 ∧ c.1 < a + bs.length) ∨ c ∈ m := by
  induction bs generalizing m a with
  | nil => exact .inr h
  | cons b bs ih =>
    simp only [List.length_cons]
    rcases ih h with h | h
    · exact .inl (by omega)
    · rcases mem_write h with rfl | h
      · exact .inl (by simp only; omega)
      · exact .inr h

theorem readBytes_congr (m m' : Memory) (a n : Nat) (h : ∀ k < n, m.read (a + k) = m'.read (a + k)) :
    m.readBytes a n = m'.readBytes a n := by
  induction n generalizing a with
  | zero => rfl
  | succ n ih =>
    have h0 : m.read a = m'.read a := h 0 (by omega)
    have h1 := ih (a + 1) fun k hk => by
      have := h (k + 1) (by omega)
      rwa [show a + (k + 1) = a + 1 + k by omega] at this
    simp only [Memory.readBytes, h0, h1]

theorem readBytes_writeBytes_same (m : Memory) (a : Nat) (bs : List Byte) :
    (m.writeBytes a bs).readBytes a bs.length = bs := by
  refine List.ext_getElem? fun k => ?_
  by_cases hk : k < bs.length
  · rw [getElem?_readBytes _ _ _ _ hk, read_writeBytes_inside _ _ _ _ hk, List.getElem?_eq_getElem hk]
  · rw [List.getElem?_eq_none (by simpa using hk), List.getElem?_eq_none (by omega)]

theorem readBytes_append (m : Memory) (a n k : Nat) :
    m.readBytes a (n + k) = m.readBytes a n ++ m.readBytes (a + n) k := by
  induction n generalizing a with
  | zero => simp [Memory.readBytes]
  | succ n ih =>
    rw [show n + 1 + k = n + k + 1 by omega, Memory.readBytes, ih (a + 1), Memory.readBytes, List.cons_append,
      show a + 1 + n = a + (n + 1) by omega]

/-! ## Little-endian numbers -/

@[simp] theorem length_leBytes (n v : Nat) : (leBytes n v).length = n := by
  induction n generalizing v with
  | zero => rfl
  | succ n ih => simp [leBytes, ih]

theorem leNat_leBytes (n v : Nat) : leNat (leBytes n v) = v % 256 ^ n := by
  induction n generalizing v with
  | zero => simp [leBytes, leNat, Nat.mod_one]
  | succ n ih =>
    simp only [leBytes, leNat, ih, BitVec.toNat_ofNat]
    rw [show 256 ^ (n + 1) = 256 * 256 ^ n from by ring, Nat.mod_mul]

theorem leNat_lt (bs : List Byte) : leNat bs < 256 ^ bs.length := by
  induction bs with
  | nil => simp [leNat]
  | cons b bs ih =>
    have hb : b.toNat < 256 := b.isLt
    simp only [leNat, List.length_cons, Nat.pow_succ]
    omega

theorem leNat_append (bs cs : List Byte) : leNat (bs ++ cs) = leNat bs + 256 ^ bs.length * leNat cs := by
  induction bs with
  | nil => simp [leNat]
  | cons b bs ih => simp only [List.cons_append, leNat, ih, List.length_cons, Nat.pow_succ]; ring

theorem leBytes_leNat (bs : List Byte) : leBytes bs.length (leNat bs) = bs := by
  induction bs with
  | nil => rfl
  | cons b bs ih =>
    have hb : b.toNat < 256 := b.isLt
    have h1 : (b.toNat + 256 * leNat bs) / 256 = leNat bs := by omega
    simp only [List.length_cons, leBytes, leNat, h1, ih, List.cons.injEq, and_true]
    apply BitVec.eq_of_toNat_eq
    simp only [BitVec.toNat_ofNat]
    omega

theorem memRead_lt (m : Memory) (a n : Nat) : memRead m a n < 256 ^ n := by
  simpa [memRead] using leNat_lt (m.readBytes a n)

/-- A read after a write to the same place gives the value written. -/
theorem memRead_memWrite_same (m : Memory) (a n v : Nat) : memRead (memWrite m a n v) a n = v % 256 ^ n := by
  have h := readBytes_writeBytes_same m a (leBytes n v)
  rw [length_leBytes] at h
  rw [memRead, memWrite, h, leNat_leBytes]

theorem memRead_congr (m m' : Memory) (a n : Nat) (h : ∀ k < n, m.read (a + k) = m'.read (a + k)) :
    memRead m a n = memRead m' a n := by
  rw [memRead, memRead, readBytes_congr m m' a n h]

/-- A write leaves every other place alone. -/
theorem memRead_writeBytes_disjoint (m : Memory) (a n b : Nat) (bs : List Byte) (h : a + n ≤ b ∨ b + bs.length ≤ a) :
    memRead (m.writeBytes b bs) a n = memRead m a n :=
  memRead_congr _ _ _ _ fun k hk => read_writeBytes_outside _ _ _ _ (by omega)

theorem memRead_memWrite_disjoint (m : Memory) (a n b k v : Nat) (h : a + n ≤ b ∨ b + k ≤ a) :
    memRead (memWrite m b k v) a n = memRead m a n :=
  memRead_writeBytes_disjoint _ _ _ _ _ (by simpa using h)

theorem read_memWrite_outside (m : Memory) (a n v x : Nat) (h : x < a ∨ a + n ≤ x) :
    (memWrite m a n v).read x = m.read x :=
  read_writeBytes_outside _ _ _ _ (by simpa using h)

theorem wf_memWrite {m : Memory} (h : m.wf) (a n v : Nat) : (memWrite m a n v).wf := wf_writeBytes h a _

theorem mem_memWrite {m : Memory} {a n v : Nat} {c : Host.Cell} (h : c ∈ memWrite m a n v) :
    (a ≤ c.1 ∧ c.1 < a + n) ∨ c ∈ m := by
  simpa using mem_writeBytes h

/-! ## Rounding (40_heap.md R103) and ranges -/

theorem round8_mod (n : Nat) : round8 n % 8 = 0 := by simp [round8, Config.align]

theorem le_round8 (n : Nat) : n ≤ round8 n := by unfold round8 Config.align; omega

theorem round8_lt (n : Nat) : round8 n < n + 8 := by unfold round8 Config.align; omega

/-- On multiples of 8 the rounded and the unrounded test agree (40_heap.md R110). -/
theorem round8_le_iff (n l : Nat) (h : l % 8 = 0) : round8 n ≤ l ↔ n ≤ l := by unfold round8 Config.align; omega

theorem rangesOverlap_eq_false_iff (a n b k : Nat) :
    rangesOverlap a n b k = false ↔ ∀ x, ¬((a ≤ x ∧ x < a + n) ∧ (b ≤ x ∧ x < b + k)) := by
  simp only [rangesOverlap, Bool.and_eq_false_iff, decide_eq_false_iff_not]
  refine ⟨fun h x => by omega, fun h => ?_⟩
  have h1 := h a
  have h2 := h b
  omega

theorem backed_eq_true_iff (cfg : Config) (a n : Nat) :
    backed cfg a n = true ↔ a + n ≤ cfg.memLimit ∧ a + n ≤ 4294967296 := by
  simp only [backed, Bool.and_eq_true, decide_eq_true_eq]
  rfl

end Sys2Proof.Laws
end

