-- ==== Sys2Proof/Laws/Layout.lean ====
section
/-! SUPPORT. Headers in memory, and the heap as a list of chunks laid out in memory: what Split, Absorb and a change of the allocated word
do to it (10_state.md R30, R34; 40_heap.md R104, R107). -/

namespace Sys2Proof.Laws

open Sys2Proof Sys2Proof.Machine

/-! ## One header -/

/-- The four words of the header at `c`. -/
structure HeaderIs (m : Memory) (c nx pv len al : Nat) : Prop where
  next : hdrNext m c = nx
  prev : hdrPrev m c = pv
  length : hdrLength m c = len
  allocated : hdrAllocated m c = al

/-- Two headers share no byte of their words. -/
def Apart (c d : Nat) : Prop := c + 16 ≤ d ∨ d + 16 ≤ c

theorem HeaderIs.congr {m m' : Memory} {c nx pv len al : Nat} (h : HeaderIs m c nx pv len al)
    (hm : ∀ x, c ≤ x → x < c + 16 → m'.read x = m.read x) : HeaderIs m' c nx pv len al := by
  have e : ∀ k ≤ 12, memRead m' (c + k) 4 = memRead m (c + k) 4 := fun k hk =>
    memRead_congr _ _ _ _ fun j hj => hm _ (by omega) (by omega)
  refine ⟨?_, ?_, ?_, ?_⟩
  · rw [hdrNext, show c = c + 0 from rfl, e 0 (by omega)]; exact h.next
  · rw [hdrPrev, e 4 (by omega)]; exact h.prev
  · rw [hdrLength, e 8 (by omega)]; exact h.length
  · rw [hdrAllocated, e 12 (by omega)]; exact h.allocated

theorem HeaderIs.setNext {m : Memory} {c nx pv len al : Nat} (h : HeaderIs m c nx pv len al) {v : Nat} (hv : v < 4294967296) :
    HeaderIs (setNext m c v) c v pv len al := by
  refine ⟨?_, ?_, ?_, ?_⟩
  · rw [hdrNext, Machine.setNext, memRead_memWrite_same]; omega
  · rw [hdrPrev, Machine.setNext, memRead_memWrite_disjoint _ _ _ _ _ _ (by omega)]; exact h.prev
  · rw [hdrLength, Machine.setNext, memRead_memWrite_disjoint _ _ _ _ _ _ (by omega)]; exact h.length
  · rw [hdrAllocated, Machine.setNext, memRead_memWrite_disjoint _ _ _ _ _ _ (by omega)]; exact h.allocated

theorem HeaderIs.setPrev {m : Memory} {c nx pv len al : Nat} (h : HeaderIs m c nx pv len al) {v : Nat} (hv : v < 4294967296) :
    HeaderIs (setPrev m c v) c nx v len al := by
  refine ⟨?_, ?_, ?_, ?_⟩
  · rw [hdrNext, Machine.setPrev, memRead_memWrite_disjoint _ _ _ _ _ _ (by omega)]; exact h.next
  · rw [hdrPrev, Machine.setPrev, memRead_memWrite_same]; omega
  · rw [hdrLength, Machine.setPrev, memRead_memWrite_disjoint _ _ _ _ _ _ (by omega)]; exact h.length
  · rw [hdrAllocated, Machine.setPrev, memRead_memWrite_disjoint _ _ _ _ _ _ (by omega)]; exact h.allocated

theorem HeaderIs.setLength {m : Memory} {c nx pv len al : Nat} (h : HeaderIs m c nx pv len al) {v : Nat} (hv : v < 4294967296) :
    HeaderIs (setLength m c v) c nx pv v al := by
  refine ⟨?_, ?_, ?_, ?_⟩
  · rw [hdrNext, Machine.setLength, memRead_memWrite_disjoint _ _ _ _ _ _ (by omega)]; exact h.next
  · rw [hdrPrev, Machine.setLength, memRead_memWrite_disjoint _ _ _ _ _ _ (by omega)]; exact h.prev
  · rw [hdrLength, Machine.setLength, memRead_memWrite_same]; omega
  · rw [hdrAllocated, Machine.setLength, memRead_memWrite_disjoint _ _ _ _ _ _ (by omega)]; exact h.allocated

theorem HeaderIs.setAllocated {m : Memory} {c nx pv len al : Nat} (h : HeaderIs m c nx pv len al) {v : Nat}
    (hv : v < 4294967296) : HeaderIs (setAllocated m c v) c nx pv len v := by
  refine ⟨?_, ?_, ?_, ?_⟩
  · rw [hdrNext, Machine.setAllocated, memRead_memWrite_disjoint _ _ _ _ _ _ (by omega)]; exact h.next
  · rw [hdrPrev, Machine.setAllocated, memRead_memWrite_disjoint _ _ _ _ _ _ (by omega)]; exact h.prev
  · rw [hdrLength, Machine.setAllocated, memRead_memWrite_disjoint _ _ _ _ _ _ (by omega)]; exact h.length
  · rw [hdrAllocated, Machine.setAllocated, memRead_memWrite_same]; omega

/-- The four header writes that make a header, whatever was there. -/
theorem headerIs_written (m : Memory) (c nx pv len al : Nat) (h1 : nx < 4294967296) (h2 : pv < 4294967296)
    (h3 : len < 4294967296) (h4 : al < 4294967296) :
    HeaderIs (setAllocated (setLength (setPrev (setNext m c nx) c pv) c len) c al) c nx pv len al := by
  have h0 : HeaderIs m c (hdrNext m c) (hdrPrev m c) (hdrLength m c) (hdrAllocated m c) := ⟨rfl, rfl, rfl, rfl⟩
  exact (((h0.setNext h1).setPrev h2).setLength h3).setAllocated h4

theorem read_setNext (m : Memory) (c v x : Nat) (h : x < c ∨ c + 4 ≤ x) : (setNext m c v).read x = m.read x :=
  read_memWrite_outside _ _ _ _ _ h
theorem read_setPrev (m : Memory) (c v x : Nat) (h : x < c + 4 ∨ c + 8 ≤ x) : (setPrev m c v).read x = m.read x :=
  read_memWrite_outside _ _ _ _ _ h
theorem read_setLength (m : Memory) (c v x : Nat) (h : x < c + 8 ∨ c + 12 ≤ x) : (setLength m c v).read x = m.read x :=
  read_memWrite_outside _ _ _ _ _ h
theorem read_setAllocated (m : Memory) (c v x : Nat) (h : x < c + 12 ∨ c + 16 ≤ x) : (setAllocated m c v).read x = m.read x :=
  read_memWrite_outside _ _ _ _ _ h

/-! ## Split and Absorb, on bytes and on headers -/

/-- Split writes only the header of the chunk, the header of the tail, and the back link of the chunk after it. -/
theorem read_split (cfg : Config) (m : Memory) (c rs x : Nat) (h1 : x < c ∨ c + 16 ≤ x)
    (h2 : x < c + cfg.hdr + rs ∨ c + cfg.hdr + rs + 16 ≤ x)
    (h3 : hdrNext m c ≠ 0 → x < hdrNext m c + 4 ∨ hdrNext m c + 8 ≤ x) : (split cfg m c rs).read x = m.read x := by
  unfold split
  dsimp only
  split
  · rw [read_setLength _ _ _ _ (by omega), read_setNext _ _ _ _ (by omega)]
    split
    · rw [read_setAllocated _ _ _ _ (by omega), read_setLength _ _ _ _ (by omega), read_setPrev _ _ _ _ (by omega),
        read_setNext _ _ _ _ (by omega)]
    · have := h3 ‹_›
      rw [read_setPrev _ _ _ _ (by omega), read_setAllocated _ _ _ _ (by omega), read_setLength _ _ _ _ (by omega),
        read_setPrev _ _ _ _ (by omega), read_setNext _ _ _ _ (by omega)]
  · rfl

/-- Absorb writes only the header of the chunk and the back link of the chunk after the absorbed one. -/
theorem read_absorb (cfg : Config) (m : Memory) (c n x : Nat) (h1 : x < c ∨ c + 16 ≤ x)
    (h3 : hdrNext m n ≠ 0 → x < hdrNext m n + 4 ∨ hdrNext m n + 8 ≤ x) : (absorb cfg m c n).read x = m.read x := by
  unfold absorb
  dsimp only
  split
  · rw [read_setNext _ _ _ _ (by omega), read_setLength _ _ _ _ (by omega)]
  · have := h3 ‹_›
    rw [read_setPrev _ _ _ _ (by omega), read_setNext _ _ _ _ (by omega), read_setLength _ _ _ _ (by omega)]

/-- Split with a remainder under a minimal chunk writes nothing. -/
theorem split_whole {cfg : Config} {m : Memory} {c rs : Nat} (h : ¬ 8 + cfg.hdr ≤ hdrLength m c - rs) :
    split cfg m c rs = m := by
  unfold split
  exact if_neg h

/-- What Split does to the three headers it touches. -/
theorem split_headers {cfg : Config} {m : Memory} {c rs nx pv len al : Nat} (hc : HeaderIs m c nx pv len al)
    (hh : 16 ≤ cfg.hdr) (hs : 8 + cfg.hdr ≤ len - rs) (hend : c + cfg.hdr + len ≤ 4294967296)
    (hnx : nx = 0 ∨ (nx < 4294967296 ∧ Apart nx c ∧ Apart nx (c + cfg.hdr + rs))) :
    HeaderIs (split cfg m c rs) c (c + cfg.hdr + rs) pv rs al ∧
    HeaderIs (split cfg m c rs) (c + cfg.hdr + rs) nx c (len - rs - cfg.hdr) 0 ∧
    ∀ nx' pv' len' al', nx ≠ 0 → HeaderIs m nx nx' pv' len' al' →
      HeaderIs (split cfg m c rs) nx nx' (c + cfg.hdr + rs) len' al' := by
  have hlen : 8 + cfg.hdr ≤ hdrLength m c - rs := by rw [hc.length]; exact hs
  generalize ht : c + cfg.hdr + rs = t at *
  have e : split cfg m c rs =
      setLength (setNext (if nx = 0 then setAllocated (setLength (setPrev (setNext m t nx) t c) t (len - rs - cfg.hdr)) t 0
        else setPrev (setAllocated (setLength (setPrev (setNext m t nx) t c) t (len - rs - cfg.hdr)) t 0) nx t) c t) c rs := by
    unfold split
    dsimp only
    rw [if_pos (show Config.minPay + cfg.hdr ≤ hdrLength m c - rs from hlen), hc.next, hc.length, ht]
  have h4 : HeaderIs (setAllocated (setLength (setPrev (setNext m t nx) t c) t (len - rs - cfg.hdr)) t 0) t nx c
      (len - rs - cfg.hdr) 0 := by
    refine headerIs_written m t nx c _ 0 ?_ ?_ ?_ (by omega)
    · rcases hnx with h | h <;> omega
    · omega
    · omega
  have r4 : ∀ x, x < t ∨ t + 16 ≤ x →
      (setAllocated (setLength (setPrev (setNext m t nx) t c) t (len - rs - cfg.hdr)) t 0).read x = m.read x := fun x hx => by
    rw [read_setAllocated _ _ _ _ (by omega), read_setLength _ _ _ _ (by omega), read_setPrev _ _ _ _ (by omega),
      read_setNext _ _ _ _ (by omega)]
  rw [e]
  generalize setAllocated (setLength (setPrev (setNext m t nx) t c) t (len - rs - cfg.hdr)) t 0 = m4 at *
  by_cases hn : nx = 0
  · subst hn
    rw [if_pos rfl]
    refine ⟨?_, ?_, fun _ _ _ _ h => absurd rfl h⟩
    · have : HeaderIs m4 c 0 pv len al := hc.congr fun x h1 h2 => r4 x (by omega)
      exact (this.setNext (by omega)).setLength (by omega)
    · refine h4.congr fun x h1 h2 => ?_
      rw [read_setLength _ _ _ _ (by omega), read_setNext _ _ _ _ (by omega)]
  · rw [if_neg hn]
    obtain ⟨hb, ha, ha'⟩ := hnx.resolve_left hn
    unfold Apart at ha ha'
    refine ⟨?_, ?_, fun nx' pv' len' al' _ h => ?_⟩
    · have : HeaderIs (setPrev m4 nx t) c nx pv len al := hc.congr fun x h1 h2 => by
        rw [read_setPrev _ _ _ _ (by omega), r4 x (by omega)]
      exact (this.setNext (by omega)).setLength (by omega)
    · refine h4.congr fun x h1 h2 => ?_
      rw [read_setLength _ _ _ _ (by omega), read_setNext _ _ _ _ (by omega), read_setPrev _ _ _ _ (by omega)]
    · have : HeaderIs m4 nx nx' pv' len' al' := h.congr fun x h1 h2 => r4 x (by omega)
      refine (this.setPrev (v := t) (by omega)).congr fun x h1 h2 => ?_
      rw [read_setLength _ _ _ _ (by omega), read_setNext _ _ _ _ (by omega)]

/-- What Absorb does to the two headers it touches. -/
theorem absorb_headers {cfg : Config} {m : Memory} {c n pv len al nx pv2 len2 al2 : Nat} (hc : HeaderIs m c n pv len al)
    (hn : HeaderIs m n nx pv2 len2 al2) (hlen : len + cfg.hdr + len2 < 4294967296) (hc32 : c < 4294967296)
    (hnx : nx = 0 ∨ (nx < 4294967296 ∧ Apart nx c)) :
    HeaderIs (absorb cfg m c n) c nx pv (len + cfg.hdr + len2) al ∧
    ∀ nx' pv' len' al', nx ≠ 0 → HeaderIs m nx nx' pv' len' al' → HeaderIs (absorb cfg m c n) nx nx' c len' al' := by
  have hnx32 : nx < 4294967296 := by rcases hnx with h | h <;> omega
  have h2 := (hc.setLength hlen).setNext hnx32
  have e : absorb cfg m c n = if nx = 0 then setNext (setLength m c (len + cfg.hdr + len2)) c nx
      else setPrev (setNext (setLength m c (len + cfg.hdr + len2)) c nx) nx c := by
    unfold absorb
    dsimp only
    rw [hc.length, hn.next, hn.length]
  rw [e]
  by_cases h0 : nx = 0
  · rw [if_pos h0]
    exact ⟨h2, fun _ _ _ _ h => absurd h0 h⟩
  · rw [if_neg h0]
    obtain ⟨-, ha⟩ := hnx.resolve_left h0
    unfold Apart at ha
    refine ⟨h2.congr fun x h1 h2 => read_setPrev _ _ _ _ (by omega), fun nx' pv' len' al' _ h => ?_⟩
    have : HeaderIs (setNext (setLength m c (len + cfg.hdr + len2)) c nx) nx nx' pv' len' al' := h.congr fun x h1 h2 => by
      rw [read_setNext _ _ _ _ (by omega), read_setLength _ _ _ _ (by omega)]
    exact this.setPrev hc32

/-! ## A list of chunks laid out in memory -/

/-- The address of the first chunk of a list, `d` when there is none. -/
def headAddr (d : Nat) : List Chunk → Nat
  | [] => d
  | k :: _ => k.addr

/-- The address of the last chunk of a list, `d` when there is none. -/
def lastAddr (d : Nat) : List Chunk → Nat
  | [] => d
  | k :: ks => lastAddr k.addr ks

/-- The allocated word of a chunk. -/
def flagWord (b : Bool) : Nat := if b then 1 else 0

/-- Memory holds the headers of the chunks, linked in order: the first chunk's back link is `pv`, the last one's link is `nx`. -/
def Layout (m : Memory) : Nat → List Chunk → Nat → Prop
  | _, [], _ => True
  | pv, k :: ks, nx => HeaderIs m k.addr (headAddr nx ks) pv k.len (flagWord k.allocated) ∧ Layout m k.addr ks nx

/-- The chunks cover the addresses from `start` to `stop` without gap or overlap. -/
def Tiles (hdr : Nat) : Nat → List Chunk → Nat → Prop
  | start, [], stop => start = stop
  | start, k :: ks, stop => k.addr = start ∧ Tiles hdr (start + hdr + k.len) ks stop

/-- No two neighbours of the list are both free. -/
def NoTwoFree : List Chunk → Prop
  | [] => True
  | [_] => True
  | k :: n :: ks => ¬(k.allocated = false ∧ n.allocated = false) ∧ NoTwoFree (n :: ks)

/-- The heap of a state is the list `ks`, in terms of the layout. -/
structure HeapIs (cfg : Config) (m : Memory) (size : Nat) (ks : List Chunk) : Prop where
  nonempty : ks ≠ []
  layout : Layout m 0 ks 0
  tiles : Tiles cfg.hdr cfg.arenaBase ks (cfg.arenaBase + size)
  noTwoFree : NoTwoFree ks
  aligned : ∀ k ∈ ks, k.len % 8 = 0

theorem layout_append (m : Memory) (pv nx : Nat) (ks ls : List Chunk) :
    Layout m pv (ks ++ ls) nx ↔ Layout m pv ks (headAddr nx ls) ∧ Layout m (lastAddr pv ks) ls nx := by
  induction ks generalizing pv with
  | nil => simp [Layout, lastAddr]
  | cons k ks ih =>
    have : headAddr nx (ks ++ ls) = headAddr (headAddr nx ls) ks := by cases ks <;> rfl
    simp only [List.cons_append, Layout, ih, this, lastAddr, and_assoc]

theorem tiles_append (hdr a b : Nat) (ks ls : List Chunk) :
    Tiles hdr a (ks ++ ls) b ↔ ∃ c, Tiles hdr a ks c ∧ Tiles hdr c ls b := by
  induction ks generalizing a with
  | nil => simp [Tiles]
  | cons k ks ih => simp only [List.cons_append, Tiles, ih, exists_and_left, and_assoc]

theorem tiles_le {hdr a b : Nat} {ks : List Chunk} (h : Tiles hdr a ks b) : a ≤ b := by
  induction ks generalizing a with
  | nil => exact Nat.le_of_eq h
  | cons k ks ih => have := ih h.2; omega

/-- Where a chunk of a tiled range lies. -/
theorem tiles_mem {hdr a b : Nat} {ks : List Chunk} (h : Tiles hdr a ks b) {k : Chunk} (hk : k ∈ ks) :
    a ≤ k.addr ∧ k.addr + hdr + k.len ≤ b := by
  induction ks generalizing a with
  | nil => simp at hk
  | cons c ks ih =>
    obtain ⟨h1, h2⟩ := h
    rcases List.mem_cons.1 hk with rfl | hk
    · have := tiles_le h2; omega
    · have := ih h2 hk; omega

theorem tiles_sum {hdr a b : Nat} {ks : List Chunk} (h : Tiles hdr a ks b) :
    (ks.map fun k => k.len + hdr).sum = b - a := by
  induction ks generalizing a with
  | nil => simp only [Tiles] at h; simp [h]
  | cons k ks ih =>
    have h1 := ih h.2
    have h2 := tiles_le h.2
    simp only [List.map_cons, List.sum_cons, h1]
    omega

/-- A layout whose headers' bytes are the same is the same layout. -/
theorem Layout.congr {m m' : Memory} {pv nx : Nat} {ks : List Chunk} (h : Layout m pv ks nx)
    (hm : ∀ k ∈ ks, ∀ x, k.addr ≤ x → x < k.addr + 16 → m'.read x = m.read x) : Layout m' pv ks nx := by
  induction ks generalizing pv with
  | nil => trivial
  | cons k ks ih =>
    exact ⟨h.1.congr (hm k (by simp)), ih h.2 fun k' hk' => hm k' (by simp [hk'])⟩

theorem noTwoFree_append {ks ls : List Chunk} :
    NoTwoFree (ks ++ ls) ↔ NoTwoFree ks ∧ NoTwoFree ls ∧
      ∀ k ∈ ks.getLast?, ∀ n ∈ ls.head?, ¬(k.allocated = false ∧ n.allocated = false) := by
  induction ks with
  | nil => simp [NoTwoFree]
  | cons k ks ih =>
    cases ks with
    | nil => cases ls <;> simp [NoTwoFree, and_comm]
    | cons k' ks =>
      rw [List.cons_append, List.cons_append, NoTwoFree, ← List.cons_append, ih, NoTwoFree, List.getLast?_cons_cons]
      tauto

end Sys2Proof.Laws
end

