-- ==== Sys2Proof/Laws/HeapView.lean ====
section
/-! SUPPORT. HeapWF (10_state.md R34) says that memory holds a layout of chunks over the arena: `heapView_eq_some_iff`. -/

namespace Sys2Proof.Laws

open Sys2Proof Sys2Proof.Machine

/-! ## From the walk to the layout -/

theorem chunkWalk_head {m : Memory} {fuel c : Nat} {cs : List Nat} (h : chunkWalk m fuel c = some cs) :
    ∃ ds, cs = c :: ds := by
  cases fuel with
  | zero => simp [chunkWalk] at h
  | succ fuel =>
    unfold chunkWalk at h
    split at h
    · exact ⟨[], by simpa using h.symm⟩
    · split at h
      · simp at h
      · exact ⟨_, by simpa using h.symm⟩

theorem flagWord_chunkAt {m : Memory} {c : Nat} (h : hdrAllocated m c ≤ 1) :
    flagWord (chunkAt m c).allocated = hdrAllocated m c := by
  have h' : hdrAllocated m c = 0 ∨ hdrAllocated m c = 1 := by omega
  rcases h' with h' | h' <;> simp [chunkAt, flagWord, h']

theorem layout_of_walk {m : Memory} {fuel c pv : Nat} {cs : List Nat} (h : chunkWalk m fuel c = some cs)
    (hp : hdrPrev m c = pv) (hb : adjacent (fun c d => hdrPrev m d == c) cs = true)
    (hf : ∀ c ∈ cs, hdrAllocated m c ≤ 1) : Layout m pv (cs.map (chunkAt m)) 0 := by
  induction fuel generalizing c pv cs with
  | zero => simp [chunkWalk] at h
  | succ fuel ih =>
    unfold chunkWalk at h
    split at h
    · simp only [Option.some.injEq] at h
      subst h
      refine ⟨⟨by simpa [headAddr, chunkAt] using ‹hdrNext m c = 0›, hp, rfl, ?_⟩, trivial⟩
      exact (flagWord_chunkAt (hf c (by simp))).symm
    · split at h
      · simp at h
      · rename_i hn ds hw
        simp only [Option.some.injEq] at h
        subst h
        obtain ⟨es, rfl⟩ := chunkWalk_head hw
        simp only [adjacent, Bool.and_eq_true, beq_iff_eq] at hb
        refine ⟨⟨rfl, hp, rfl, (flagWord_chunkAt (hf c (by simp))).symm⟩, ?_⟩
        exact ih hw hb.1 hb.2 fun d hd => hf d (List.mem_cons_of_mem _ hd)

theorem tiles_of_walk {cfg : Config} {m : Memory} {c stop : Nat} {cs : List Nat}
    (ht : chunksTile cfg m stop (c :: cs) = true) : Tiles cfg.hdr c ((c :: cs).map (chunkAt m)) stop := by
  induction cs generalizing c with
  | nil =>
    simp [chunksTile, adjacent, chunkEnd] at ht
    exact ⟨rfl, ht⟩
  | cons d ds ih =>
    simp only [chunksTile, adjacent, Bool.and_eq_true, beq_iff_eq, List.getLast?_cons_cons] at ht
    obtain ⟨⟨h1, h2⟩, h3⟩ := ht
    refine ⟨rfl, ?_⟩
    have := ih (c := d) (by simp [chunksTile, h2, h3])
    rw [show c + cfg.hdr + (chunkAt m c).len = d from h1.symm]
    exact this

theorem noTwoFree_of_chunks {m : Memory} {cs : List Nat} (h : Machine.noTwoFree m cs = true) :
    NoTwoFree (cs.map (chunkAt m)) := by
  induction cs with
  | nil => trivial
  | cons c cs ih =>
    cases cs with
    | nil => trivial
    | cons d ds =>
      simp only [Machine.noTwoFree, adjacent, Bool.and_eq_true] at h
      refine ⟨?_, ih (by simpa [Machine.noTwoFree] using h.2)⟩
      have := h.1
      simp [chunkAt] at this ⊢
      tauto

/-! ## From the layout to the walk -/

theorem chunkAt_of_header {m : Memory} {k : Chunk} {nx pv : Nat}
    (h : HeaderIs m k.addr nx pv k.len (flagWord k.allocated)) : chunkAt m k.addr = k := by
  obtain ⟨a, l, b⟩ := k
  cases b <;> simp_all [chunkAt, flagWord, h.length, h.allocated]

theorem map_chunkAt_of_layout {m : Memory} {pv nx : Nat} {ks : List Chunk} (h : Layout m pv ks nx) :
    (ks.map Chunk.addr).map (chunkAt m) = ks := by
  induction ks generalizing pv with
  | nil => rfl
  | cons k ks ih =>
    simp only [List.map_cons, chunkAt_of_header h.1, ih h.2]

theorem walk_of_layout {m : Memory} {pv fuel : Nat} {k : Chunk} {ks : List Chunk} (h : Layout m pv (k :: ks) 0)
    (hz : ∀ c ∈ k :: ks, c.addr ≠ 0) (hfuel : (k :: ks).length ≤ fuel) :
    chunkWalk m fuel k.addr = some ((k :: ks).map Chunk.addr) := by
  induction ks generalizing k pv fuel with
  | nil =>
    obtain ⟨f, rfl⟩ : ∃ f, fuel = f + 1 := ⟨fuel - 1, by simp at hfuel; omega⟩
    have : hdrNext m k.addr = 0 := h.1.next
    simp [chunkWalk, this]
  | cons n ks ih =>
    obtain ⟨f, rfl⟩ : ∃ f, fuel = f + 1 := ⟨fuel - 1, by simp at hfuel; omega⟩
    have h1 : hdrNext m k.addr = n.addr := h.1.next
    have h2 : n.addr ≠ 0 := hz n (by simp)
    have h3 := ih (k := n) (fuel := f) h.2 (fun c hc => hz c (List.mem_cons_of_mem _ hc)) (by simpa using hfuel)
    simp [chunkWalk, h1, h2, h3]

theorem tile_of_tiles {cfg : Config} {m : Memory} {start stop pv nx : Nat} {k : Chunk} {ks : List Chunk}
    (hl : Layout m pv (k :: ks) nx) (h : Tiles cfg.hdr start (k :: ks) stop) :
    chunksTile cfg m stop ((k :: ks).map Chunk.addr) = true := by
  induction ks generalizing k start pv with
  | nil =>
    obtain ⟨h1, h2⟩ := h
    have h2 : start + cfg.hdr + k.len = stop := h2
    have := hl.1.length
    simp [chunksTile, adjacent, chunkEnd, this]
    omega
  | cons n ks ih =>
    obtain ⟨h1, h2⟩ := h
    have h3 := ih hl.2 h2
    have h4 : n.addr = start + cfg.hdr + k.len := h2.1
    have := hl.1.length
    simp only [chunksTile, List.map_cons, List.getLast?_cons_cons, adjacent, Bool.and_eq_true, beq_iff_eq] at h3 ⊢
    exact ⟨⟨by rw [chunkEnd, this]; omega, h3.1⟩, h3.2⟩

theorem adjacent_prev_of_layout {m : Memory} {pv nx : Nat} {ks : List Chunk} (h : Layout m pv ks nx) :
    adjacent (fun c d => hdrPrev m d == c) (ks.map Chunk.addr) = true := by
  induction ks generalizing pv with
  | nil => rfl
  | cons k ks ih =>
    cases ks with
    | nil => rfl
    | cons n ks =>
      have h1 := ih h.2
      have h2 : hdrPrev m n.addr = k.addr := h.2.1.prev
      simp only [List.map_cons, adjacent, Bool.and_eq_true, beq_iff_eq] at h1 ⊢
      exact ⟨h2, h1⟩

theorem layout_header {m : Memory} {pv nx : Nat} {ks : List Chunk} (h : Layout m pv ks nx) {k : Chunk} (hk : k ∈ ks) :
    ∃ nx' pv', HeaderIs m k.addr nx' pv' k.len (flagWord k.allocated) := by
  induction ks generalizing pv with
  | nil => simp at hk
  | cons c ks ih =>
    rcases List.mem_cons.1 hk with rfl | hk
    · exact ⟨_, _, h.1⟩
    · exact ih h.2 hk

theorem chunks_noTwoFree {m : Memory} {pv nx : Nat} {ks : List Chunk} (hl : Layout m pv ks nx) (h : NoTwoFree ks) :
    Machine.noTwoFree m (ks.map Chunk.addr) = true := by
  have e : ∀ k ∈ ks, (hdrAllocated m k.addr == 0) = !k.allocated := fun k hk => by
    obtain ⟨_, _, hh⟩ := layout_header hl hk
    rw [hh.allocated]
    cases k.allocated <;> rfl
  clear hl
  induction ks with
  | nil => rfl
  | cons k ks ih =>
    cases ks with
    | nil => rfl
    | cons n ks =>
      have h1 := ih h.2 fun c hc => e c (List.mem_cons_of_mem _ hc)
      simp only [Machine.noTwoFree, List.map_cons, adjacent, Bool.and_eq_true] at h1 ⊢
      refine ⟨?_, h1⟩
      rw [e k (by simp), e n (by simp)]
      have := h.1
      cases hk : k.allocated <;> cases hn : n.allocated <;> simp_all

theorem tiles_length {hdr a b : Nat} {ks : List Chunk} (h : Tiles hdr a ks b) : ks.length * hdr ≤ b - a := by
  induction ks generalizing a with
  | nil => simp
  | cons k ks ih =>
    have h1 := ih h.2
    have h2 := tiles_le h.2
    rw [List.length_cons, Nat.add_mul]
    omega

theorem wellFormed_iff (cfg : Config) :
    cfg.wellFormed = true ↔
      cfg.hdr % 8 = 0 ∧ 16 ≤ cfg.hdr ∧ cfg.arenaBase % 8 = 0 ∧ cfg.arenaBase ≠ 0 ∧ 1 ≤ cfg.memLimit ∧
        cfg.memLimit ≤ 4294967296 := by
  simp only [Config.wellFormed, Config.hdrOk, Config.arenaBaseOk, Config.memLimitOk, Bool.and_eq_true, beq_iff_eq,
    decide_eq_true_eq, bne_iff_ne, and_assoc]
  rfl

/-- The heap of a state is well-formed with view `ks` exactly when memory holds the layout of `ks` over the arena. -/
theorem heapView_eq_some_iff {s : State} {size : Nat} (ha : s.arenaSize = some size) (hw : s.cfg.wellFormed = true)
    (ks : List Chunk) : s.heapView = some ks ↔ HeapIs s.cfg s.mem size ks := by
  obtain ⟨-, hh, -, hb, -⟩ := (wellFormed_iff _).1 hw
  constructor
  · intro h
    simp only [State.heapView, Option.map_eq_some_iff] at h
    obtain ⟨cs, hcs, rfl⟩ := h
    simp only [State.heapChunks, State.chunkList, ha] at hcs
    split at hcs
    · rename_i size' cs' h1 h2
      simp only [Option.some.injEq] at h1
      subst h1
      split at hcs
      · rename_i hwf
        simp only [Option.some.injEq] at hcs
        subst hcs
        simp only [chunksWF, Bool.and_eq_true, chunksLinkedBack, chunksFlagged, lengthsAligned, List.all_eq_true,
          decide_eq_true_eq, beq_iff_eq] at hwf
        obtain ⟨⟨⟨⟨h3, h4, h5⟩, h6⟩, h7⟩, h8⟩ := hwf
        obtain ⟨ds, rfl⟩ := chunkWalk_head h2
        exact ⟨by simp, layout_of_walk h2 (by simpa using h4) h5 h6, tiles_of_walk h3, noTwoFree_of_chunks h7,
          by simpa [chunkAt] using h8⟩
      · simp at hcs
    · simp at hcs
  · intro h
    obtain ⟨k, ks', rfl⟩ := List.exists_cons_of_ne_nil h.nonempty
    have hk : k.addr = s.cfg.arenaBase := h.tiles.1
    have hlen : (k :: ks').length ≤ size / s.cfg.hdr := by
      rw [Nat.le_div_iff_mul_le (by omega)]
      have := tiles_length h.tiles
      omega
    have hwalk := walk_of_layout h.layout (fun c hc => by have := (tiles_mem h.tiles hc).1; omega) hlen
    have hcl : s.chunkList = some ((k :: ks').map Chunk.addr) := by
      simp only [State.chunkList, ha, ← hk, hwalk]
    have hflag : chunksFlagged s.mem ((k :: ks').map Chunk.addr) = true := by
      simp only [chunksFlagged, List.all_eq_true, decide_eq_true_eq, List.mem_map]
      rintro c ⟨k', hk', rfl⟩
      obtain ⟨_, _, hh⟩ := layout_header h.layout hk'
      rw [hh.allocated]
      cases k'.allocated <;> simp [flagWord]
    have hal : lengthsAligned s.mem ((k :: ks').map Chunk.addr) = true := by
      simp only [lengthsAligned, List.all_eq_true, beq_iff_eq, List.mem_map]
      rintro c ⟨k', hk', rfl⟩
      obtain ⟨_, _, hh⟩ := layout_header h.layout hk'
      rw [hh.length]
      exact h.aligned k' hk'
    have hwf : chunksWF s.cfg s.mem (s.cfg.arenaBase + size) ((k :: ks').map Chunk.addr) = true := by
      have h1 := tile_of_tiles h.layout h.tiles
      have h2 := adjacent_prev_of_layout h.layout
      have h3 := chunks_noTwoFree h.layout h.noTwoFree
      have h4 : hdrPrev s.mem k.addr = 0 := h.layout.1.prev
      simp only [chunksWF, chunksLinkedBack, h1, h2, hflag, h3, hal, Bool.and_true, Bool.true_and]
      simp [h4]
    simp only [State.heapView, State.heapChunks, ha, hcl, State.arenaEnd, hwf, if_true, Option.map_some,
      map_chunkAt_of_layout h.layout]

end Sys2Proof.Laws
end

