-- ==== Sys2Proof/Laws/LayoutOps.lean ====
section
/-! SUPPORT. What Split, Absorb and a write of the allocated word do to a heap laid out in memory (40_heap.md R104, R105, R107, R108). -/

namespace Sys2Proof.Laws

open Sys2Proof Sys2Proof.Machine

/-- The chunk, or the chunk cut at `rs` bytes and its free tail (40_heap.md R104). -/
def splitChunk (hdr rs : Nat) (k : Chunk) : List Chunk :=
  if 8 + hdr ≤ k.len - rs then [⟨k.addr, rs, k.allocated⟩, ⟨k.addr + hdr + rs, k.len - rs - hdr, false⟩] else [k]

/-- The memory holds `ks`, linked and tiling the arena (HeapWF less its clauses 5 and 6). -/
structure Holds (cfg : Config) (m : Memory) (size : Nat) (ks : List Chunk) : Prop where
  layout : Layout m 0 ks 0
  tiles : Tiles cfg.hdr cfg.arenaBase ks (cfg.arenaBase + size)

/-- The parameters and the arena as every run has them. -/
structure ArenaOk (cfg : Config) (size : Nat) : Prop where
  hdr : 16 ≤ cfg.hdr
  base : cfg.arenaBase ≠ 0
  fits : cfg.arenaBase + size ≤ 4294967296
  below : size < 4294967296

/-- Around a chunk of the list: the chunks before it end where it starts, the chunks after it start where it ends. -/
theorem tiles_around {hdr a b : Nat} {pre post : List Chunk} {k : Chunk} (h : Tiles hdr a (pre ++ k :: post) b) :
    Tiles hdr a pre k.addr ∧ Tiles hdr (k.addr + hdr + k.len) post b := by
  obtain ⟨c, h1, h2, h3⟩ := (tiles_append _ _ _ _ _).1 h
  subst h2
  exact ⟨h1, h3⟩

theorem headAddr_tiles {hdr a b : Nat} {post : List Chunk} (h : Tiles hdr a post b) :
    post = [] ∨ headAddr 0 post = a := by
  cases post with
  | nil => exact .inl rfl
  | cons n ns => exact .inr h.1

theorem holds_split {cfg : Config} {m : Memory} {size rs : Nat} {pre post : List Chunk} {k : Chunk} (ok : ArenaOk cfg size)
    (h : Holds cfg m size (pre ++ k :: post)) (hrs : rs ≤ k.len) :
    Holds cfg (split cfg m k.addr rs) size (pre ++ splitChunk cfg.hdr rs k ++ post) := by
  obtain ⟨hp, hk, hpost⟩ : Layout m 0 pre k.addr ∧ HeaderIs m k.addr (headAddr 0 post) (lastAddr 0 pre) k.len
      (flagWord k.allocated) ∧ Layout m k.addr post 0 := (layout_append _ _ _ _ _).1 h.layout
  obtain ⟨tp, tq⟩ := tiles_around h.tiles
  have le1 := tiles_le tp
  have le2 := tiles_le tq
  have := ok.hdr
  have := ok.base
  have := ok.fits
  by_cases hs : 8 + cfg.hdr ≤ k.len - rs
  · have hnx : headAddr 0 post = 0 ∨ (headAddr 0 post < 4294967296 ∧ Apart (headAddr 0 post) k.addr ∧
        Apart (headAddr 0 post) (k.addr + cfg.hdr + rs)) := by
      cases post with
      | nil => exact .inl rfl
      | cons n ns =>
        have h1 : n.addr = k.addr + cfg.hdr + k.len := tq.1
        have h2 := (tiles_mem tq (List.mem_cons_self)).2
        refine .inr ?_
        simp only [headAddr, Apart]
        omega
    obtain ⟨s1, s2, s3⟩ := split_headers hk ok.hdr hs (by omega) hnx
    have hpre : Layout (split cfg m k.addr rs) 0 pre k.addr := hp.congr fun k' hk' x x1 x2 => by
      have := tiles_mem tp hk'
      refine read_split cfg m k.addr rs x (by omega) (by omega) fun hne => ?_
      rw [hk.next] at hne ⊢
      rcases headAddr_tiles tq with h | h
      · subst h; exact absurd rfl hne
      · omega
    have hpost' : Layout (split cfg m k.addr rs) (k.addr + cfg.hdr + rs) post 0 := by
      cases post with
      | nil => trivial
      | cons n ns =>
        have h1 : n.addr = k.addr + cfg.hdr + k.len := tq.1
        have hne : headAddr 0 (n :: ns) ≠ 0 := by simp only [headAddr]; omega
        refine ⟨s3 _ _ _ _ hne hpost.1, hpost.2.congr fun k' hk' x x1 x2 => ?_⟩
        have := tiles_mem tq.2 hk'
        refine read_split cfg m k.addr rs x (by omega) (by omega) fun _ => ?_
        rw [hk.next, headAddr]
        omega
    rw [splitChunk, if_pos hs]
    refine ⟨?_, ?_⟩
    · rw [List.append_assoc]
      exact (layout_append _ _ _ _ _).2 ⟨hpre, s1, s2, hpost'⟩
    · rw [List.append_assoc]
      refine (tiles_append _ _ _ _ _).2 ⟨k.addr, tp, rfl, rfl, ?_⟩
      simp only
      rwa [show k.addr + cfg.hdr + rs + cfg.hdr + (k.len - rs - cfg.hdr) = k.addr + cfg.hdr + k.len by omega]
  · rw [splitChunk, if_neg hs, split_whole (by rw [hk.length]; exact hs)]
    simpa using h

theorem holds_setAllocated {cfg : Config} {m : Memory} {size : Nat} {pre post : List Chunk} {k : Chunk} (ok : ArenaOk cfg size)
    (h : Holds cfg m size (pre ++ k :: post)) (b : Bool) :
    Holds cfg (setAllocated m k.addr (flagWord b)) size (pre ++ ⟨k.addr, k.len, b⟩ :: post) := by
  obtain ⟨hp, hk, hpost⟩ : Layout m 0 pre k.addr ∧ HeaderIs m k.addr (headAddr 0 post) (lastAddr 0 pre) k.len
      (flagWord k.allocated) ∧ Layout m k.addr post 0 := (layout_append _ _ _ _ _).1 h.layout
  obtain ⟨tp, tq⟩ := tiles_around h.tiles
  have := ok.hdr
  have hb : flagWord b < 4294967296 := by cases b <;> simp [flagWord]
  refine ⟨(layout_append _ _ _ _ _).2 ⟨hp.congr fun k' hk' x x1 x2 => ?_, hk.setAllocated hb, hpost.congr fun k' hk' x x1 x2 => ?_⟩,
    (tiles_append _ _ _ _ _).2 ⟨k.addr, tp, rfl, tq⟩⟩
  · have := tiles_mem tp hk'
    exact read_setAllocated _ _ _ _ (by omega)
  · have := tiles_mem tq hk'
    exact read_setAllocated _ _ _ _ (by omega)

theorem holds_absorb {cfg : Config} {m : Memory} {size : Nat} {pre post : List Chunk} {k n : Chunk} (ok : ArenaOk cfg size)
    (h : Holds cfg m size (pre ++ k :: n :: post)) :
    Holds cfg (absorb cfg m k.addr n.addr) size (pre ++ ⟨k.addr, k.len + cfg.hdr + n.len, k.allocated⟩ :: post) := by
  obtain ⟨hp, hk, hn, hpost⟩ : Layout m 0 pre k.addr ∧ HeaderIs m k.addr n.addr (lastAddr 0 pre) k.len
      (flagWord k.allocated) ∧ HeaderIs m n.addr (headAddr 0 post) k.addr n.len (flagWord n.allocated) ∧
      Layout m n.addr post 0 := (layout_append _ _ _ _ _).1 h.layout
  obtain ⟨tp, tn, tq⟩ := tiles_around h.tiles
  have le1 := tiles_le tp
  have le2 := tiles_le tq
  have := ok.hdr
  have := ok.base
  have := ok.fits
  have := ok.below
  have hnx : headAddr 0 post = 0 ∨ (headAddr 0 post < 4294967296 ∧ Apart (headAddr 0 post) k.addr) := by
    cases post with
    | nil => exact .inl rfl
    | cons q qs =>
      have h1 : q.addr = k.addr + cfg.hdr + k.len + cfg.hdr + n.len := tq.1
      have h2 := (tiles_mem tq (List.mem_cons_self)).2
      refine .inr ?_
      simp only [headAddr, Apart]
      omega
  obtain ⟨s1, s2⟩ := absorb_headers (cfg := cfg) hk hn (by omega) (by omega) hnx
  have hpre : Layout (absorb cfg m k.addr n.addr) 0 pre k.addr := hp.congr fun k' hk' x x1 x2 => by
    have := tiles_mem tp hk'
    refine read_absorb cfg m k.addr n.addr x (by omega) fun hne => ?_
    rw [hn.next] at hne ⊢
    rcases headAddr_tiles tq with h | h
    · subst h; exact absurd rfl hne
    · omega
  have hpost' : Layout (absorb cfg m k.addr n.addr) k.addr post 0 := by
    cases post with
    | nil => trivial
    | cons q qs =>
      have h1 : q.addr = k.addr + cfg.hdr + k.len + cfg.hdr + n.len := tq.1
      have hne : headAddr 0 (q :: qs) ≠ 0 := by simp only [headAddr]; omega
      refine ⟨s2 _ _ _ _ hne hpost.1, hpost.2.congr fun k' hk' x x1 x2 => ?_⟩
      have := tiles_mem tq.2 hk'
      refine read_absorb cfg m k.addr n.addr x (by omega) fun _ => ?_
      rw [hn.next, headAddr]
      omega
  refine ⟨(layout_append _ _ _ _ _).2 ⟨hpre, s1, hpost'⟩, (tiles_append _ _ _ _ _).2 ⟨k.addr, tp, rfl, ?_⟩⟩
  rwa [show k.addr + cfg.hdr + (k.len + cfg.hdr + n.len) = k.addr + cfg.hdr + k.len + cfg.hdr + n.len by omega]

/-- Bytes written outside every header leave the heap as it is. -/
theorem Holds.congr {cfg : Config} {m m' : Memory} {size : Nat} {ks : List Chunk} (h : Holds cfg m size ks)
    (hm : ∀ k ∈ ks, ∀ x, k.addr ≤ x → x < k.addr + 16 → m'.read x = m.read x) : Holds cfg m' size ks :=
  ⟨h.layout.congr hm, h.tiles⟩

/-- The header of one chunk of the list. -/
theorem Holds.header {cfg : Config} {m : Memory} {size : Nat} {pre post : List Chunk} {k : Chunk}
    (h : Holds cfg m size (pre ++ k :: post)) :
    HeaderIs m k.addr (headAddr 0 post) (lastAddr 0 pre) k.len (flagWord k.allocated) :=
  ((layout_append _ _ _ _ _).1 h.layout).2.1

/-! ## FREE -/

theorem lastAddr_concat (d : Nat) (ks : List Chunk) (q : Chunk) : lastAddr d (ks ++ [q]) = q.addr := by
  induction ks generalizing d with
  | nil => rfl
  | cons c cs ih => exact ih c.addr

/-- The second half of FREE: the chunk is absorbed into a free previous one. -/
def absorbBack (cfg : Config) (m : Memory) (c : Nat) : Memory :=
  if hdrPrev m c ≠ 0 ∧ hdrAllocated m (hdrPrev m c) = 0 then absorb cfg m (hdrPrev m c) c else m

/-- The first half of FREE: the chunk, just marked free, absorbs a free next one. -/
def absorbForward (cfg : Config) (m : Memory) (c : Nat) : Memory :=
  if hdrNext m c ≠ 0 ∧ hdrAllocated m (hdrNext m c) = 0 then absorb cfg m c (hdrNext m c) else m

theorem freeChunk_eq (cfg : Config) (m : Memory) (c : Nat) :
    freeChunk cfg m c = absorbBack cfg (absorbForward cfg (setAllocated m c 0) c) c := rfl

/-- The chunk and the chunks after it, once a free next chunk is absorbed (40_heap.md R108). -/
def mergeForward (hdr : Nat) (k : Chunk) : List Chunk → List Chunk
  | [] => [k]
  | n :: post => if n.allocated = false then ⟨k.addr, k.len + hdr + n.len, k.allocated⟩ :: post else k :: n :: post

theorem holds_absorbForward {cfg : Config} {m : Memory} {size : Nat} {pre post : List Chunk} {k : Chunk} (ok : ArenaOk cfg size)
    (h : Holds cfg m size (pre ++ k :: post)) :
    Holds cfg (absorbForward cfg m k.addr) size (pre ++ mergeForward cfg.hdr k post) := by
  have hbase := ok.base
  have hnext : hdrNext m k.addr = headAddr 0 post := h.header.next
  unfold absorbForward
  rw [hnext]
  cases post with
  | nil => rw [if_neg (by simp [headAddr])]; exact h
  | cons n ns =>
    have hn : HeaderIs m n.addr (headAddr 0 ns) k.addr n.len (flagWord n.allocated) :=
      ((layout_append _ _ _ _ _).1 h.layout).2.2.1
    have hn0 : n.addr ≠ 0 := by
      have := (tiles_mem h.tiles (k := n) (by simp)).1
      omega
    rw [headAddr, hn.allocated]
    by_cases hna : n.allocated = false
    · rw [if_pos ⟨hn0, by simp [hna, flagWord]⟩, mergeForward, if_pos hna]
      exact holds_absorb ok h
    · rw [if_neg (by simp [hna, flagWord]), mergeForward, if_neg hna]
      exact h

/-- With a free chunk before it, the chunk is absorbed. -/
theorem holds_absorbBack_free {cfg : Config} {m : Memory} {size : Nat} {pre post : List Chunk} {q k : Chunk}
    (ok : ArenaOk cfg size) (h : Holds cfg m size (pre ++ q :: k :: post)) (hq : q.allocated = false) :
    Holds cfg (absorbBack cfg m k.addr) size (pre ++ ⟨q.addr, q.len + cfg.hdr + k.len, false⟩ :: post) := by
  have hbase := ok.base
  have hh := h.header
  have hk : hdrPrev m k.addr = q.addr := ((layout_append _ _ _ _ _).1 h.layout).2.2.1.prev
  have hq0 : q.addr ≠ 0 := by
    have := (tiles_mem h.tiles (k := q) (by simp)).1
    omega
  unfold absorbBack
  rw [hk, hh.allocated, if_pos ⟨hq0, by simp [hq, flagWord]⟩]
  have := holds_absorb ok h
  rwa [hq] at this

/-- With no chunk before it, or an allocated one, nothing more is written. -/
theorem absorbBack_eq {cfg : Config} {m : Memory} {size : Nat} {pre post : List Chunk} {k : Chunk}
    (h : Holds cfg m size (pre ++ k :: post)) (hq : ∀ q ∈ pre.getLast?, q.allocated = true) :
    absorbBack cfg m k.addr = m := by
  have hk : hdrPrev m k.addr = lastAddr 0 pre := h.header.prev
  unfold absorbBack
  refine if_neg ?_
  rintro ⟨h1, h2⟩
  rcases List.eq_nil_or_concat pre with rfl | ⟨pre', q, rfl⟩
  · exact h1 hk
  · rw [hk, List.concat_eq_append, lastAddr_concat] at h2
    rw [List.concat_eq_append, List.append_assoc] at h
    have := h.header.allocated
    rw [h2, hq q (by simp)] at this
    simp [flagWord] at this

end Sys2Proof.Laws
end

