-- ==== Sys2Proof/Laws/State.lean ====
section
/-! SUPPORT. One lemma per field per update of the state, and the fields of STATUS after each write of it. -/

namespace Sys2Proof.Laws

open Sys2Proof Sys2Proof.Machine

/-! ## Registers -/

@[simp] theorem setA_a0 (s : State) (v : Word) : s.setA .a0 v = { s with a0 := ⟨v, true⟩ } := rfl
@[simp] theorem setA_a1 (s : State) (v : Word) : s.setA .a1 v = { s with a1 := ⟨v, true⟩ } := rfl
@[simp] theorem setA_a2 (s : State) (v : Word) : s.setA .a2 v = { s with a2 := ⟨v, true⟩ } := rfl
@[simp] theorem setA_a3 (s : State) (v : Word) : s.setA .a3 v = { s with a3 := ⟨v, true⟩ } := rfl
@[simp] theorem setW_w0 (s : State) (v : DWord) : s.setW .w0 v = { s with w0 := ⟨v, true⟩ } := rfl
@[simp] theorem setW_w1 (s : State) (v : DWord) : s.setW .w1 v = { s with w1 := ⟨v, true⟩ } := rfl
@[simp] theorem getA_a0 (s : State) : s.getA .a0 = s.a0 := rfl
@[simp] theorem getA_a1 (s : State) : s.getA .a1 = s.a1 := rfl
@[simp] theorem getA_a2 (s : State) : s.getA .a2 = s.a2 := rfl
@[simp] theorem getA_a3 (s : State) : s.getA .a3 = s.a3 := rfl
@[simp] theorem getW_w0 (s : State) : s.getW .w0 = s.w0 := rfl
@[simp] theorem getW_w1 (s : State) : s.getW .w1 = s.w1 := rfl

theorem getA_setA_same (s : State) (r : AReg) (v : Word) : (s.setA r v).getA r = ⟨v, true⟩ := by cases r <;> rfl
theorem getA_setA_other (s : State) (r q : AReg) (v : Word) (h : q ≠ r) : (s.setA r v).getA q = s.getA q := by
  cases r <;> cases q <;> first | rfl | exact absurd rfl h
theorem getW_setW_same (s : State) (r : WReg) (v : DWord) : (s.setW r v).getW r = ⟨v, true⟩ := by cases r <;> rfl
theorem getW_setW_other (s : State) (r q : WReg) (v : DWord) (h : q ≠ r) : (s.setW r v).getW q = s.getW q := by
  cases r <;> cases q <;> first | rfl | exact absurd rfl h
@[simp] theorem getW_setA (s : State) (r : AReg) (q : WReg) (v : Word) : (s.setA r v).getW q = s.getW q := by
  cases r <;> cases q <;> rfl
@[simp] theorem getA_setW (s : State) (r : WReg) (q : AReg) (v : DWord) : (s.setW r v).getA q = s.getA q := by
  cases r <;> cases q <;> rfl

@[simp] theorem setA_cfg_eq (s : State) (r : AReg) (v : Word) : (s.setA r v).cfg = s.cfg := by cases r <;> rfl
@[simp] theorem setA_w0_eq (s : State) (r : AReg) (v : Word) : (s.setA r v).w0 = s.w0 := by cases r <;> rfl
@[simp] theorem setA_w1_eq (s : State) (r : AReg) (v : Word) : (s.setA r v).w1 = s.w1 := by cases r <;> rfl
@[simp] theorem setA_status_eq (s : State) (r : AReg) (v : Word) : (s.setA r v).status = s.status := by cases r <;> rfl
@[simp] theorem setA_mem_eq (s : State) (r : AReg) (v : Word) : (s.setA r v).mem = s.mem := by cases r <;> rfl
@[simp] theorem setA_arenaSize_eq (s : State) (r : AReg) (v : Word) : (s.setA r v).arenaSize = s.arenaSize := by cases r <;> rfl
@[simp] theorem setA_headerOverwritten_eq (s : State) (r : AReg) (v : Word) : (s.setA r v).headerOverwritten = s.headerOverwritten := by cases r <;> rfl
@[simp] theorem setA_pending_eq (s : State) (r : AReg) (v : Word) : (s.setA r v).pending = s.pending := by cases r <;> rfl
@[simp] theorem setA_responses_eq (s : State) (r : AReg) (v : Word) : (s.setA r v).responses = s.responses := by cases r <;> rfl
@[simp] theorem setA_unwrittenRegisterViolation_eq (s : State) (r : AReg) (v : Word) : (s.setA r v).unwrittenRegisterViolation = s.unwrittenRegisterViolation := by cases r <;> rfl
@[simp] theorem setA_draws_eq (s : State) (r : AReg) (v : Word) : (s.setA r v).draws = s.draws := by cases r <;> rfl
@[simp] theorem setW_cfg_eq (s : State) (r : WReg) (v : DWord) : (s.setW r v).cfg = s.cfg := by cases r <;> rfl
@[simp] theorem setW_a0_eq (s : State) (r : WReg) (v : DWord) : (s.setW r v).a0 = s.a0 := by cases r <;> rfl
@[simp] theorem setW_a1_eq (s : State) (r : WReg) (v : DWord) : (s.setW r v).a1 = s.a1 := by cases r <;> rfl
@[simp] theorem setW_a2_eq (s : State) (r : WReg) (v : DWord) : (s.setW r v).a2 = s.a2 := by cases r <;> rfl
@[simp] theorem setW_a3_eq (s : State) (r : WReg) (v : DWord) : (s.setW r v).a3 = s.a3 := by cases r <;> rfl
@[simp] theorem setW_status_eq (s : State) (r : WReg) (v : DWord) : (s.setW r v).status = s.status := by cases r <;> rfl
@[simp] theorem setW_mem_eq (s : State) (r : WReg) (v : DWord) : (s.setW r v).mem = s.mem := by cases r <;> rfl
@[simp] theorem setW_arenaSize_eq (s : State) (r : WReg) (v : DWord) : (s.setW r v).arenaSize = s.arenaSize := by cases r <;> rfl
@[simp] theorem setW_headerOverwritten_eq (s : State) (r : WReg) (v : DWord) : (s.setW r v).headerOverwritten = s.headerOverwritten := by cases r <;> rfl
@[simp] theorem setW_pending_eq (s : State) (r : WReg) (v : DWord) : (s.setW r v).pending = s.pending := by cases r <;> rfl
@[simp] theorem setW_responses_eq (s : State) (r : WReg) (v : DWord) : (s.setW r v).responses = s.responses := by cases r <;> rfl
@[simp] theorem setW_unwrittenRegisterViolation_eq (s : State) (r : WReg) (v : DWord) : (s.setW r v).unwrittenRegisterViolation = s.unwrittenRegisterViolation := by cases r <;> rfl
@[simp] theorem setW_draws_eq (s : State) (r : WReg) (v : DWord) : (s.setW r v).draws = s.draws := by cases r <;> rfl

/-! ## setMem -/

@[simp] theorem setMem_cfg (s : State) (m : Memory) : (s.setMem m).cfg = s.cfg := rfl
@[simp] theorem setMem_a0 (s : State) (m : Memory) : (s.setMem m).a0 = s.a0 := rfl
@[simp] theorem setMem_a1 (s : State) (m : Memory) : (s.setMem m).a1 = s.a1 := rfl
@[simp] theorem setMem_a2 (s : State) (m : Memory) : (s.setMem m).a2 = s.a2 := rfl
@[simp] theorem setMem_a3 (s : State) (m : Memory) : (s.setMem m).a3 = s.a3 := rfl
@[simp] theorem setMem_w0 (s : State) (m : Memory) : (s.setMem m).w0 = s.w0 := rfl
@[simp] theorem setMem_w1 (s : State) (m : Memory) : (s.setMem m).w1 = s.w1 := rfl
@[simp] theorem setMem_status (s : State) (m : Memory) : (s.setMem m).status = s.status := rfl
@[simp] theorem setMem_mem (s : State) (m : Memory) : (s.setMem m).mem = m := rfl
@[simp] theorem setMem_arenaSize (s : State) (m : Memory) : (s.setMem m).arenaSize = s.arenaSize := rfl
@[simp] theorem setMem_headerOverwritten (s : State) (m : Memory) : (s.setMem m).headerOverwritten = s.headerOverwritten := rfl
@[simp] theorem setMem_pending (s : State) (m : Memory) : (s.setMem m).pending = s.pending := rfl
@[simp] theorem setMem_responses (s : State) (m : Memory) : (s.setMem m).responses = s.responses := rfl
@[simp] theorem setMem_unwrittenRegisterViolation (s : State) (m : Memory) : (s.setMem m).unwrittenRegisterViolation = s.unwrittenRegisterViolation := rfl
@[simp] theorem setMem_draws (s : State) (m : Memory) : (s.setMem m).draws = s.draws := rfl

/-! ## Halt entry -/

@[simp] theorem enterHalt_cfg (s : State) (c : Byte) : (s.enterHalt c).cfg = s.cfg := rfl
@[simp] theorem enterHalt_a0 (s : State) (c : Byte) : (s.enterHalt c).a0 = s.a0 := rfl
@[simp] theorem enterHalt_a1 (s : State) (c : Byte) : (s.enterHalt c).a1 = s.a1 := rfl
@[simp] theorem enterHalt_a2 (s : State) (c : Byte) : (s.enterHalt c).a2 = s.a2 := rfl
@[simp] theorem enterHalt_a3 (s : State) (c : Byte) : (s.enterHalt c).a3 = s.a3 := rfl
@[simp] theorem enterHalt_w0 (s : State) (c : Byte) : (s.enterHalt c).w0 = s.w0 := rfl
@[simp] theorem enterHalt_w1 (s : State) (c : Byte) : (s.enterHalt c).w1 = s.w1 := rfl
@[simp] theorem enterHalt_status (s : State) (c : Byte) : (s.enterHalt c).status = statusSetHalt s.status c := rfl
@[simp] theorem enterHalt_mem (s : State) (c : Byte) : (s.enterHalt c).mem = s.mem := rfl
@[simp] theorem enterHalt_arenaSize (s : State) (c : Byte) : (s.enterHalt c).arenaSize = s.arenaSize := rfl
@[simp] theorem enterHalt_headerOverwritten (s : State) (c : Byte) : (s.enterHalt c).headerOverwritten = s.headerOverwritten := rfl
@[simp] theorem enterHalt_pending (s : State) (c : Byte) : (s.enterHalt c).pending = s.pending := rfl
@[simp] theorem enterHalt_responses (s : State) (c : Byte) : (s.enterHalt c).responses = s.responses := rfl
@[simp] theorem enterHalt_unwrittenRegisterViolation (s : State) (c : Byte) : (s.enterHalt c).unwrittenRegisterViolation = s.unwrittenRegisterViolation := rfl
@[simp] theorem enterHalt_draws (s : State) (c : Byte) : (s.enterHalt c).draws = s.draws := rfl

/-! ## Stores into buffers -/

@[simp] theorem storeBytes_cfg (s : State) (a : Nat) (bs : List Byte) : (s.storeBytes a bs).cfg = s.cfg := rfl
@[simp] theorem storeBytes_a0 (s : State) (a : Nat) (bs : List Byte) : (s.storeBytes a bs).a0 = s.a0 := rfl
@[simp] theorem storeBytes_a1 (s : State) (a : Nat) (bs : List Byte) : (s.storeBytes a bs).a1 = s.a1 := rfl
@[simp] theorem storeBytes_a2 (s : State) (a : Nat) (bs : List Byte) : (s.storeBytes a bs).a2 = s.a2 := rfl
@[simp] theorem storeBytes_a3 (s : State) (a : Nat) (bs : List Byte) : (s.storeBytes a bs).a3 = s.a3 := rfl
@[simp] theorem storeBytes_w0 (s : State) (a : Nat) (bs : List Byte) : (s.storeBytes a bs).w0 = s.w0 := rfl
@[simp] theorem storeBytes_w1 (s : State) (a : Nat) (bs : List Byte) : (s.storeBytes a bs).w1 = s.w1 := rfl
@[simp] theorem storeBytes_status (s : State) (a : Nat) (bs : List Byte) : (s.storeBytes a bs).status = s.status := rfl
@[simp] theorem storeBytes_mem (s : State) (a : Nat) (bs : List Byte) : (s.storeBytes a bs).mem = s.mem.writeBytes a bs := rfl
@[simp] theorem storeBytes_arenaSize (s : State) (a : Nat) (bs : List Byte) : (s.storeBytes a bs).arenaSize = s.arenaSize := rfl
@[simp] theorem storeBytes_headerOverwritten (s : State) (a : Nat) (bs : List Byte) : (s.storeBytes a bs).headerOverwritten = (s.headerOverwritten || s.touchesLiveHeader a bs.length) := rfl
@[simp] theorem storeBytes_pending (s : State) (a : Nat) (bs : List Byte) : (s.storeBytes a bs).pending = s.pending := rfl
@[simp] theorem storeBytes_responses (s : State) (a : Nat) (bs : List Byte) : (s.storeBytes a bs).responses = s.responses := rfl
@[simp] theorem storeBytes_unwrittenRegisterViolation (s : State) (a : Nat) (bs : List Byte) : (s.storeBytes a bs).unwrittenRegisterViolation = s.unwrittenRegisterViolation := rfl
@[simp] theorem storeBytes_draws (s : State) (a : Nat) (bs : List Byte) : (s.storeBytes a bs).draws = s.draws := rfl

/-! ## The result of a shift -/

@[simp] theorem setWide_cfg (s : State) (v : DWord × DWord) : (s.setWide v).cfg = s.cfg := rfl
@[simp] theorem setWide_a0 (s : State) (v : DWord × DWord) : (s.setWide v).a0 = s.a0 := rfl
@[simp] theorem setWide_a1 (s : State) (v : DWord × DWord) : (s.setWide v).a1 = s.a1 := rfl
@[simp] theorem setWide_a2 (s : State) (v : DWord × DWord) : (s.setWide v).a2 = s.a2 := rfl
@[simp] theorem setWide_a3 (s : State) (v : DWord × DWord) : (s.setWide v).a3 = s.a3 := rfl
@[simp] theorem setWide_w0 (s : State) (v : DWord × DWord) : (s.setWide v).w0 = ⟨v.1, true⟩ := rfl
@[simp] theorem setWide_w1 (s : State) (v : DWord × DWord) : (s.setWide v).w1 = ⟨v.2, true⟩ := rfl
@[simp] theorem setWide_status (s : State) (v : DWord × DWord) : (s.setWide v).status = s.status := rfl
@[simp] theorem setWide_mem (s : State) (v : DWord × DWord) : (s.setWide v).mem = s.mem := rfl
@[simp] theorem setWide_arenaSize (s : State) (v : DWord × DWord) : (s.setWide v).arenaSize = s.arenaSize := rfl
@[simp] theorem setWide_headerOverwritten (s : State) (v : DWord × DWord) : (s.setWide v).headerOverwritten = s.headerOverwritten := rfl
@[simp] theorem setWide_pending (s : State) (v : DWord × DWord) : (s.setWide v).pending = s.pending := rfl
@[simp] theorem setWide_responses (s : State) (v : DWord × DWord) : (s.setWide v).responses = s.responses := rfl
@[simp] theorem setWide_unwrittenRegisterViolation (s : State) (v : DWord × DWord) : (s.setWide v).unwrittenRegisterViolation = s.unwrittenRegisterViolation := rfl
@[simp] theorem setWide_draws (s : State) (v : DWord × DWord) : (s.setWide v).draws = s.draws := rfl

/-! ## Responses -/

@[simp] theorem respond_cfg (s : State) (v : Response) : (s.respond v).cfg = s.cfg := rfl
@[simp] theorem respond_a0 (s : State) (v : Response) : (s.respond v).a0 = s.a0 := rfl
@[simp] theorem respond_a1 (s : State) (v : Response) : (s.respond v).a1 = s.a1 := rfl
@[simp] theorem respond_a2 (s : State) (v : Response) : (s.respond v).a2 = s.a2 := rfl
@[simp] theorem respond_a3 (s : State) (v : Response) : (s.respond v).a3 = s.a3 := rfl
@[simp] theorem respond_w0 (s : State) (v : Response) : (s.respond v).w0 = s.w0 := rfl
@[simp] theorem respond_w1 (s : State) (v : Response) : (s.respond v).w1 = s.w1 := rfl
@[simp] theorem respond_status (s : State) (v : Response) : (s.respond v).status = s.status := rfl
@[simp] theorem respond_mem (s : State) (v : Response) : (s.respond v).mem = s.mem := rfl
@[simp] theorem respond_arenaSize (s : State) (v : Response) : (s.respond v).arenaSize = s.arenaSize := rfl
@[simp] theorem respond_headerOverwritten (s : State) (v : Response) : (s.respond v).headerOverwritten = s.headerOverwritten := rfl
@[simp] theorem respond_pending (s : State) (v : Response) : (s.respond v).pending = s.pending := rfl
@[simp] theorem respond_responses (s : State) (v : Response) : (s.respond v).responses = v :: s.responses := rfl
@[simp] theorem respond_unwrittenRegisterViolation (s : State) (v : Response) : (s.respond v).unwrittenRegisterViolation = s.unwrittenRegisterViolation := rfl
@[simp] theorem respond_draws (s : State) (v : Response) : (s.respond v).draws = s.draws := rfl

/-! ## Reset -/

@[simp] theorem applyReset_cfg (s : State) : (s.applyReset).cfg = s.cfg := rfl
@[simp] theorem applyReset_a0 (s : State) : (s.applyReset).a0 = ⟨0#32, false⟩ := rfl
@[simp] theorem applyReset_a1 (s : State) : (s.applyReset).a1 = ⟨0#32, false⟩ := rfl
@[simp] theorem applyReset_a2 (s : State) : (s.applyReset).a2 = ⟨0#32, false⟩ := rfl
@[simp] theorem applyReset_a3 (s : State) : (s.applyReset).a3 = ⟨0#32, false⟩ := rfl
@[simp] theorem applyReset_w0 (s : State) : (s.applyReset).w0 = ⟨0#64, false⟩ := rfl
@[simp] theorem applyReset_w1 (s : State) : (s.applyReset).w1 = ⟨0#64, false⟩ := rfl
@[simp] theorem applyReset_status (s : State) : (s.applyReset).status = 0#32 := rfl
@[simp] theorem applyReset_mem (s : State) : (s.applyReset).mem = s.mem := rfl
@[simp] theorem applyReset_arenaSize (s : State) : (s.applyReset).arenaSize = none := rfl
@[simp] theorem applyReset_headerOverwritten (s : State) : (s.applyReset).headerOverwritten = false := rfl
@[simp] theorem applyReset_pending (s : State) : (s.applyReset).pending = s.pending := rfl
@[simp] theorem applyReset_responses (s : State) : (s.applyReset).responses = s.responses := rfl
@[simp] theorem applyReset_unwrittenRegisterViolation (s : State) : (s.applyReset).unwrittenRegisterViolation = s.unwrittenRegisterViolation := rfl
@[simp] theorem applyReset_draws (s : State) : (s.applyReset).draws = s.draws := rfl

/-! ## The record of operands -/

@[simp] theorem recordOperands_cfg (s : State) (i : Instr) : (s.recordOperands i).cfg = s.cfg := rfl
@[simp] theorem recordOperands_a0 (s : State) (i : Instr) : (s.recordOperands i).a0 = s.a0 := rfl
@[simp] theorem recordOperands_a1 (s : State) (i : Instr) : (s.recordOperands i).a1 = s.a1 := rfl
@[simp] theorem recordOperands_a2 (s : State) (i : Instr) : (s.recordOperands i).a2 = s.a2 := rfl
@[simp] theorem recordOperands_a3 (s : State) (i : Instr) : (s.recordOperands i).a3 = s.a3 := rfl
@[simp] theorem recordOperands_w0 (s : State) (i : Instr) : (s.recordOperands i).w0 = s.w0 := rfl
@[simp] theorem recordOperands_w1 (s : State) (i : Instr) : (s.recordOperands i).w1 = s.w1 := rfl
@[simp] theorem recordOperands_status (s : State) (i : Instr) : (s.recordOperands i).status = s.status := rfl
@[simp] theorem recordOperands_mem (s : State) (i : Instr) : (s.recordOperands i).mem = s.mem := rfl
@[simp] theorem recordOperands_arenaSize (s : State) (i : Instr) : (s.recordOperands i).arenaSize = s.arenaSize := rfl
@[simp] theorem recordOperands_headerOverwritten (s : State) (i : Instr) : (s.recordOperands i).headerOverwritten = s.headerOverwritten := rfl
@[simp] theorem recordOperands_pending (s : State) (i : Instr) : (s.recordOperands i).pending = s.pending := rfl
@[simp] theorem recordOperands_responses (s : State) (i : Instr) : (s.recordOperands i).responses = s.responses := rfl
@[simp] theorem recordOperands_draws (s : State) (i : Instr) : (s.recordOperands i).draws = s.draws := rfl
@[simp] theorem recordOperands_unwrittenRegisterViolation (s : State) (i : Instr) :
    (s.recordOperands i).unwrittenRegisterViolation = (s.unwrittenRegisterViolation || !s.operandsWritten i) := rfl

/-! ## Reads of the port -/

@[simp] theorem portRead_cfg (s : State) (r : PortReg) : (s.portRead r).cfg = s.cfg := by
  unfold State.portRead State.respondDraw State.respond; split <;> cases r <;> rfl
@[simp] theorem portRead_a0 (s : State) (r : PortReg) : (s.portRead r).a0 = s.a0 := by
  unfold State.portRead State.respondDraw State.respond; split <;> cases r <;> rfl
@[simp] theorem portRead_a1 (s : State) (r : PortReg) : (s.portRead r).a1 = s.a1 := by
  unfold State.portRead State.respondDraw State.respond; split <;> cases r <;> rfl
@[simp] theorem portRead_a2 (s : State) (r : PortReg) : (s.portRead r).a2 = s.a2 := by
  unfold State.portRead State.respondDraw State.respond; split <;> cases r <;> rfl
@[simp] theorem portRead_a3 (s : State) (r : PortReg) : (s.portRead r).a3 = s.a3 := by
  unfold State.portRead State.respondDraw State.respond; split <;> cases r <;> rfl
@[simp] theorem portRead_w0 (s : State) (r : PortReg) : (s.portRead r).w0 = s.w0 := by
  unfold State.portRead State.respondDraw State.respond; split <;> cases r <;> rfl
@[simp] theorem portRead_w1 (s : State) (r : PortReg) : (s.portRead r).w1 = s.w1 := by
  unfold State.portRead State.respondDraw State.respond; split <;> cases r <;> rfl
@[simp] theorem portRead_status (s : State) (r : PortReg) : (s.portRead r).status = s.status := by
  unfold State.portRead State.respondDraw State.respond; split <;> cases r <;> rfl
@[simp] theorem portRead_mem (s : State) (r : PortReg) : (s.portRead r).mem = s.mem := by
  unfold State.portRead State.respondDraw State.respond; split <;> cases r <;> rfl
@[simp] theorem portRead_arenaSize (s : State) (r : PortReg) : (s.portRead r).arenaSize = s.arenaSize := by
  unfold State.portRead State.respondDraw State.respond; split <;> cases r <;> rfl
@[simp] theorem portRead_headerOverwritten (s : State) (r : PortReg) : (s.portRead r).headerOverwritten = s.headerOverwritten := by
  unfold State.portRead State.respondDraw State.respond; split <;> cases r <;> rfl
@[simp] theorem portRead_unwrittenRegisterViolation (s : State) (r : PortReg) :
    (s.portRead r).unwrittenRegisterViolation = s.unwrittenRegisterViolation := by
  unfold State.portRead State.respondDraw State.respond; split <;> cases r <;> rfl
@[simp] theorem portRead_pending (s : State) (r : PortReg) : (s.portRead r).pending = s.pending := by
  unfold State.portRead State.respondDraw State.respond; split <;> cases r <;> rfl

/-! ## STATUS (10_state.md R24) -/

@[simp] theorem statusInit_setInit (st : Word) : statusInit (statusSetInit st) = true := by
  simp [statusInit, statusSetInit]

@[simp] theorem statusHalt_setInit (st : Word) : statusHalt (statusSetInit st) = statusHalt st := by
  simp [statusHalt, statusSetInit]

@[simp] theorem statusHalt_setHalt (st : Word) (c : Byte) : statusHalt (statusSetHalt st c) = true := by
  simp [statusHalt, statusSetHalt]

@[simp] theorem statusInit_setHalt (st : Word) (c : Byte) : statusInit (statusSetHalt st c) = statusInit st := by
  simp [statusInit, statusSetHalt]

@[simp] theorem statusCause_setHalt (st : Word) (c : Byte) : statusCause (statusSetHalt st c) = c := by
  refine BitVec.eq_of_getLsbD_eq fun i hi => ?_
  simp only [statusCause, statusSetHalt, BitVec.getLsbD_extractLsb', BitVec.getLsbD_or, BitVec.getLsbD_and,
    BitVec.getLsbD_shiftLeft, BitVec.getLsbD_setWidth]
  interval_cases i <;> simp

@[simp] theorem statusCause_setInit (st : Word) : statusCause (statusSetInit st) = statusCause st := by
  refine BitVec.eq_of_getLsbD_eq fun i hi => ?_
  simp only [statusCause, statusSetInit, BitVec.getLsbD_extractLsb', BitVec.getLsbD_or]
  interval_cases i <;> simp

@[simp] theorem statusReserved_setInit (st : Word) : statusReserved (statusSetInit st) = statusReserved st := by
  refine BitVec.eq_of_getLsbD_eq fun i hi => ?_
  simp only [statusReserved, statusSetInit, BitVec.getLsbD_and, BitVec.getLsbD_or]
  interval_cases i <;> simp

@[simp] theorem statusReserved_setHalt (st : Word) (c : Byte) : statusReserved (statusSetHalt st c) = statusReserved st := by
  refine BitVec.eq_of_getLsbD_eq fun i hi => ?_
  simp only [statusReserved, statusSetHalt, BitVec.getLsbD_or, BitVec.getLsbD_and, BitVec.getLsbD_shiftLeft,
    BitVec.getLsbD_setWidth]
  interval_cases i <;> simp

end Sys2Proof.Laws
end

