-- ==== Sys2Proof/Laws/Commands.lean ====
section
/-! SUPPORT. Once for each shared operation of the commands: when it answers a next state, what that state is; and that every operation on
memory keeps the canonical form. -/

namespace Sys2Proof.Laws

open Sys2Proof Sys2Proof.Machine

/-! ## The canonical form of memory -/

theorem wf_setNext {m : Memory} (h : m.wf) (c v : Nat) : (setNext m c v).wf := wf_memWrite h _ _ _
theorem wf_setPrev {m : Memory} (h : m.wf) (c v : Nat) : (setPrev m c v).wf := wf_memWrite h _ _ _
theorem wf_setLength {m : Memory} (h : m.wf) (c v : Nat) : (setLength m c v).wf := wf_memWrite h _ _ _
theorem wf_setAllocated {m : Memory} (h : m.wf) (c v : Nat) : (setAllocated m c v).wf := wf_memWrite h _ _ _

theorem wf_split {m : Memory} (h : m.wf) (cfg : Config) (c rs : Nat) : (split cfg m c rs).wf := by
  unfold split
  dsimp only
  split
  · have h4 := wf_setAllocated (wf_setLength (wf_setPrev (wf_setNext h (c + cfg.hdr + rs) (hdrNext m c)) (c + cfg.hdr + rs) c)
      (c + cfg.hdr + rs) (hdrLength m c - rs - cfg.hdr)) (c + cfg.hdr + rs) 0
    refine wf_setLength (wf_setNext ?_ _ _) _ _
    split
    · exact h4
    · exact wf_setPrev h4 _ _
  · exact h

theorem wf_absorb {m : Memory} (h : m.wf) (cfg : Config) (c n : Nat) : (absorb cfg m c n).wf := by
  unfold absorb
  dsimp only
  have h2 := wf_setNext (wf_setLength h c (hdrLength m c + cfg.hdr + hdrLength m n)) c (hdrNext m n)
  split
  · exact h2
  · exact wf_setPrev h2 _ _

theorem wf_freeChunk {m : Memory} (h : m.wf) (cfg : Config) (c : Nat) : (freeChunk cfg m c).wf := by
  rw [freeChunk_eq]
  have h1 := wf_setAllocated h c 0
  have h2 : (absorbForward cfg (setAllocated m c 0) c).wf := by
    unfold absorbForward
    split
    · exact wf_absorb h1 _ _ _
    · exact h1
  unfold absorbBack
  split
  · exact wf_absorb h2 _ _ _
  · exact h2

theorem wf_copyUnits {m : Memory} (h : m.wf) (p q n : Nat) : (copyUnits m p q n).wf := by
  induction n with
  | zero => exact h
  | succ n ih => exact wf_memWrite ih _ _ _

theorem wf_initHeader {m : Memory} (h : m.wf) (cfg : Config) (size : Nat) : (initHeader cfg m size).wf :=
  wf_setAllocated (wf_setLength (wf_setPrev (wf_setNext h _ _) _ _) _ _) _ _

/-! ## Heap commands -/

/-- The heap commands' common conditions, when they answer a next state. -/
theorem withHeap_next {s t : State} {body : List Nat → Result} (h : s.withHeap body = .next t) :
    s.initialised = true ∧ s.headerOverwritten = false ∧
      ∃ cs, s.heapChunks = some cs ∧ backed s.cfg s.cfg.arenaBase (s.arenaSize.getD 0) = true ∧ body cs = .next t := by
  unfold State.withHeap at h
  split at h
  · cases h
  · split at h
    · cases h
    · split at h
      · cases h
      · split at h
        · cases h
        · exact ⟨by simp_all, by simp_all, _, ‹_›, by simp_all, h⟩

/-- Where a heap command is ready it runs its own rule over the chunk list. -/
theorem withHeap_ready {s : State} {cs : List Nat} (h : s.HeapReady cs) (body : List Nat → Result) :
    s.withHeap body = body cs := by
  obtain ⟨-, h1, h2, h3, h4⟩ := h
  simp [State.withHeap, h1, h2, h3, h4]

theorem execAlloc_ready {s : State} {cs : List Nat} (h : s.HeapReady cs) :
    execAlloc s = (match allocChunk s.cfg s.mem cs (s.opA .a0) with
      | none => .next (s.enterHalt causeOOM)
      | some (m, c) => .next ((s.setMem m).setA .a0 (BitVec.ofNat 32 (c + s.cfg.hdr)))) :=
  withHeap_ready h _

theorem execFree_ready {s : State} {cs : List Nat} (h : s.HeapReady cs) :
    execFree s = (if s.opA .a0 = 0 then .next s
      else if !validPointer s.cfg s.mem cs (s.opA .a0) then .fault .badFree
      else .next (s.setMem (freeChunk s.cfg s.mem (s.opA .a0 - s.cfg.hdr)))) :=
  withHeap_ready h _

theorem execRealloc_ready {s : State} {cs : List Nat} (h : s.HeapReady cs) :
    execRealloc s = (if !validPointer s.cfg s.mem cs (s.opA .a0) then .fault .badRealloc
      else if reallocFitsInPlace s.cfg s.mem (s.opA .a0 - s.cfg.hdr) (s.opA .a1) then
        .next (s.setMem (reallocInPlace s.cfg s.mem (s.opA .a0 - s.cfg.hdr) (s.opA .a1)))
      else reallocCopy s cs (s.opA .a0 - s.cfg.hdr) (s.opA .a1)) :=
  withHeap_ready h _

/-- What ALLOC's work on memory grants. -/
theorem allocChunk_some {cfg : Config} {m m' : Memory} {cs : List Nat} {size c : Nat} (h : allocChunk cfg m cs size = some (m', c)) :
    firstFit m cs (round8 size) = some c ∧ m' = setAllocated (split cfg m c (round8 size)) c 1 := by
  unfold allocChunk at h
  split at h
  · cases h
  · simp only [Option.some.injEq, Prod.mk.injEq] at h
    obtain ⟨h1, rfl⟩ := h
    exact ⟨‹_›, h1.symm⟩

/-- A first fit is a free, long enough chunk of the list. -/
theorem firstFit_some {m : Memory} {cs : List Nat} {rs c : Nat} (h : firstFit m cs rs = some c) :
    c ∈ cs ∧ hdrAllocated m c = 0 ∧ rs ≤ hdrLength m c := by
  have h1 := List.mem_of_find?_eq_some h
  have h2 := List.find?_some h
  simp only [Bool.and_eq_true, beq_iff_eq, decide_eq_true_eq] at h2
  exact ⟨h1, h2⟩

theorem firstFit_none {m : Memory} {cs : List Nat} {rs : Nat} :
    firstFit m cs rs = none ↔ ∀ c ∈ cs, ¬(hdrAllocated m c = 0 ∧ rs ≤ hdrLength m c) := by
  simp [firstFit, List.find?_eq_none]

/-- What REALLOC's copy path answers. -/
theorem reallocCopy_next {s t : State} {cs : List Nat} {c newSize : Nat} (h : reallocCopy s cs c newSize = .next t) :
    (allocChunk s.cfg s.mem cs newSize = none ∧ t = s.enterHalt causeOOM) ∨
    ∃ m d, allocChunk s.cfg s.mem cs newSize = some (m, d) ∧ min (hdrLength s.mem c) newSize % 8 = 0 ∧
      t = (s.setMem (freeChunk s.cfg (copyUnits m (c + s.cfg.hdr) (d + s.cfg.hdr) (min (hdrLength s.mem c) newSize / 8)) c)).setA
        .a0 (BitVec.ofNat 32 (d + s.cfg.hdr)) := by
  unfold reallocCopy at h
  split at h
  · injection h with h; exact .inl ⟨‹_›, h.symm⟩
  · dsimp only at h
    split at h
    · cases h
    · injection h with h; exact .inr ⟨_, _, ‹_›, by omega, h.symm⟩

/-- The copy writes nothing outside its target. -/
theorem read_copyUnits_outside (m : Memory) (p q n x : Nat) (h : x < q ∨ q + 8 * n ≤ x) : (copyUnits m p q n).read x = m.read x := by
  induction n with
  | zero => rfl
  | succ n ih =>
    unfold copyUnits
    dsimp only
    rw [read_memWrite_outside _ _ _ _ _ (by omega), ih (by omega)]

/-- The copy's target holds the source's old bytes, when the two do not overlap (40_heap.md R112). -/
theorem read_copyUnits_inside (m : Memory) (p q n k : Nat) (hd : p + 8 * n ≤ q ∨ q + 8 * n ≤ p) (hk : k < 8 * n) :
    (copyUnits m p q n).read (q + k) = m.read (p + k) := by
  induction n with
  | zero => omega
  | succ n ih =>
    unfold copyUnits
    dsimp only
    by_cases h : k < 8 * n
    · rw [read_memWrite_outside _ _ _ _ _ (by omega), ih (by omega) h]
    · obtain ⟨j, rfl⟩ : ∃ j, k = 8 * n + j := ⟨k - 8 * n, by omega⟩
      have hj : j < 8 := by omega
      have hb : leBytes 8 (memRead (copyUnits m p q n) (p + 8 * n) 8) = (copyUnits m p q n).readBytes (p + 8 * n) 8 := by
        have := leBytes_leNat ((copyUnits m p q n).readBytes (p + 8 * n) 8)
        rwa [length_readBytes] at this
      rw [memWrite, hb, ← Nat.add_assoc, read_writeBytes_inside _ _ _ _ (by simpa using hj)]
      have h2 := getElem?_readBytes (copyUnits m p q n) (p + 8 * n) 8 j hj
      rw [List.getElem?_eq_getElem (by simpa using hj), Option.some.injEq] at h2
      rw [h2, ← Nat.add_assoc, read_copyUnits_outside _ _ _ _ _ (by omega)]

/-! ## Stores into buffers, and the converters -/

theorem touchesLiveHeader_iff (s : State) (a n : Nat) :
    s.touchesLiveHeader a n = true ↔ ∃ c ∈ s.liveChunks, ∃ x, inRange c s.cfg.hdr x ∧ inRange a n x := by
  simp only [State.touchesLiveHeader, List.any_eq_true]
  refine exists_congr fun c => and_congr_right fun _ => ?_
  have h := rangesOverlap_eq_false_iff c s.cfg.hdr a n
  rw [← not_iff_not, Bool.not_eq_true, h]
  simp [inRange]

/-- A store of bytes writes its range, notes a live header it hits, and does nothing else. -/
theorem storedAt_storeBytes (s : State) (a : Nat) (bs : List Byte) : s.StoredAt (s.storeBytes a bs) a bs.length := by
  refine ⟨fun x hx => ?_, ?_, rfl⟩
  · exact read_writeBytes_outside _ _ _ _ (by simp only [inRange] at hx; omega)
  · rw [storeBytes_headerOverwritten, Bool.or_eq_true, touchesLiveHeader_iff]

/-- What a converter answers when it answers a next state (43_endian.md R150). -/
theorem convert_next {s t : State} {n src dst : Nat} {fill : List Byte} (h : convert s n src dst fill = .next t) :
    1 ≤ n ∧ n ≤ 32 ∧ backed s.cfg src n = true ∧ backed s.cfg dst (fill.length + n) = true ∧
      (∀ x, inRange src n x → ¬inRange dst (fill.length + n) x) ∧
      t = s.storeBytes dst (fill ++ (s.mem.readBytes src n).reverse) := by
  unfold convert at h
  split at h
  · cases h
  · split at h
    · cases h
    · split at h
      · cases h
      · injection h with h
        have h1 : backed s.cfg src n = true ∧ backed s.cfg dst (fill.length + n) = true := by simp_all
        have h2 := (rangesOverlap_eq_false_iff src n dst (fill.length + n)).1 (by simp_all)
        exact ⟨by omega, by omega, h1.1, h1.2, fun x hx hy => h2 x ⟨hx, hy⟩, h.symm⟩

/-- A converter completes under its preconditions (43_endian.md R150). -/
theorem convert_ready {s : State} {n src dst : Nat} {fill : List Byte} (h1 : 1 ≤ n) (h2 : n ≤ 32) (h3 : backed s.cfg src n = true)
    (h4 : backed s.cfg dst (fill.length + n) = true) (h5 : ∀ x, inRange src n x → ¬inRange dst (fill.length + n) x) :
    convert s n src dst fill = .next (s.storeBytes dst (fill ++ (s.mem.readBytes src n).reverse)) := by
  have h6 : rangesOverlap src n dst (fill.length + n) = false :=
    (rangesOverlap_eq_false_iff _ _ _ _).2 fun x hx => h5 x hx.1 hx.2
  unfold convert
  rw [if_neg (by omega), h3, h4, h6]
  rfl

/-- The bytes a converter stores: byte `i` from the end is byte `i` of what it read. -/
theorem getElem_reverse_readBytes (m : Memory) (src n i : Nat) (h : i < (m.readBytes src n).reverse.length) :
    (m.readBytes src n).reverse[i] = m.read (src + (n - 1 - i)) := by
  simp only [List.length_reverse, length_readBytes] at h
  have h2 := getElem?_readBytes m src n (n - 1 - i) (by omega)
  rw [List.getElem?_eq_getElem (by simp; omega), Option.some.injEq] at h2
  rw [List.getElem_reverse, ← h2]
  simp

end Sys2Proof.Laws
end

