-- ==== Sys2Proof/Laws/Decode.lean ====
section
/-! SUPPORT. The decoder, in numbers (30_encoding.md R82, R84). -/

namespace Sys2Proof.Laws

open Sys2Proof

theorem opcodeField_toNat (w : Word) : (opcodeField w).toNat = w.toNat % 256 := by
  simp [opcodeField]

theorem zeroField_toNat (w : Word) : (zeroField w).toNat = w.toNat / 256 := by
  have := w.isLt
  simp [zeroField, Nat.shiftRight_eq_div_pow]
  omega

/-- The `zero` field is 0 exactly when the word is under 256. -/
theorem zeroField_eq_zero_iff (w : Word) : zeroField w = 0#24 ↔ w.toNat < 256 := by
  rw [← BitVec.toNat_inj, zeroField_toNat]
  simp

/-- Every encoding decodes to its command. -/
theorem decode_encode (i : Instr) : decode (encode i) = .ok i := by cases i <;> rfl

/-- What an opcode that decodes is. -/
theorem decodeOpcode_ok {op : Byte} {i : Instr} (h : decodeOpcode op = .ok i) : op.toNat = (encode i).toNat := by
  unfold decodeOpcode at h
  split at h <;> first | (injection h with h; subst h; assumption) | cases h

/-- What an opcode that does not decode answers. -/
theorem decodeOpcode_error {op : Byte} {e : DecodeError} (h : decodeOpcode op = .error e) : e = .reservedOpcode op := by
  unfold decodeOpcode at h
  split at h <;> first | (injection h with h; exact h.symm) | cases h

end Sys2Proof.Laws
end

