-- ==== Sys2Proof/Laws/PerInstr.lean ====
section
/-! SUPPORT. Statements about every command as syntax, one lemma per constructor. -/

namespace Sys2Proof.Laws.UnitNibble

open Sys2Proof

/-- The functional unit a command belongs to (00_scope.md R1, 30_encoding.md R84): 0 heap, 1 multiplier, 2 shifter, 3 converter. -/
def unitOf : Instr → Nat
  | .init => 0
  | .alloc => 0
  | .free => 0
  | .realloc => 0
  | .mul => 1
  | .shl => 2
  | .shr => 2
  | .be32tolen => 3
  | .bentolen => 3
  | .lentobe32 => 3
  | .lentoben => 3

/-- "The high nibble of the opcode names the unit" (30_encoding.md R84), the `zero` field of the encoding is 0 (R82), and the command is
well-formed. -/
def Statement (i : Instr) : Prop :=
  (encode i).toNat / 16 = unitOf i ∧ (encode i).toNat < 256 ∧ i.wellFormed = true

theorem init : Statement .init := ⟨rfl, by decide, rfl⟩
theorem alloc : Statement .alloc := ⟨rfl, by decide, rfl⟩
theorem free : Statement .free := ⟨rfl, by decide, rfl⟩
theorem realloc : Statement .realloc := ⟨rfl, by decide, rfl⟩
theorem mul : Statement .mul := ⟨rfl, by decide, rfl⟩
theorem shl : Statement .shl := ⟨rfl, by decide, rfl⟩
theorem shr : Statement .shr := ⟨rfl, by decide, rfl⟩
theorem be32tolen : Statement .be32tolen := ⟨rfl, by decide, rfl⟩
theorem bentolen : Statement .bentolen := ⟨rfl, by decide, rfl⟩
theorem lentobe32 : Statement .lentobe32 := ⟨rfl, by decide, rfl⟩
theorem lentoben : Statement .lentoben := ⟨rfl, by decide, rfl⟩

end Sys2Proof.Laws.UnitNibble
end

