-- ==== Sys2Proof/Laws/Step.lean ====
section
/-! SUPPORT. What a step can do: one lemma, from which every statement about all steps follows. -/

namespace Sys2Proof.Laws

open Sys2Proof Sys2Proof.Machine

/-- Every step that answers a next state: the block waits, or it takes one transaction off the list, which it accepts, and serves it. -/
theorem step_cases {s t : State} (h : step s = .next t) :
    (s.pending = [] ∧ t = s) ∨
    ∃ x xs, s.pending = x :: xs ∧ (s.halted = true → x.isWrite = false) ∧ serve { s with pending := xs } x = .next t := by
  unfold step serveNext at h
  split at h
  · injection h with h; exact .inl ⟨‹_›, h.symm⟩
  · rename_i x xs hp
    unfold transact at h
    split at h
    · cases h
    · refine .inr ⟨x, xs, hp, fun hh => ?_, h⟩
      rename_i hn
      have hh' : ({ s with pending := xs } : State).halted = true := hh
      rw [hh'] at hn
      simpa using hn

/-- Where the host may access bytes: there are none, or each is backed. -/
theorem hostMayAccess_iff (cfg : Config) (addr n : Nat) : hostMayAccess cfg addr n = true ↔ n = 0 ∨ backed cfg addr n = true := by
  simp [hostMayAccess]

/-- Every transaction that answers a next state, one disjunct a kind. -/
theorem serve_cases {s t : State} {x : Transaction} (h : serve s x = .next t) :
    (∃ r v, x = .wrA r v ∧ t = s.setA r v) ∨ (∃ r v, x = .wrW r v ∧ t = s.setW r v) ∨ (∃ v, x = .wrStatus v ∧ t = s) ∨
    (∃ w i, x = .wrCmd w ∧ decode w = .ok i ∧ exec i (s.recordOperands i) = .next t) ∨ (∃ r, x = .rd r ∧ t = s.portRead r) ∨
    (∃ a bs, x = .memWrite a bs ∧ hostMayAccess s.cfg a.toNat bs.length = true ∧ t = s.storeBytes a.toNat bs) ∨
    (∃ a n, x = .memRead a n ∧ hostMayAccess s.cfg a.toNat n = true ∧ t = s.respond (.bytes (s.mem.readBytes a.toNat n))) ∨
    (x = .reset ∧ t = s.applyReset) := by
  cases x with
  | wrA r v => injection h with h; exact .inl ⟨r, v, rfl, h.symm⟩
  | wrW r v => injection h with h; exact .inr (.inl ⟨r, v, rfl, h.symm⟩)
  | wrStatus v => injection h with h; exact .inr (.inr (.inl ⟨v, rfl, h.symm⟩))
  | wrCmd w =>
    simp only [serve, issueWord] at h
    split at h
    · exact .inr (.inr (.inr (.inl ⟨w, _, rfl, ‹_›, h⟩)))
    · cases h
    · cases h
  | rd r => injection h with h; exact .inr (.inr (.inr (.inr (.inl ⟨r, rfl, h.symm⟩))))
  | memWrite a bs =>
    simp only [serve, hostWrite] at h
    split at h
    · injection h with h; exact .inr (.inr (.inr (.inr (.inr (.inl ⟨a, bs, rfl, ‹_›, h.symm⟩)))))
    · cases h
  | memRead a n =>
    simp only [serve, hostRead] at h
    split at h
    · injection h with h; exact .inr (.inr (.inr (.inr (.inr (.inr (.inl ⟨a, n, rfl, ‹_›, h.symm⟩))))))
    · cases h
  | reset => injection h with h; exact .inr (.inr (.inr (.inr (.inr (.inr (.inr ⟨rfl, h.symm⟩))))))

/-- Every command that answers a next state, by what it changes: halt entry, or a store by a command outside the heap, or a shift, or a
heap command's own writes. -/
theorem exec_cases {s t : State} {i : Instr} (h : exec i s = .next t) :
    (i ∈ [Instr.mul, .be32tolen, .bentolen, .lentobe32, .lentoben] ∧ ∃ a bs, backed s.cfg a bs.length = true ∧ t = s.storeBytes a bs) ∨
    (i ∈ [Instr.shl, .shr] ∧ ∃ v, t = s.setWide v) ∨
    (i = .init ∧ s.initialised = false ∧ execInit s = .next t) ∨
    (i = .alloc ∧ execAlloc s = .next t) ∨ (i = .free ∧ execFree s = .next t) ∨ (i = .realloc ∧ execRealloc s = .next t) := by
  have conv : ∀ n src dst fill, convert s n src dst fill = .next t → ∃ a bs, backed s.cfg a bs.length = true ∧ t = s.storeBytes a bs := by
    intro n src dst fill hc
    obtain ⟨-, -, -, hb, -, ht⟩ := convert_next hc
    exact ⟨dst, _, by simpa using hb, ht⟩
  cases i with
  | init =>
    refine .inr (.inr (.inl ⟨rfl, ?_, h⟩))
    simp only [exec, execInit] at h
    split at h
    · cases h
    · simp_all
  | alloc => exact .inr (.inr (.inr (.inl ⟨rfl, h⟩)))
  | free => exact .inr (.inr (.inr (.inr (.inl ⟨rfl, h⟩))))
  | realloc => exact .inr (.inr (.inr (.inr (.inr ⟨rfl, h⟩))))
  | mul =>
    have hl : ∀ ls : List Nat, (limbsBytes ls).length = 4 * ls.length := fun ls => by
      induction ls with
      | nil => rfl
      | cons l ls ih => simp only [limbsBytes, List.length_append, length_leBytes, ih, List.length_cons]; omega
    have hv : ∀ n v : Nat, (valueLimbs n v).length = n := fun n v => by
      induction n generalizing v with
      | zero => rfl
      | succ n ih => simp [valueLimbs, ih]
    refine .inl ⟨by simp, ?_⟩
    simp only [exec, execMul] at h
    split at h
    · cases h
    · split at h
      · cases h
      · split at h
        · cases h
        · injection h with h
          refine ⟨_, _, ?_, h.symm⟩
          rw [hl, mulLimbs, hv]
          simp_all
  | shl =>
    refine .inr (.inl ⟨by simp, ?_⟩)
    simp only [exec, execShl] at h
    split at h
    · cases h
    · injection h with h; exact ⟨_, h.symm⟩
  | shr =>
    refine .inr (.inl ⟨by simp, ?_⟩)
    simp only [exec, execShr] at h
    split at h
    · cases h
    · injection h with h; exact ⟨_, h.symm⟩
  | be32tolen => exact .inl ⟨by simp, conv _ _ _ _ h⟩
  | bentolen => exact .inl ⟨by simp, conv _ _ _ _ h⟩
  | lentobe32 =>
    refine .inl ⟨by simp, ?_⟩
    simp only [exec, execLentobe32] at h
    split at h
    · exact conv _ _ _ _ h
    · exact conv _ _ _ _ h
  | lentoben => exact .inl ⟨by simp, conv _ _ _ _ h⟩

end Sys2Proof.Laws
end

