-- ==== Sys2Proof/Machine/Pseudo.lean ====
section
/-! DEFINITION. The pseudo-instructions of 30_encoding.md R89 as the transactions each expands to. No step uses them: a host program is
its list of transactions (R90), and these write the common ones. -/

namespace Sys2Proof.Machine

/-- The issue of a command, which a mnemonic stands for (30_encoding.md R88). -/
def issue (i : Instr) : Transaction := .wrCmd (encode i)

/-- `init m`. -/
def pseudoInit (m : Word) : List Transaction := [.wrA .a0 m, issue .init]

/-- `alloc s`. -/
def pseudoAlloc (s : Word) : List Transaction := [.wrA .a0 s, issue .alloc, .rd (.a .a0)]

/-- `free p`. -/
def pseudoFree (p : Word) : List Transaction := [.wrA .a0 p, issue .free]

/-- `realloc p, s`. -/
def pseudoRealloc (p s : Word) : List Transaction := [.wrA .a0 p, .wrA .a1 s, issue .realloc, .rd (.a .a0)]

/-- `mul l, r, o, n`. -/
def pseudoMul (l r o n : Word) : List Transaction := [.wrA .a0 l, .wrA .a1 r, .wrA .a2 o, .wrA .a3 n, issue .mul]

/-- `shl lo, hi, r` and `shr lo, hi, r`. -/
def pseudoShift (i : Instr) (lo hi : DWord) (r : Word) : List Transaction :=
  [.wrW .w0 lo, .wrW .w1 hi, .wrA .a0 r, issue i, .rd (.w .w0), .rd (.w .w1)]

/-- `shl lo, hi, r`. -/
def pseudoShl (lo hi : DWord) (r : Word) : List Transaction := pseudoShift .shl lo hi r

/-- `shr lo, hi, r`. -/
def pseudoShr (lo hi : DWord) (r : Word) : List Transaction := pseudoShift .shr lo hi r

/-- The four conversions `f, t, n`. -/
def pseudoConvert (i : Instr) (f t n : Word) : List Transaction := [.wrA .a0 f, .wrA .a1 t, .wrA .a2 n, issue i]

/-- `be32tolen f, t, n`. -/
def pseudoBe32tolen (f t n : Word) : List Transaction := pseudoConvert .be32tolen f t n

/-- `bentolen f, t, n`. -/
def pseudoBentolen (f t n : Word) : List Transaction := pseudoConvert .bentolen f t n

/-- `lentobe32 f, t, n`. -/
def pseudoLentobe32 (f t n : Word) : List Transaction := pseudoConvert .lentobe32 f t n

/-- `lentoben f, t, n`. -/
def pseudoLentoben (f t n : Word) : List Transaction := pseudoConvert .lentoben f t n

end Sys2Proof.Machine
end

