-- ==== Sys2Proof/Tests/Slice0.lean ====
section
/-! SUPPORT. Tests: the checks of WellFormed, the encodings, and vectors of 95_test_vectors.md (each test names its vector). -/

-- one theorem after another: each kernel evaluation that waits for earlier proofs would else hold a thread of its own
set_option Elab.async false

namespace Sys2Proof.Tests

open Sys2Proof Sys2Proof.Machine

/-! ## Well-formedness: one ill-formed term for each check -/

theorem test_default_config_wellFormed : Config.default.wellFormed = true := by decide
theorem test_hdr_not_multiple_of_8_refused : ({ Config.default with hdr := 20 } : Config).wellFormed = false := by decide
theorem test_hdr_under_16_refused : ({ Config.default with hdr := 8 } : Config).wellFormed = false := by decide
theorem test_arenaBase_not_multiple_of_8_refused : ({ Config.default with arenaBase := 12 } : Config).wellFormed = false := by decide
theorem test_arenaBase_zero_refused : ({ Config.default with arenaBase := 0 } : Config).wellFormed = false := by decide
theorem test_memLimit_zero_refused : ({ Config.default with memLimit := 0 } : Config).wellFormed = false := by decide
theorem test_memLimit_over_2_32_refused : ({ Config.default with memLimit := 4294967297 } : Config).wellFormed = false := by decide

/-! ## Decoding: every word of 30_encoding.md R84, and the reserved words of 95_test_vectors.md 2.1 -/

theorem test_decode_init : decode 0x00000001#32 = .ok .init := rfl
theorem test_decode_alloc : decode 0x00000002#32 = .ok .alloc := rfl
theorem test_decode_free : decode 0x00000003#32 = .ok .free := rfl
theorem test_decode_realloc : decode 0x00000004#32 = .ok .realloc := rfl
theorem test_decode_mul : decode 0x00000010#32 = .ok .mul := rfl
theorem test_decode_shl : decode 0x00000020#32 = .ok .shl := rfl
theorem test_decode_shr : decode 0x00000021#32 = .ok .shr := rfl
theorem test_decode_be32tolen : decode 0x00000030#32 = .ok .be32tolen := rfl
theorem test_decode_bentolen : decode 0x00000031#32 = .ok .bentolen := rfl
theorem test_decode_lentobe32 : decode 0x00000032#32 = .ok .lentobe32 := rfl
theorem test_decode_lentoben : decode 0x00000033#32 = .ok .lentoben := rfl
theorem test_decode_reserved_opcodes : [0x00, 0x05, 0x11, 0x22, 0x34].all (fun w => (decodeTableWord 32 w).isNone) = true := by decide
theorem test_decode_zero_field : decodeTableWord 32 0x00000102 = none ∧ decodeTableWord 32 0x80000010 = none := by decide

/-! ## Helpers -/

/-- The state of the programs of 95_test_vectors.md part 3 after RESET: `MEM_LIMIT = 0x1000`. -/
def start : State := State.resetWith { Config.default with memLimit := 0x1000 }

/-- The next state, where there is one. -/
def nextOf : Result → Option State
  | .next s => some s
  | .fault _ => none
  | .refused _ => none

/-- The fault, where there is one. -/
def faultOf : Result → Option Fault
  | .next _ => none
  | .fault f => some f
  | .refused _ => none

/-- Headers written into an empty memory: (address, next, prev, length, allocated), as 95_test_vectors.md lists them. -/
def headers : List (Nat × Nat × Nat × Nat × Nat) → Memory
  | [] => []
  | (c, nx, pv, len, al) :: hs => setAllocated (setLength (setPrev (setNext (headers hs) c nx) c pv) c len) c al

/-- An initialised machine with an arena of `size` bytes, the given headers, and `a0`, `a1`. -/
def heap (size : Nat) (hs : List (Nat × Nat × Nat × Nat × Nat)) (a0 a1 : Word) : State :=
  { start with status := 1#32, arenaSize := some size, mem := headers hs, a0 := ⟨a0, true⟩, a1 := ⟨a1, true⟩ }

/-- A machine with operands in `a0..a3` and bytes in memory at `0x100`. -/
def withBytes (bs : List Byte) (a0 a1 a2 a3 : Word) : State :=
  { start with mem := Memory.writeBytes [] 0x100 bs, a0 := ⟨a0, true⟩, a1 := ⟨a1, true⟩, a2 := ⟨a2, true⟩, a3 := ⟨a3, true⟩ }

/-- A machine with a 128-bit value and a shift amount. -/
def wide (lo hi : DWord) (r : Word) : State := { start with w0 := ⟨lo, true⟩, w1 := ⟨hi, true⟩, a0 := ⟨r, true⟩ }

/-- The wide registers of the next state. -/
def wideOf (o : Result) : Option (DWord × DWord) := (nextOf o).map fun s => (s.w0.value, s.w1.value)

/-- Bytes of the next state's memory. -/
def bytesOf (o : Result) (a n : Nat) : Option (List Byte) := (nextOf o).map fun s => s.mem.readBytes a n

/-- The heap of the next state, with `a0`. -/
def heapOf (o : Result) : Option (Option (List Chunk) × Word) := (nextOf o).map fun s => (s.heapView, s.a0.value)

/-- The heap of vector H4. -/
def heapH4 (a0 : Word) : State :=
  heap 0xF0 [(0x10, 0x38, 0, 24, 1), (0x38, 0x58, 0x10, 16, 1), (0x58, 0x90, 0x38, 40, 1), (0x90, 0, 0x58, 96, 0)] a0 0#32

/-- The heap of vector H12, with bytes in the first payload. -/
def heapH12 : State :=
  let s := heap 0xF0 [(0x10, 0x30, 0, 16, 1), (0x30, 0x50, 0x10, 16, 1), (0x50, 0, 0x30, 160, 0)] 0x20#32 32#32
  { s with mem := s.mem.writeBytes 0x20 [0xA0#8, 0xA1#8, 0xA2#8, 0xA3#8, 0xA4#8, 0xA5#8, 0xA6#8, 0xA7#8, 0xA8#8, 0xA9#8, 0xAA#8,
      0xAB#8, 0xAC#8, 0xAD#8, 0xAE#8, 0xAF#8] }

/-- The heap after vector H12, as H13 meets it. -/
def heapH13 (a1 : Word) : State :=
  heap 0xF0 [(0x10, 0x30, 0, 16, 0), (0x30, 0x50, 0x10, 16, 1), (0x50, 0x80, 0x30, 32, 1), (0x80, 0, 0x50, 112, 0)] 0x60#32 a1

/-- The 32-byte buffer `BUF` of 95_test_vectors.md 2.5. -/
def buf : List Byte := (List.range 32).map fun k => BitVec.ofNat 8 (k + 1)

/-! ## Heap Manager -/

/-- H1. -/
theorem test_init_H1 :
    (nextOf (exec .init (start.setA .a0 0x100#32))).map (fun s => (s.status, s.arenaSize, s.heapView, s.mem.readBytes 0x10 16)) =
      some (1#32, some 0xF0, some [⟨0x10, 224, false⟩],
        [0#8, 0#8, 0#8, 0#8, 0#8, 0#8, 0#8, 0#8, 0xE0#8, 0#8, 0#8, 0#8, 0#8, 0#8, 0#8, 0#8]) := by decide +kernel

/-- H20. -/
theorem test_init_H20 : faultOf (exec .init (start.setA .a0 0x102#32)) = some .badMemSize ∧
    faultOf (exec .init (start.setA .a0 0x18#32)) = some .badMemSize ∧
    faultOf (exec .init (heapH4 0x100#32)) = some .secondInit := by decide +kernel

/-- H3: rounding, the first fit, a split. -/
theorem test_alloc_H3 :
    heapOf (exec .alloc (heap 0xF0 [(0x10, 0x38, 0, 24, 1), (0x38, 0, 0x10, 184, 0)] 10#32 0#32)) =
      some (some [⟨0x10, 24, true⟩, ⟨0x38, 16, true⟩, ⟨0x58, 152, false⟩], 0x48#32) := by decide +kernel

/-- H11b: nothing fits, so the block halts and `a0` and memory stay. -/
theorem test_alloc_H11b :
    nextOf (exec .alloc (heap 0x30 [(0x10, 0, 0, 32, 1)] 1#32 0#32)) =
      some { heap 0x30 [(0x10, 0, 0, 32, 1)] 1#32 0#32 with status := 0x00000103#32 } := by decide +kernel

/-- H9: next and previous are free, two absorbs. -/
theorem test_free_H9 :
    heapOf (exec .free (heap 0xF0 [(0x10, 0x58, 0, 56, 0), (0x58, 0x90, 0x10, 40, 1), (0x90, 0, 0x58, 96, 0)] 0x68#32 0#32)) =
      some (some [⟨0x10, 224, false⟩], 0x68#32) := by decide +kernel

/-- H21, H22: a double free and an address that is no payload. -/
theorem test_free_H22 : faultOf (exec .free (heapH4 0x24#32)) = some .badFree ∧
    (nextOf (exec .free (heapH4 0x20#32))).map (fun s => faultOf (exec .free s)) = some (some .badFree) := by decide +kernel

/-- H12: the copy path. -/
theorem test_realloc_H12 :
    heapOf (exec .realloc heapH12) =
      some (some [⟨0x10, 16, false⟩, ⟨0x30, 16, true⟩, ⟨0x50, 32, true⟩, ⟨0x80, 112, false⟩], 0x60#32) ∧
    bytesOf (exec .realloc heapH12) 0x60 2 = some [0xA0#8, 0xA1#8] ∧ bytesOf (exec .realloc heapH12) 0x6E 2 = some [0xAE#8, 0xAF#8] := by
  decide +kernel

/-- H13 and H14's sizes: in place, growing and shrinking. -/
theorem test_realloc_H13 :
    heapOf (exec .realloc (heapH13 64#32)) =
      some (some [⟨0x10, 16, false⟩, ⟨0x30, 16, true⟩, ⟨0x50, 64, true⟩, ⟨0xA0, 80, false⟩], 0x60#32) ∧
    heapOf (exec .realloc (heapH13 8#32)) =
      some (some [⟨0x10, 16, false⟩, ⟨0x30, 16, true⟩, ⟨0x50, 8, true⟩, ⟨0x68, 136, false⟩], 0x60#32) := by decide +kernel

/-! ## WideMultiply -/

/-- M8, on limbs, by R131 and by R132's datapath. -/
theorem test_mul_M8 : mulLimbs 2 [0x12345678, 0x9ABCDEF0] [0x0FEDCBA9, 0x87654321] = [0x9A363D38, 0xD18203E8] ∧
    mulDatapath 2 [0x12345678, 0x9ABCDEF0] [0x0FEDCBA9, 0x87654321] = [0x9A363D38, 0xD18203E8] ∧
    mulDatapath 4 [0xFFFFFFFF, 0xFFFFFFFF, 0xFFFFFFFF, 0xFFFFFFFF] [0xFFFFFFFF, 0xFFFFFFFF, 0xFFFFFFFF, 0xFFFFFFFF] =
      [0x00000001, 0, 0, 0] := by decide +kernel

/-- M2 through memory, M14's shared input, and M13's overlap. -/
theorem test_mul_M2 : bytesOf (exec .mul (withBytes (List.replicate 4 0xFF#8) 0x100#32 0x100#32 0x200#32 1#32)) 0x200 4 =
      some [1#8, 0#8, 0#8, 0#8] ∧
    faultOf (exec .mul (withBytes (List.replicate 16 1#8) 0x100#32 0x108#32 0x104#32 2#32)) = some .overlappingBuffers := by
  decide +kernel

/-! ## WideShift -/

/-- W4, W8, W11. -/
theorem test_shl_W8 : wideOf (exec .shl (wide 1#64 0#64 64#32)) = some (0#64, 1#64) ∧
    wideOf (exec .shl (wide 0x0123456789ABCDEF#64 0xFEDCBA9876543210#64 4#32)) = some (0x123456789ABCDEF0#64, 0xEDCBA98765432100#64) ∧
    wideOf (exec .shl (wide 0x0123456789ABCDEF#64 0xFEDCBA9876543210#64 127#32)) = some (0#64, 0x8000000000000000#64) := by decide +kernel

/-- W25. -/
theorem test_shl_W25 : faultOf (exec .shl (wide 1#64 1#64 128#32)) = some .badShiftAmount := by decide +kernel

/-- W16, W19, W23. -/
theorem test_shr_W19 : wideOf (exec .shr (wide 0#64 1#64 64#32)) = some (1#64, 0#64) ∧
    wideOf (exec .shr (wide 0x0123456789ABCDEF#64 0xFEDCBA9876543210#64 4#32)) = some (0x00123456789ABCDE#64, 0x0FEDCBA987654321#64) ∧
    wideOf (exec .shr (wide 0xFFFFFFFFFFFFFFFF#64 0xFFFFFFFFFFFFFFFF#64 1#32)) = some (0xFFFFFFFFFFFFFFFF#64, 0x7FFFFFFFFFFFFFFF#64) := by
  decide +kernel

/-- W26. -/
theorem test_shr_W26 : faultOf (exec .shr (wide 1#64 1#64 0xFFFFFFFF#32)) = some .badShiftAmount := by decide +kernel

/-! ## EndianConverter -/

/-- E1. -/
theorem test_be32tolen_E1 : bytesOf (exec .be32tolen (withBytes buf 0x100#32 0x200#32 4#32 0#32)) 0x200 4 =
    some [0x20#8, 0x1F#8, 0x1E#8, 0x1D#8] := by decide +kernel

/-- E11, E12. -/
theorem test_be32tolen_E11 : bytesOf (exec .be32tolen (withBytes buf 0x100#32 0x100#32 16#32 0#32)) 0x100 2 = some [0x20#8, 0x1F#8] ∧
    faultOf (exec .be32tolen (withBytes buf 0x100#32 0x100#32 17#32 0#32)) = some .overlappingBuffers := by decide +kernel

/-- E5. -/
theorem test_bentolen_E5 : bytesOf (exec .bentolen (withBytes [0xDE#8, 0xAD#8, 0xBE#8, 0xEF#8, 0x01#8] 0x100#32 0x200#32 5#32 0#32))
    0x200 5 = some [0x01#8, 0xEF#8, 0xBE#8, 0xAD#8, 0xDE#8] := by decide +kernel

/-- E14, E15. -/
theorem test_bentolen_E15 : faultOf (exec .bentolen (withBytes buf 0x100#32 0x100#32 4#32 0#32)) = some .overlappingBuffers ∧
    faultOf (exec .bentolen (withBytes buf 0x100#32 0x200#32 33#32 0#32)) = some .badLength := by decide +kernel

/-- E8: the other 28 bytes stay `AA`. -/
theorem test_lentobe32_E8 :
    bytesOf (exec .lentobe32 (withBytes ([0x78#8, 0x56#8, 0x34#8, 0x12#8] ++ List.replicate 32 0xAA#8) 0x100#32 0x104#32 4#32 0#32))
      0x104 32 = some (List.replicate 28 0xAA#8 ++ [0x12#8, 0x34#8, 0x56#8, 0x78#8]) := by decide +kernel

/-- E9: with `BE32_FILL` they are zeroed. -/
theorem test_lentobe32_E9 :
    let s := withBytes ([0x78#8, 0x56#8, 0x34#8, 0x12#8] ++ List.replicate 32 0xAA#8) 0x100#32 0x104#32 4#32 0#32
    bytesOf (exec .lentobe32 { s with cfg := { s.cfg with be32Fill := true } }) 0x104 32 =
      some (List.replicate 28 0x00#8 ++ [0x12#8, 0x34#8, 0x56#8, 0x78#8]) := by decide +kernel

/-- E7. -/
theorem test_lentoben_E7 : bytesOf (exec .lentoben (withBytes [0x2A#8, 0#8, 0#8, 0#8] 0x100#32 0x200#32 4#32 0#32)) 0x200 4 =
    some [0#8, 0#8, 0#8, 0x2A#8] := by decide +kernel

/-! ## The port -/

/-- The halted block of H11b, with one transaction pending. -/
def halted (t : Transaction) : State :=
  { heap 0x30 [(0x10, 0, 0, 32, 1)] 1#32 0#32 with status := 0x00000103#32, pending := [t] }

/-- X3, X4, X5: the halted block. -/
theorem test_port_X4 : (nextOf (step (halted (.rd .status)))).map State.responses = some [.word 0x00000103#32] ∧
    faultOf (step (halted (.wrA .a0 5#32))) = some .writeWhileHalted ∧
    (nextOf (step (halted (.rd (.a .a0))))).map State.responses = some [.word 1#32] := by decide +kernel

/-- X6, X7: a write of STATUS is ignored, a read of CMD returns 0. -/
theorem test_port_X6 : (nextOf (step { start with pending := [.wrStatus 0xFFFFFFFF#32] })).map State.status = some 0#32 ∧
    (nextOf (step { start with pending := [.rd .cmd] })).map State.responses = some [.word 0#32] := by decide +kernel

/-- X9: SHL on registers nothing has written since reset is violation(UnwrittenRegister), which the model records; it then runs the
command on the values of log entry 1, a shift by 0 (log entry 2). -/
theorem test_port_X9 :
    (nextOf (step (State.reset.withFetchWord 32 0x20))).map (fun s => (s.unwrittenRegisterViolation, s.w0, s.w1)) =
      some (true, ⟨0#64, true⟩, ⟨0#64, true⟩) := by decide +kernel

/-- The host writes a live header: the next heap command is a violation (20_memory.md R62 duty 1). -/
theorem test_port_live_header :
    (nextOf (step { heapH4 8#32 with pending := [.memWrite 0x1C#32 [1#8]] })).map (fun s => (s.heapView, faultOf (exec .alloc s))) =
      some ((heapH4 8#32).heapView, some .corruptHeap) := by decide +kernel

/-! ## The pseudo-instructions, as the pairs that P1, P3 and P4 of 95_test_vectors.md give beside them -/

theorem test_pseudo_P1 : (pseudoInit 0x100#32 ++ pseudoAlloc 24#32).map encodeWrite =
    [some (0#3, 0x100#64), some (7#3, 1#64), some (0#3, 0x18#64), some (7#3, 2#64), none] := by decide +kernel

theorem test_pseudo_P3 : (pseudoBe32tolen 0x200#32 0x240#32 8#32 ++ pseudoMul 0x240#32 0x248#32 0x250#32 2#32).map encodeWrite =
    [some (0#3, 0x200#64), some (1#3, 0x240#64), some (2#3, 8#64), some (7#3, 0x30#64),
     some (0#3, 0x240#64), some (1#3, 0x248#64), some (2#3, 0x250#64), some (3#3, 2#64), some (7#3, 0x10#64)] := by decide +kernel

theorem test_pseudo_P4 : (pseudoShl 0x0123456789ABCDEF#64 0xFEDCBA9876543210#64 27#32).map encodeWrite =
    [some (4#3, 0x0123456789ABCDEF#64), some (5#3, 0xFEDCBA9876543210#64), some (0#3, 27#64), some (7#3, 0x20#64), none, none] := by
  decide +kernel

end Sys2Proof.Tests
end

