-- ==== Sys2Proof/Tests/Witnesses.lean ====
section
/-! SUPPORT. For every statement with hypotheses, a concrete state and operands that meet all of them, one for each clause and at the ends of
its ranges. -/

-- one theorem after another: each kernel evaluation that waits for earlier proofs would else hold a thread of its own
set_option Elab.async false

namespace Sys2Proof.Tests

open Sys2Proof Sys2Proof.Machine

/-- A result that holds a next state is one. -/
theorem next_of_isSome {o : Result} (h : (nextOf o).isSome = true) : ∃ t, o = .next t := by
  cases o with
  | next s => exact ⟨s, rfl⟩
  | fault f => exact absurd h (by simp [nextOf])
  | refused r => exact absurd h (by simp [nextOf])

/-- `start` with transactions pending. -/
def pend (ts : List Transaction) : State := { start with pending := ts }

/-! ## The port -/

theorem witness_ReservedWordsAreRefused_opcode :
    (pend [.wrCmd 0x34#32]).pending = [.wrCmd 0x34#32] ∧ (pend [.wrCmd 0x34#32]).halted = false ∧ ∀ i, 0x34#32 ≠ encode i :=
  ⟨rfl, rfl, fun i => by cases i <;> decide⟩

theorem witness_ReservedWordsAreRefused_zero_field :
    (pend [.wrCmd 0x102#32]).pending = [.wrCmd 0x102#32] ∧ (pend [.wrCmd 0x102#32]).halted = false ∧ ∀ i, 0x102#32 ≠ encode i :=
  ⟨rfl, rfl, fun i => by cases i <;> decide⟩

theorem witness_PortWritesRoundTripThroughTheirPair : encodeWrite (.wrA .a3 7#32) = some (3#3, 7#64) := by decide +kernel

theorem witness_StepRunsTheIssuedCommand :
    (pend [.wrCmd 0x20#32]).pending = [.wrCmd 0x20#32] ∧ (pend [.wrCmd 0x20#32]).halted = false ∧ decode 0x20#32 = .ok .shl :=
  ⟨rfl, rfl, rfl⟩

theorem witness_EveryStepConsumesOneTransaction :
    (∃ t, step { pend [.reset] with unwrittenRegisterViolation := true } = .next t) ∧ (pend []).pending = [] :=
  ⟨next_of_isSome (by decide +kernel), rfl⟩

theorem witness_PortWritesSetOnlyTheirRegister :
    (pend [.wrA .a1 5#32]).halted = false ∧ (pend [.wrW .w1 5#64]).halted = false ∧ (pend [.wrStatus 5#32]).halted = false := by
  decide +kernel

theorem witness_PortReadsReturnTheRegister :
    ((pend [.rd (.a .a0)]).setA .a0 7#32).written (.a .a0) = true ∧ (halted (.rd .cmd)).written .cmd = true := by decide +kernel

theorem witness_ReadOfAnUnwrittenRegisterIsADraw :
    ((pend [.rd (.a .a2)]).getA .a2).written = false ∧ ((pend [.rd (.w .w1)]).getW .w1).written = false := by decide +kernel

/-- SHL on registers nothing has written completes; MUL on them has no limbs to multiply. -/
theorem witness_CommandsRunOnUnwrittenRegisters : start.operandsWritten .shl = false ∧ start.operandsWritten .mul = false ∧
    (nextOf (exec .shl start)).isSome = true ∧ (nextOf (exec .shl start.allWritten)).isSome = true ∧
    faultOf (exec .mul start) = some .badLimbCount := by decide +kernel

theorem witness_HaltedBlockAcceptsOnlyReads :
    (halted (.wrA .a0 5#32)).halted = true ∧ (halted (.wrW .w0 5#64)).halted = true ∧ (halted (.wrStatus 5#32)).halted = true ∧
    (halted (.wrCmd 1#32)).halted = true ∧ (halted (.memWrite 0#32 [])).halted = true ∧ (halted (.rd .status)).halted = true ∧
    backed (halted (.memRead 0xFFF#32 1)).cfg (0xFFF#32 : Word).toNat 1 = true ∧
    (∃ t, step (halted (.rd .status)) = .next t) ∧ (halted (.rd .status)).pending.head? ≠ some .reset :=
  ⟨by decide +kernel, by decide +kernel, by decide +kernel, by decide +kernel, by decide +kernel, by decide +kernel,
    by decide +kernel, next_of_isSome (by decide +kernel), by decide +kernel⟩

theorem witness_ResetClearsAllButMemory : (halted .reset).pending = [.reset] ∧ (pend [.reset]).pending = [.reset] := ⟨rfl, rfl⟩

/-- The last byte of memory, and a byte of a live header. -/
theorem witness_HostWriteStoresItsBytes :
    (pend [.memWrite 0xFFF#32 [1#8]]).halted = false ∧ backed start.cfg (0xFFF#32 : Word).toNat [1#8].length = true ∧
    (heapH4 0#32).halted = false ∧ backed (heapH4 0#32).cfg (0x1C#32 : Word).toNat [1#8].length = true := by decide +kernel

theorem witness_HostReadReturnsTheBytes : backed start.cfg (0xFFF#32 : Word).toNat 1 = true ∧ backed start.cfg (0#32 : Word).toNat 0 = true := by
  decide +kernel

/-- The first byte past `MEM_LIMIT`, one that straddles it, and no byte past it. -/
theorem witness_HostAccessWithAnUnbackedByteStopsAndOfNoBytesCompletes :
    (pend [.memRead 0x1000#32 1]).pending = [.memRead 0x1000#32 1] ∧ backed start.cfg (0x1000#32 : Word).toNat 1 = false ∧
    (pend [.memWrite 0xFFF#32 [1#8, 2#8]]).pending = [.memWrite 0xFFF#32 [1#8, 2#8]] ∧
    backed start.cfg (0xFFF#32 : Word).toNat [1#8, 2#8].length = false ∧ (pend [.memWrite 0xFFF#32 [1#8, 2#8]]).halted = false ∧
    (pend [.memRead 0x2000#32 0]).pending = [.memRead 0x2000#32 0] ∧ (pend [.memWrite 0x2000#32 []]).pending = [.memWrite 0x2000#32 []] := by
  decide +kernel

/-! ## WideShift -/

theorem witness_ShlMultipliesByAPowerOfTwo :
    (wide 1#64 2#64 0#32).opA .a0 ≤ 127 ∧
    (wide 1#64 2#64 64#32).opA .a0 ≤ 127 ∧ (wide 1#64 2#64 127#32).opA .a0 ≤ 127 := by decide +kernel

theorem witness_ShrDividesByAPowerOfTwo :
    (wide 1#64 2#64 63#32).opA .a0 ≤ 127 ∧ (wide 1#64 2#64 127#32).opA .a0 ≤ 127 := by
  decide +kernel

theorem witness_ShiftAmountOver127IsAViolation :
    128 ≤ (wide 1#64 2#64 128#32).opA .a0 := by decide +kernel

theorem witness_ShiftingThereAndBackClearsBits :
    (∃ t, exec .shr (wide 3#64 1#64 65#32) = .next t ∧ ∃ u, exec .shl t = .next u) ∧
    (∃ t, exec .shl (wide 3#64 1#64 65#32) = .next t ∧ ∃ u, exec .shr t = .next u) :=
  ⟨⟨_, rfl, _, rfl⟩, ⟨_, rfl, _, rfl⟩⟩

/-! ## WideMultiply -/

/-- The output buffer at the very end of memory, right after the shared input. -/
def mulEnd : State := withBytes [2#8, 0#8, 0#8, 0#8] 0xFF8#32 0xFF8#32 0xFFC#32 1#32

theorem witness_MulStoresTheTruncatedProduct :
    1 ≤ mulEnd.opA .a3 ∧ backed mulEnd.cfg (mulEnd.opA .a0) (4 * mulEnd.opA .a3) = true ∧
    backed mulEnd.cfg (mulEnd.opA .a1) (4 * mulEnd.opA .a3) = true ∧ backed mulEnd.cfg (mulEnd.opA .a2) (4 * mulEnd.opA .a3) = true ∧
    (∀ x, inRange (mulEnd.opA .a2) (4 * mulEnd.opA .a3) x →
      ¬inRange (mulEnd.opA .a0) (4 * mulEnd.opA .a3) x ∧ ¬inRange (mulEnd.opA .a1) (4 * mulEnd.opA .a3) x) := by
  have h0 : mulEnd.opA .a0 = 0xFF8 := by decide +kernel
  have h1 : mulEnd.opA .a1 = 0xFF8 := by decide +kernel
  have h2 : mulEnd.opA .a2 = 0xFFC := by decide +kernel
  have h3 : mulEnd.opA .a3 = 1 := by decide +kernel
  refine ⟨by decide +kernel, by decide +kernel, by decide +kernel, by decide +kernel, fun x hx => ?_⟩
  rw [h2, h3] at hx
  rw [h0, h1, h3]
  simp only [inRange] at hx ⊢
  omega

theorem witness_MulPreconditionsAreViolations :
    (withBytes [] 0#32 0#32 8#32 0#32).opA .a3 = 0 ∧
    1 ≤ (withBytes [] 0#32 0#32 0xFFD#32 1#32).opA .a3 ∧
    (∃ r ∈ [AReg.a0, .a1, .a2], (withBytes [] 0#32 0#32 0xFFD#32 1#32).cfg.memLimit <
      (withBytes [] 0#32 0#32 0xFFD#32 1#32).opA r + 4 * (withBytes [] 0#32 0#32 0xFFD#32 1#32).opA .a3) ∧
    (∀ r ∈ [AReg.a0, .a1, .a2], backed start.cfg ((withBytes [] 0#32 4#32 3#32 1#32).opA r) 4 = true) ∧
    (inRange ((withBytes [] 0#32 4#32 3#32 1#32).opA .a2) 4 3 ∧ inRange ((withBytes [] 0#32 4#32 3#32 1#32).opA .a0) 4 3) := by
  decide +kernel

theorem witness_MulDatapathComputesTheTruncatedProduct :
    1 ≤ 2 ^ 30 ∧ [4294967295].length = 1 ∧ (∀ l ∈ [4294967295], l < 2 ^ 32) := by decide +kernel

/-! ## EndianConverter -/

/-- `length = 32` from `0x100` to the very end of memory, and `length = 1`. -/
def conv32 : State := withBytes buf 0x100#32 0xFE0#32 32#32 0#32
def conv1 : State := withBytes buf 0x100#32 0xFE0#32 1#32 0#32

/-- Two ranges of numbers that end before each other do not meet. -/
theorem disjoint_of_le {a n b k : Nat} (h : a + n ≤ b) : ∀ x, inRange a n x → ¬inRange b k x := by
  intro x hx hy
  simp only [inRange] at hx hy
  omega

theorem witness_Be32tolenReversesTheLowOrderBytes : ∀ s ∈ [conv32, conv1],
    1 ≤ s.opA .a2 ∧ s.opA .a2 ≤ 32 ∧ backed s.cfg (s.opA .a0 + 32 - s.opA .a2) (s.opA .a2) = true ∧
    backed s.cfg (s.opA .a1) (s.opA .a2) = true ∧
    (∀ x, inRange (s.opA .a0 + 32 - s.opA .a2) (s.opA .a2) x → ¬inRange (s.opA .a1) (s.opA .a2) x) := by
  rintro s (_ | ⟨_, _ | ⟨_, ⟨⟩⟩⟩) <;>
    exact ⟨by decide +kernel, by decide +kernel, by decide +kernel, by decide +kernel, disjoint_of_le (by decide +kernel)⟩

theorem witness_BentolenReversesTheBytes_and_LentobenReversesTheBytes : ∀ s ∈ [conv32, conv1], ∀ i ∈ [Instr.bentolen, .lentoben],
    1 ≤ s.opA .a2 ∧ s.opA .a2 ≤ 32 ∧ backed s.cfg (s.opA .a0) (s.opA .a2) = true ∧
    backed s.cfg (s.opA .a1) (s.opA .a2) = true ∧ (∀ x, inRange (s.opA .a0) (s.opA .a2) x → ¬inRange (s.opA .a1) (s.opA .a2) x) := by
  rintro s (_ | ⟨_, _ | ⟨_, ⟨⟩⟩⟩) i (_ | ⟨_, _ | ⟨_, ⟨⟩⟩⟩) <;>
    exact ⟨by decide +kernel, by decide +kernel, by decide +kernel, by decide +kernel, disjoint_of_le (by decide +kernel)⟩

theorem witness_Lentobe32PlacesTheLowOrderBytes : ∀ s ∈ [conv32, conv1],
    s.cfg.be32Fill = false ∧ 1 ≤ s.opA .a2 ∧ s.opA .a2 ≤ 32 ∧
    backed s.cfg (s.opA .a0) (s.opA .a2) = true ∧ backed s.cfg (s.opA .a1 + 32 - s.opA .a2) (s.opA .a2) = true ∧
    (∀ x, inRange (s.opA .a0) (s.opA .a2) x → ¬inRange (s.opA .a1 + 32 - s.opA .a2) (s.opA .a2) x) := by
  rintro s (_ | ⟨_, _ | ⟨_, ⟨⟩⟩⟩) <;>
    exact ⟨by decide +kernel, by decide +kernel, by decide +kernel, by decide +kernel, by decide +kernel, disjoint_of_le (by decide +kernel)⟩

/-- The same buffers with `BE32_FILL`. -/
def filling (s : State) : State := { s with cfg := { s.cfg with be32Fill := true } }

theorem witness_Lentobe32FillsTheBufferWhereConfigured : ∀ s ∈ [filling conv32, filling conv1],
    s.cfg.be32Fill = true ∧ 1 ≤ s.opA .a2 ∧ s.opA .a2 ≤ 32 ∧
    backed s.cfg (s.opA .a0) (s.opA .a2) = true ∧ backed s.cfg (s.opA .a1) 32 = true ∧
    (∀ x, inRange (s.opA .a0) (s.opA .a2) x → ¬inRange (s.opA .a1) 32 x) := by
  rintro s (_ | ⟨_, _ | ⟨_, ⟨⟩⟩⟩) <;>
    exact ⟨by decide +kernel, by decide +kernel, by decide +kernel, by decide +kernel, by decide +kernel, disjoint_of_le (by decide +kernel)⟩

/-- Lengths 0 and 33, a buffer one byte past the end, and a converter onto itself, for each converter. -/
theorem witness_ConverterPreconditionsAreViolations : ∀ i ∈ converters,
    (withBytes buf 0x100#32 0x200#32 0#32 0#32).opA .a2 = 0 ∧
    32 < (withBytes buf 0x100#32 0x200#32 33#32 0#32).opA .a2 ∧
    backed start.cfg (converterWrites (withBytes buf 0x100#32 0xFE1#32 32#32 0#32) i).1
      (converterWrites (withBytes buf 0x100#32 0xFE1#32 32#32 0#32) i).2 = false ∧
    backed start.cfg (converterReads (withBytes buf 0x100#32 0x100#32 32#32 0#32) i).1
      (converterReads (withBytes buf 0x100#32 0x100#32 32#32 0#32) i).2 = true ∧
    inRange (converterReads (withBytes buf 0x100#32 0x100#32 32#32 0#32) i).1
      (converterReads (withBytes buf 0x100#32 0x100#32 32#32 0#32) i).2 0x100 ∧
    inRange (converterWrites (withBytes buf 0x100#32 0x100#32 32#32 0#32) i).1
      (converterWrites (withBytes buf 0x100#32 0x100#32 32#32 0#32) i).2 0x100 := by decide +kernel

theorem witness_FullReversalsRoundTrip :
    (∃ t u, exec .bentolen conv32 = .next t ∧ exec .lentoben ((t.setA .a0 t.a1.value).setA .a1 0x300#32) = .next u) ∧
    (∃ t u, exec .lentoben conv32 = .next t ∧ exec .bentolen ((t.setA .a0 t.a1.value).setA .a1 0x300#32) = .next u) := by
  constructor
  · obtain ⟨t, ht⟩ := next_of_isSome (o := exec .bentolen conv32) (by decide +kernel)
    have h2 : (nextOf (exec .bentolen conv32)).all (fun t =>
        (nextOf (exec .lentoben ((t.setA .a0 t.a1.value).setA .a1 0x300#32))).isSome) = true := by decide +kernel
    rw [ht] at h2
    obtain ⟨u, hu⟩ := next_of_isSome h2
    exact ⟨t, u, ht, hu⟩
  · obtain ⟨t, ht⟩ := next_of_isSome (o := exec .lentoben conv32) (by decide +kernel)
    have h2 : (nextOf (exec .lentoben conv32)).all (fun t =>
        (nextOf (exec .bentolen ((t.setA .a0 t.a1.value).setA .a1 0x300#32))).isSome) = true := by decide +kernel
    rw [ht] at h2
    obtain ⟨u, hu⟩ := next_of_isSome h2
    exact ⟨t, u, ht, hu⟩

theorem witness_Be32BuffersRoundTrip :
    (∃ t u, exec .lentobe32 conv1 = .next t ∧ exec .be32tolen ((t.setA .a0 t.a1.value).setA .a1 0x300#32) = .next u) ∧
    (∃ t u, exec .be32tolen conv1 = .next t ∧ exec .lentobe32 ((t.setA .a0 t.a1.value).setA .a1 0x300#32) = .next u) := by
  constructor
  · obtain ⟨t, ht⟩ := next_of_isSome (o := exec .lentobe32 conv1) (by decide +kernel)
    have h2 : (nextOf (exec .lentobe32 conv1)).all (fun t =>
        (nextOf (exec .be32tolen ((t.setA .a0 t.a1.value).setA .a1 0x300#32))).isSome) = true := by decide +kernel
    rw [ht] at h2
    obtain ⟨u, hu⟩ := next_of_isSome h2
    exact ⟨t, u, ht, hu⟩
  · obtain ⟨t, ht⟩ := next_of_isSome (o := exec .be32tolen conv1) (by decide +kernel)
    have h2 : (nextOf (exec .be32tolen conv1)).all (fun t =>
        (nextOf (exec .lentobe32 ((t.setA .a0 t.a1.value).setA .a1 0x300#32))).isSome) = true := by decide +kernel
    rw [ht] at h2
    obtain ⟨u, hu⟩ := next_of_isSome h2
    exact ⟨t, u, ht, hu⟩

/-! ## Heap Manager -/

/-- The smallest and the largest arena `start` can hold. -/
theorem witness_InitCreatesOneFreeChunk : ∀ n ∈ [0x20, 0x1000],
    (start.setA .a0 (BitVec.ofNat 32 n)).cfg.wellFormed = true ∧ (start.setA .a0 (BitVec.ofNat 32 n)).initialised = false ∧
    (start.setA .a0 (BitVec.ofNat 32 n)).opA .a0 % 8 = 0 ∧ 2 * (start.setA .a0 (BitVec.ofNat 32 n)).cfg.hdr ≤ (start.setA .a0 (BitVec.ofNat 32 n)).opA .a0 ∧
    (start.setA .a0 (BitVec.ofNat 32 n)).cfg.arenaBase + (start.setA .a0 (BitVec.ofNat 32 n)).opA .a0 - (start.setA .a0 (BitVec.ofNat 32 n)).cfg.hdr ≤ (start.setA .a0 (BitVec.ofNat 32 n)).cfg.memLimit := by
  decide +kernel

theorem witness_InitPreconditionsAreViolations :
    (heapH4 0x100#32).initialised = true ∧
    (start.setA .a0 0x24#32).initialised = false ∧ (start.setA .a0 0x24#32).opA .a0 % 8 ≠ 0 ∧
    (start.setA .a0 0x18#32).opA .a0 < 2 * start.cfg.hdr ∧
    start.cfg.memLimit < start.cfg.arenaBase + (start.setA .a0 0x1008#32).opA .a0 - start.cfg.hdr := by decide +kernel

/-- A remainder of 24 is split, one of 16 is not. -/
theorem witness_AllocGrantsTheFirstFit : ∀ n ∈ [72, 80],
    (heapH4 (BitVec.ofNat 32 n)).HeapReady ([0x10, 0x38, 0x58] ++ 0x90 :: []) ∧
    (∀ d ∈ [0x10, 0x38, 0x58], ¬chunkFits (heapH4 (BitVec.ofNat 32 n)).mem ((heapH4 (BitVec.ofNat 32 n)).opA .a0) d) ∧
    chunkFits (heapH4 (BitVec.ofNat 32 n)).mem ((heapH4 (BitVec.ofNat 32 n)).opA .a0) 0x90 := by decide +kernel

/-- A size the list has room for, and one it has none for. -/
theorem witness_AllocRefinesFirstFitOnTheChunkList : ∀ p ∈ [(8, true), (97, false)],
    (heapH4 (BitVec.ofNat 32 p.1)).HeapReady [0x10, 0x38, 0x58, 0x90] ∧
    (heapH4 (BitVec.ofNat 32 p.1)).heapView = some [⟨0x10, 24, true⟩, ⟨0x38, 16, true⟩, ⟨0x58, 40, true⟩, ⟨0x90, 96, false⟩] ∧
    (allocList 16 (round8 p.1) [⟨0x10, 24, true⟩, ⟨0x38, 16, true⟩, ⟨0x58, 40, true⟩, ⟨0x90, 96, false⟩]).isSome = p.2 := by decide +kernel

theorem witness_AllocHaltsWhenNothingFits : (heapH4 97#32).HeapReady [0x10, 0x38, 0x58, 0x90] ∧
    (∀ c ∈ [0x10, 0x38, 0x58, 0x90], ¬chunkFits (heapH4 97#32).mem ((heapH4 97#32).opA .a0) c) := by decide +kernel

theorem witness_RequestNearTheTopHalts : (heapH4 0xFFFFFFF9#32).HeapReady [0x10, 0x38, 0x58, 0x90] ∧
    4294967288 < (heapH4 0xFFFFFFF9#32).opA .a0 := by decide +kernel

theorem witness_AllocatedAddressIsAlignedAndNotNull : (heapH4 8#32).HeapReady [0x10, 0x38, 0x58, 0x90] ∧
    (heapH4 8#32).cfg.arenaBase + (heapH4 8#32).arenaSize.getD 0 < 4294967296 ∧ (heapH4 8#32).halted = false ∧
    (nextOf (exec .alloc (heapH4 8#32))).map State.halted = some false := by decide +kernel

theorem witness_FreeOfNullIsANoOp : (heapH4 0#32).HeapReady [0x10, 0x38, 0x58, 0x90] ∧ (heapH4 0#32).opA .a0 = 0 := by
  decide +kernel

/-- Both neighbours allocated; next one free. -/
theorem witness_FreeRefinesCoalescingOnTheChunkList :
    (heapH4 0x20#32).HeapReady [0x10, 0x38, 0x58, 0x90] ∧ (heapH4 0x20#32).opA .a0 = 0x10 + (heapH4 0x20#32).cfg.hdr ∧
    (heapH4 0x68#32).HeapReady [0x10, 0x38, 0x58, 0x90] ∧ (heapH4 0x68#32).opA .a0 = 0x58 + (heapH4 0x68#32).cfg.hdr ∧
    (heapH4 0x68#32).heapView = some [⟨0x10, 24, true⟩, ⟨0x38, 16, true⟩, ⟨0x58, 40, true⟩, ⟨0x90, 96, false⟩] := by decide +kernel

/-- A free chunk's payload, and an address that is no payload. -/
theorem witness_FreeOfAnInvalidPointerIsAViolation : ∀ n ∈ [0xA0, 0x24],
    (heapH4 (BitVec.ofNat 32 n)).HeapReady [0x10, 0x38, 0x58, 0x90] ∧ (heapH4 (BitVec.ofNat 32 n)).opA .a0 ≠ 0 ∧
    ¬∃ c ∈ [0x10, 0x38, 0x58, 0x90], hdrAllocated (heapH4 (BitVec.ofNat 32 n)).mem c = 1 ∧ (heapH4 (BitVec.ofNat 32 n)).opA .a0 = c + (heapH4 (BitVec.ofNat 32 n)).cfg.hdr := by
  decide +kernel

theorem witness_DoubleFreeIsAViolation : (heapH4 0x68#32).HeapReady [0x10, 0x38, 0x58, 0x90] ∧ (heapH4 0x68#32).opA .a0 ≠ 0 ∧
    (nextOf (exec .free (heapH4 0x68#32))).isSome = true := by decide +kernel

theorem witness_HeapCommandsBeforeInitAreViolations : .free ∈ heapCommands ∧ start.initialised = false := by decide +kernel

/-- The header note set; and HeapWF broken by an `allocated` word of 2. -/
theorem witness_CorruptHeapIsAViolation : .free ∈ heapCommands ∧ (heapH4 8#32).initialised = true ∧
    ({ heapH4 8#32 with headerOverwritten := true } : State).headerOverwritten = true ∧
    (heap 0x30 [(0x10, 0, 0, 32, 2)] 8#32 8#32).initialised = true ∧ (heap 0x30 [(0x10, 0, 0, 32, 2)] 8#32 8#32).heapWF = false := by
  decide +kernel

theorem witness_OverwrittenHeaderIsNeverForgiven :
    (∃ t, step { heapH4 8#32 with headerOverwritten := true, pending := [.rd .status] } = .next t) ∧
    (heapH4 8#32).initialised = true ∧ [Transaction.rd .status].head? ≠ some .reset :=
  ⟨next_of_isSome (by decide +kernel), by decide +kernel, by decide +kernel⟩

/-- Growing to the whole of both, and shrinking to 0. -/
theorem witness_ReallocInPlaceMergesAndSplits : ∀ n ∈ [160, 0],
    (heapH13 (BitVec.ofNat 32 n)).HeapReady [0x10, 0x30, 0x50, 0x80] ∧
    (heapH13 (BitVec.ofNat 32 n)).heapView = some ([⟨0x10, 16, false⟩, ⟨0x30, 16, true⟩] ++ ⟨0x50, 32, true⟩ :: ⟨0x80, 112, false⟩ :: []) ∧
    (heapH13 (BitVec.ofNat 32 n)).opA .a0 = 0x50 + (heapH13 (BitVec.ofNat 32 n)).cfg.hdr ∧ (heapH13 (BitVec.ofNat 32 n)).opA .a1 ≤ 32 + (heapH13 (BitVec.ofNat 32 n)).cfg.hdr + 112 := by decide +kernel

theorem witness_ReallocByCopyAllocatesCopiesAndFrees :
    heapH12.HeapReady [0x10, 0x30, 0x50] ∧
    heapH12.heapView = some ([] ++ ⟨0x10, 16, true⟩ :: [⟨0x30, 16, true⟩, ⟨0x50, 160, false⟩]) ∧
    heapH12.opA .a0 = 0x10 + heapH12.cfg.hdr ∧ mustCopy heapH12.cfg.hdr (heapH12.opA .a1) ⟨0x10, 16, true⟩ [⟨0x30, 16, true⟩, ⟨0x50, 160, false⟩] ∧
    allocList heapH12.cfg.hdr (round8 (heapH12.opA .a1)) [⟨0x10, 16, true⟩, ⟨0x30, 16, true⟩, ⟨0x50, 160, false⟩] =
      some ([⟨0x10, 16, true⟩, ⟨0x30, 16, true⟩, ⟨0x50, 32, true⟩, ⟨0x80, 112, false⟩], 0x50) ∧
    min 16 (heapH12.opA .a1) % 8 = 0 := by decide +kernel

/-- The heap of H12 with another size asked for. -/
def heapH12With (a1 : Word) : State := heapH12.setA .a1 a1

theorem witness_ReallocHaltsWhenNothingFits :
    (heapH12With 161#32).HeapReady [0x10, 0x30, 0x50] ∧
    (heapH12With 161#32).heapView = some ([] ++ ⟨0x10, 16, true⟩ :: [⟨0x30, 16, true⟩, ⟨0x50, 160, false⟩]) ∧
    mustCopy 16 ((heapH12With 161#32).opA .a1) ⟨0x10, 16, true⟩ [⟨0x30, 16, true⟩, ⟨0x50, 160, false⟩] ∧
    allocList 16 (round8 ((heapH12With 161#32).opA .a1)) [⟨0x10, 16, true⟩, ⟨0x30, 16, true⟩, ⟨0x50, 160, false⟩] = none := by
  decide +kernel

theorem witness_ReallocCopyOfOddSizeIsAViolation :
    (heapH12With 12#32).HeapReady [0x10, 0x30, 0x50] ∧
    (heapH12With 12#32).heapView = some ([] ++ ⟨0x10, 16, true⟩ :: [⟨0x30, 16, true⟩, ⟨0x50, 160, false⟩]) ∧
    mustCopy 16 ((heapH12With 12#32).opA .a1) ⟨0x10, 16, true⟩ [⟨0x30, 16, true⟩, ⟨0x50, 160, false⟩] ∧
    (allocList 16 (round8 ((heapH12With 12#32).opA .a1)) [⟨0x10, 16, true⟩, ⟨0x30, 16, true⟩, ⟨0x50, 160, false⟩]).isSome = true ∧
    min 16 ((heapH12With 12#32).opA .a1) % 8 ≠ 0 := by decide +kernel

theorem witness_ReallocOfAnInvalidPointerIsAViolation : ∀ n ∈ [0, 0xA0],
    (heapH4 (BitVec.ofNat 32 n)).HeapReady [0x10, 0x38, 0x58, 0x90] ∧
    ¬∃ c ∈ [0x10, 0x38, 0x58, 0x90], hdrAllocated (heapH4 (BitVec.ofNat 32 n)).mem c = 1 ∧ (heapH4 (BitVec.ofNat 32 n)).opA .a0 = c + (heapH4 (BitVec.ofNat 32 n)).cfg.hdr := by
  decide +kernel

/-- By copy, and in place. -/
theorem witness_ReallocPreservesContents :
    heapH12.HeapReady [0x10, 0x30, 0x50] ∧ (nextOf (exec .realloc heapH12)).map State.halted = some false ∧
    (heapH13 8#32).HeapReady [0x10, 0x30, 0x50, 0x80] ∧ (nextOf (exec .realloc (heapH13 8#32))).map State.halted = some false := by
  decide +kernel

theorem witness_AllocFreeAllocReturnsTheSameAddress : (heapH4 8#32).HeapReady [0x10, 0x38, 0x58, 0x90] ∧
    (heapH4 8#32).cfg.arenaBase + (heapH4 8#32).arenaSize.getD 0 < 4294967296 ∧ (heapH4 8#32).halted = false ∧
    (nextOf (exec .alloc (heapH4 8#32))).map (fun t => (t.halted, (nextOf (exec .free t)).isSome)) = some (false, true) := by
  decide +kernel

/-- The largest arena `start` can hold, and the three heap commands on a heap with a free tail. -/
theorem witness_HeapCommandsPreserveHeapWF : ((start.setA .a0 0x1000#32).cfg.wellFormed = true ∧
    (nextOf (exec .init (start.setA .a0 0x1000#32))).isSome = true) ∧ ∀ i ∈ heapCommands, (heapH4 0x20#32).HeapReady [0x10, 0x38, 0x58, 0x90] ∧
    (nextOf (exec i (heapH4 0x20#32))).isSome = true := by decide +kernel

theorem witness_WellFormedHeapAccountsForTheArena : (heapH4 0#32).cfg.wellFormed = true ∧ (heapH4 0#32).arenaSize = some 0xF0 ∧
    (heapH4 0#32).heapView = some [⟨0x10, 24, true⟩, ⟨0x38, 16, true⟩, ⟨0x58, 40, true⟩, ⟨0x90, 96, false⟩] := by decide +kernel

/-- The same headers under another payload. -/
theorem witness_AllocDependsOnlyOnLiveHeaders : (heapH4 8#32).HeapReady [0x10, 0x38, 0x58, 0x90] ∧
    (∀ x, inHeader (heapH4 8#32).cfg [0x10, 0x38, 0x58, 0x90] x → ((heapH4 8#32).mem.write 0x20 1#8).read x = (heapH4 8#32).mem.read x) ∧
    (nextOf (exec .alloc (heapH4 8#32))).isSome = true := by
  refine ⟨by decide +kernel, fun x hx => Laws.read_write_other _ _ _ _ ?_, by decide +kernel⟩
  rintro rfl
  revert hx
  decide +kernel

/-! ## The whole machine -/

theorem witness_OnlyAllocAndReallocHalt : (heapH4 97#32).halted = false ∧
    (nextOf (exec .alloc (heapH4 97#32))).map State.halted = some true := by decide +kernel

theorem witness_EveryStepKeepsMemoryCanonical : (heapH4 8#32).mem.wf ∧
    (∃ t, step { heapH4 8#32 with pending := [.wrCmd 2#32] } = .next t) :=
  ⟨by decide +kernel, next_of_isSome (by decide +kernel)⟩

/-- A state with a live heap meets the invariant, and its next step allocates. -/
theorem witness_EveryStepKeepsTheInvariant : ({ heapH4 8#32 with pending := [.wrCmd 2#32] } : State).Inv ∧
    (∃ t, step { heapH4 8#32 with pending := [.wrCmd 2#32] } = .next t) :=
  ⟨⟨by decide +kernel, by decide +kernel, by decide +kernel, by decide +kernel, by decide +kernel, by decide +kernel, by decide +kernel⟩,
    next_of_isSome (by decide +kernel)⟩

end Sys2Proof.Tests
end

section
/-! PROOFS. What the heap commands can answer, one inversion lemma a command, and what a command does to STATUS. -/

namespace Sys2Proof.Proofs

open Sys2Proof Sys2Proof.Machine Sys2Proof.Laws

/-! ## What each heap command answers when it answers a next state -/

/-- The conditions a heap command tests before its own rule (40_heap.md R100), `cs` being the chunk list. -/
abbrev HeapOpen (s : State) (cs : List Nat) : Prop :=
  s.initialised = true ∧ s.headerOverwritten = false ∧ s.heapChunks = some cs ∧
    backed s.cfg s.cfg.arenaBase (s.arenaSize.getD 0) = true

/-- `State.HeapReady` adds to the conditions a command tests that the parameters are well-formed. -/
theorem heapReady_iff_heapOpen (s : State) (cs : List Nat) :
    s.HeapReady cs ↔ s.cfg.wellFormed = true ∧ HeapOpen s cs := Iff.rfl

theorem withHeap_next_heapOpen {s t : State} {body : List Nat → Result} (h : s.withHeap body = .next t) :
    ∃ cs, HeapOpen s cs ∧ body cs = .next t := by
  obtain ⟨hinit, hnote, cs, hcs, hbacked, hbody⟩ := withHeap_next h
  exact ⟨cs, ⟨hinit, hnote, hcs, hbacked⟩, hbody⟩

/-- INIT completes on a machine without an arena and with a good size (40_heap.md R100, R101). -/
theorem execInit_next {s t : State} (h : execInit s = .next t) :
    s.initialised = false ∧ memSizeOk s.cfg (s.opA .a0) = true ∧
      t = { s with
        mem := initHeader s.cfg s.mem (s.opA .a0 - s.cfg.hdr)
        arenaSize := some (s.opA .a0 - s.cfg.hdr)
        headerOverwritten := false
        status := statusSetInit s.status } := by
  unfold execInit at h
  split at h
  · cases h
  next hinit =>
    split at h
    · cases h
    next hsize =>
      injection h with h
      exact ⟨by simpa using hinit, by simpa using hsize, h.symm⟩

/-- ALLOC halts where nothing fits, else grants the chunk (40_heap.md R105). -/
theorem execAlloc_next {s t : State} (h : execAlloc s = .next t) :
    ∃ cs, HeapOpen s cs ∧
      ((allocChunk s.cfg s.mem cs (s.opA .a0) = none ∧ t = s.enterHalt causeOOM) ∨
        ∃ m c, allocChunk s.cfg s.mem cs (s.opA .a0) = some (m, c) ∧
          t = (s.setMem m).setA .a0 (BitVec.ofNat 32 (c + s.cfg.hdr))) := by
  obtain ⟨cs, hopen, hbody⟩ := withHeap_next_heapOpen h
  refine ⟨cs, hopen, ?_⟩
  split at hbody
  next hnone => injection hbody with ht; exact .inl ⟨hnone, ht.symm⟩
  next m c hsome => injection hbody with ht; exact .inr ⟨m, c, hsome, ht.symm⟩

/-- FREE does nothing on null, else it frees a valid pointer's chunk (40_heap.md R108). -/
theorem execFree_next {s t : State} (h : execFree s = .next t) :
    ∃ cs, HeapOpen s cs ∧
      ((s.opA .a0 = 0 ∧ t = s) ∨
        (s.opA .a0 ≠ 0 ∧ validPointer s.cfg s.mem cs (s.opA .a0) = true ∧
          t = s.setMem (freeChunk s.cfg s.mem (s.opA .a0 - s.cfg.hdr)))) := by
  obtain ⟨cs, hopen, hbody⟩ := withHeap_next_heapOpen h
  refine ⟨cs, hopen, ?_⟩
  dsimp only at hbody
  split at hbody
  next hnull => injection hbody with ht; exact .inl ⟨hnull, ht.symm⟩
  next hnull =>
    split at hbody
    · cases hbody
    next hvalid => injection hbody with ht; exact .inr ⟨hnull, by simpa using hvalid, ht.symm⟩

/-- REALLOC of a valid pointer works in place where the next chunk allows it, else by copy (40_heap.md R110); what the copy
path answers is `reallocCopy_next`. -/
theorem execRealloc_next {s t : State} (h : execRealloc s = .next t) :
    ∃ cs, HeapOpen s cs ∧ validPointer s.cfg s.mem cs (s.opA .a0) = true ∧
      ((reallocFitsInPlace s.cfg s.mem (s.opA .a0 - s.cfg.hdr) (s.opA .a1) = true ∧
          t = s.setMem (reallocInPlace s.cfg s.mem (s.opA .a0 - s.cfg.hdr) (s.opA .a1))) ∨
        (reallocFitsInPlace s.cfg s.mem (s.opA .a0 - s.cfg.hdr) (s.opA .a1) = false ∧
          reallocCopy s cs (s.opA .a0 - s.cfg.hdr) (s.opA .a1) = .next t)) := by
  obtain ⟨cs, hopen, hbody⟩ := withHeap_next_heapOpen h
  dsimp only at hbody
  split at hbody
  · cases hbody
  next hvalid =>
    refine ⟨cs, hopen, by simpa using hvalid, ?_⟩
    split at hbody
    next hfits => injection hbody with ht; exact .inl ⟨hfits, ht.symm⟩
    next hfits => exact .inr ⟨by simpa using hfits, hbody⟩

/-! ## What a command does to STATUS -/

theorem setMem_setA_status (s : State) (m : Memory) (r : AReg) (v : Word) : ((s.setMem m).setA r v).status = s.status := by
  rw [setA_status_eq, setMem_status]

/-- A command keeps STATUS, or is INIT and sets STATUS.INIT, or is ALLOC or REALLOC and enters the halt (10_state.md R24,
60_exceptions.md R160). -/
theorem exec_status_cases {s t : State} {i : Instr} (h : exec i s = .next t) :
    t.status = s.status ∨ (i = .init ∧ t.status = statusSetInit s.status) ∨
      ((i = .alloc ∨ i = .realloc) ∧ t = s.enterHalt causeOOM) := by
  obtain ⟨-, a, bs, -, rfl⟩ | ⟨-, v, rfl⟩ | ⟨rfl, -, hInit⟩ | ⟨rfl, hAlloc⟩ | ⟨rfl, hFree⟩ | ⟨rfl, hRealloc⟩ := exec_cases h
  · exact .inl (storeBytes_status s a bs)
  · exact .inl (setWide_status s v)
  · obtain ⟨-, -, rfl⟩ := execInit_next hInit
    exact .inr (.inl ⟨rfl, rfl⟩)
  · obtain ⟨cs, -, ⟨-, ht⟩ | ⟨m, c, -, rfl⟩⟩ := execAlloc_next hAlloc
    · exact .inr (.inr ⟨.inl rfl, ht⟩)
    · exact .inl (setMem_setA_status s _ .a0 _)
  · obtain ⟨cs, -, ⟨-, rfl⟩ | ⟨-, -, rfl⟩⟩ := execFree_next hFree
    · exact .inl rfl
    · exact .inl (setMem_status s _)
  · obtain ⟨cs, -, -, ⟨-, rfl⟩ | ⟨-, hcopy⟩⟩ := execRealloc_next hRealloc
    · exact .inl (setMem_status s _)
    · obtain ⟨-, ht⟩ | ⟨m, d, -, -, rfl⟩ := reallocCopy_next hcopy
      · exact .inr (.inr ⟨.inr rfl, ht⟩)
      · exact .inl (setMem_setA_status s _ .a0 _)

/-- Entering the halt for want of memory leaves what R161 says. -/
theorem haltedFrom_enterHalt (s : State) : s.HaltedFrom (s.enterHalt causeOOM) :=
  ⟨statusHalt_setHalt s.status causeOOM, statusHalt_setHalt s.status causeOOM, statusCause_setHalt s.status causeOOM,
    statusInit_setHalt s.status causeOOM, statusReserved_setHalt s.status causeOOM, rfl⟩

/-- Settles O56: of the three things a command can do to STATUS, keeping it and setting STATUS.INIT leave STATUS.HALT as it was. -/
theorem onlyAllocAndReallocHalt : Obligations.OnlyAllocAndReallocHalt := by
  intro s t i h hs ht
  have hne : statusHalt t.status ≠ statusHalt s.status := by
    rw [State.halted] at hs ht
    simp [hs, ht]
  obtain hkept | ⟨-, hset⟩ | ⟨hi, rfl⟩ := exec_status_cases h
  · exact absurd (congrArg statusHalt hkept) hne
  · exact absurd (hset ▸ statusHalt_setInit s.status) hne
  · exact ⟨hi, haltedFrom_enterHalt s⟩

end Sys2Proof.Proofs
end

section
/-! PROOFS. The registers at the port, the state after reset, LimbArrays in memory, and the shape of a well-formed heap. -/

namespace Sys2Proof.Proofs

open Sys2Proof Sys2Proof.Machine Sys2Proof.Laws

/-! ## The register file at the port (10_state.md R20 to R24) -/

/-- A step serves the next transaction when the block accepts it: a write only while it has not halted. -/
theorem step_eq_serve {s : State} {x : Transaction} {xs : List Transaction} (hp : s.pending = x :: xs)
    (hok : s.halted = true → x.isWrite = false) : step s = serve { s with pending := xs } x := by
  have hacc : (({ s with pending := xs } : State).halted && x.isWrite) = false := by
    cases hh : s.halted
    · exact Bool.and_eq_false_imp.2 fun h => absurd (hh.symm.trans h) (by simp)
    · simp [hok hh]
  simp only [step, serveNext, hp, transact, hacc]
  rfl

/-- WR of an `a` register leaves every field but the four `a` registers. -/
theorem setA_frame (s : State) (r : AReg) (v : Word) :
    s.setA r v = { s with a0 := (s.setA r v).a0, a1 := (s.setA r v).a1, a2 := (s.setA r v).a2, a3 := (s.setA r v).a3 } := by
  cases r <;> rfl

/-- WR of a `w` register leaves every field but the two `w` registers. -/
theorem setW_frame (s : State) (r : WReg) (v : DWord) :
    s.setW r v = { s with w0 := (s.setW r v).w0, w1 := (s.setW r v).w1 } := by
  cases r <;> rfl

/-- Settles O7: a block that has not halted serves the WR, which is `State.setA` or `State.setW`, or nothing for STATUS. -/
theorem portWritesSetOnlyTheirRegister : Obligations.PortWritesSetOnlyTheirRegister := by
  intro s ts hs
  have hserve : ∀ {x}, s.pending = x :: ts → step s = serve { s with pending := ts } x := fun hp =>
    step_eq_serve hp fun hh => absurd (hs.symm.trans hh) (by simp)
  refine ⟨fun r v hp => ?_, fun r v hp => ?_, fun v hp => hserve hp⟩
  · exact ⟨_, hserve hp, getA_setA_same _ r v, fun q hq => getA_setA_other _ r q v hq, setA_frame _ r v⟩
  · exact ⟨_, hserve hp, getW_setW_same _ r v, fun q hq => getW_setW_other _ r q v hq, setW_frame _ r v⟩

/-- RD of a register that nothing has written since reset is a draw (10_state.md R23). -/
theorem step_rd_unwritten {s : State} {r : PortReg} {ts : List Transaction} (hp : s.pending = .rd r :: ts)
    (hr : s.written r = false) : step s = .next (({ s with pending := ts } : State).respondDraw r) := by
  have hr' : ({ s with pending := ts } : State).written r = false := by rw [← hr]; cases r <;> rfl
  rw [step_eq_serve hp fun _ => rfl, serve, State.portRead, hr']
  rfl

/-- Settles O9: the response is the draw, cut to the register's width. -/
theorem readOfAnUnwrittenRegisterIsADraw : Obligations.ReadOfAnUnwrittenRegisterIsADraw := fun _ _ =>
  ⟨fun _ hp hr => ⟨_, step_rd_unwritten hp hr⟩, fun _ hp hr => ⟨_, step_rd_unwritten hp hr⟩⟩

/-! ## The state after reset (10_state.md R45) -/

/-- Settles O13: each clause is a field of `State.resetWith Config.default`. -/
theorem resetStateIsAsTheSpecSays : Obligations.ResetStateIsAsTheSpecSays := by
  refine ⟨rfl, rfl, fun r => ?_, fun r => ?_, rfl, rfl, rfl, by decide, rfl, rfl, rfl⟩
  · cases r <;> rfl
  · cases r <;> rfl

/-- Settles O59: after reset nothing is written and there is no arena, so every clause holds of the defaults. -/
theorem resetStateMeetsTheInvariant : Obligations.ResetStateMeetsTheInvariant where
  cfg_wellFormed := by decide
  mem_canonical := wf_empty
  mem_inRange := fun _ hc => absurd hc List.not_mem_nil
  status_legal := by decide
  halted_initialised := by decide
  arena_legal := by decide
  heap_intact := by decide

/-! ## LimbArrays (10_state.md R38, 20_memory.md R53) -/

theorem length_readLimbs (m : Memory) (a n : Nat) : (readLimbs m a n).length = n := by
  induction n generalizing a with
  | zero => rfl
  | succ n ih => rw [readLimbs, List.length_cons, ih]

/-- A little-endian number read as its first `n` bytes and the `k` bytes after them. -/
theorem memRead_add (m : Memory) (a n k : Nat) :
    memRead m a (n + k) = memRead m a n + 256 ^ n * memRead m (a + n) k := by
  rw [memRead, readBytes_append, leNat_append, length_readBytes, memRead, memRead]

theorem limbsValue_readLimbs (m : Memory) (a n : Nat) : limbsValue (readLimbs m a n) = memRead m a (4 * n) := by
  induction n generalizing a with
  | zero => rfl
  | succ n ih =>
    rw [readLimbs, limbsValue, ih, Nat.mul_succ, Nat.add_comm (4 * n) 4, memRead_add, show 256 ^ 4 = 4294967296 from rfl]

theorem getElem_readLimbs (m : Memory) (a n i : Nat) (h : i < (readLimbs m a n).length) :
    (readLimbs m a n)[i] = memRead m (a + 4 * i) 4 := by
  induction n generalizing a i with
  | zero => exact absurd h (Nat.not_lt_zero i)
  | succ n ih =>
    cases i with
    | zero => rfl
    | succ i =>
      have hi := ih (a + 4) i (Nat.lt_of_succ_lt_succ h)
      rwa [show a + 4 + 4 * i = a + 4 * (i + 1) by omega] at hi

/-- Settles O23, by induction on the number of limbs. -/
theorem limbArrayIsALittleEndianInteger : Obligations.LimbArrayIsALittleEndianInteger := fun m a n =>
  ⟨length_readLimbs m a n, limbsValue_readLimbs m a n, getElem_readLimbs m a n⟩

/-! ## What a well-formed heap looks like (10_state.md R34) -/

/-- Chunks of aligned lengths that tile from an aligned address on have aligned addresses. -/
theorem tiles_addr_aligned {hdr a b : Nat} {ks : List Chunk} (h : Tiles hdr a ks b) (hhdr : hdr % 8 = 0) (ha : a % 8 = 0)
    (hlen : ∀ k ∈ ks, k.len % 8 = 0) : ∀ k ∈ ks, k.addr % 8 = 0 := by
  induction ks generalizing a with
  | nil => exact fun _ hk => absurd hk List.not_mem_nil
  | cons c ks ih =>
    obtain ⟨haddr, hrest⟩ := h
    obtain ⟨hc, hks⟩ := List.forall_mem_cons.1 hlen
    exact List.forall_mem_cons.2 ⟨by omega, ih hrest (by omega) hks⟩

theorem head_addr_of_tiles {hdr a b : Nat} {ks : List Chunk} (h : Tiles hdr a ks b) (hne : ks ≠ []) :
    ks.head?.map Chunk.addr = some a := by
  cases ks with
  | nil => exact absurd rfl hne
  | cons k ks => exact congrArg some h.1

/-- Two neighbours of a well-formed heap: the second starts where the first ends, they are not both free, and each links the
other. -/
theorem heapIs_neighbours {cfg : Config} {m : Memory} {size : Nat} {pre post : List Chunk} {k n : Chunk}
    (h : HeapIs cfg m size (pre ++ k :: n :: post)) :
    n.addr = k.addr + cfg.hdr + k.len ∧ ¬(k.allocated = false ∧ n.allocated = false) ∧
      hdrNext m k.addr = n.addr ∧ hdrPrev m n.addr = k.addr := by
  obtain ⟨-, hk, hn, -⟩ := (layout_append _ _ _ _ _).1 h.layout
  obtain ⟨-, ⟨hfree, -⟩, -⟩ := noTwoFree_append.1 h.noTwoFree
  exact ⟨(tiles_around h.tiles).2.1, hfree, hk.next, hn.prev⟩

/-- Settles O54: HeapWF is a layout of chunks over the arena (`heapView_eq_some_iff`), and each clause is a fact about that layout. -/
theorem wellFormedHeapAccountsForTheArena : Obligations.WellFormedHeapAccountsForTheArena := by
  intro s size ks hw ha hview
  have h := (heapView_eq_some_iff ha hw ks).1 hview
  obtain ⟨hhdr, -, hbase, -⟩ := (wellFormed_iff s.cfg).1 hw
  have haddr := tiles_addr_aligned h.tiles hhdr hbase h.aligned
  refine ⟨?_, head_addr_of_tiles h.tiles h.nonempty, fun k hk => ⟨h.aligned k hk, haddr k hk, (tiles_mem h.tiles hk).2⟩, ?_⟩
  · rw [tiles_sum h.tiles, Nat.add_sub_cancel_left]
  · rintro pre post k n rfl
    exact heapIs_neighbours h

end Sys2Proof.Proofs
end

section
/-! PROOFS. Writes below an address, and the heap operations as moves from one laid-out list of chunks to the next, each with the
record that it writes inside the arena only (40_heap.md R104, R107, R108, R112). -/

namespace Sys2Proof.Proofs

open Sys2Proof Sys2Proof.Machine Sys2Proof.Laws

/-! ## Memory after writes below an address -/

/-- `m` is `m₀` after writes of numbers each of which ends at or below the address `stop`. -/
inductive WrittenBelow (stop : Nat) (m₀ : Memory) : Memory → Prop where
  | refl : WrittenBelow stop m₀ m₀
  | write {m : Memory} {a n v : Nat} : WrittenBelow stop m₀ m → a + n ≤ stop → WrittenBelow stop m₀ (memWrite m a n v)

namespace WrittenBelow

variable {stop c : Nat} {m₀ m : Memory}

theorem wf (h : WrittenBelow stop m₀ m) (h₀ : m₀.wf) : m.wf := by
  induction h with
  | refl => exact h₀
  | write _ _ ih => exact wf_memWrite ih _ _ _

theorem mem_or_lt (h : WrittenBelow stop m₀ m) {x : Host.Cell} (hx : x ∈ m) : x ∈ m₀ ∨ x.1 < stop := by
  induction h with
  | refl => exact .inl hx
  | write _ hle ih =>
    rcases mem_memWrite hx with hnew | hold
    · exact .inr (by omega)
    · exact ih hold

theorem setNext (h : WrittenBelow stop m₀ m) (hc : c + 16 ≤ stop) (v : Nat) : WrittenBelow stop m₀ (setNext m c v) :=
  h.write (by omega)

theorem setPrev (h : WrittenBelow stop m₀ m) (hc : c + 16 ≤ stop) (v : Nat) : WrittenBelow stop m₀ (setPrev m c v) :=
  h.write (by omega)

theorem setLength (h : WrittenBelow stop m₀ m) (hc : c + 16 ≤ stop) (v : Nat) : WrittenBelow stop m₀ (setLength m c v) :=
  h.write (by omega)

theorem setAllocated (h : WrittenBelow stop m₀ m) (hc : c + 16 ≤ stop) (v : Nat) :
    WrittenBelow stop m₀ (setAllocated m c v) :=
  h.write (by omega)

/-- The four writes that make a header. -/
theorem header (h : WrittenBelow stop m₀ m) (hc : c + 16 ≤ stop) (nx pv len al : Nat) :
    WrittenBelow stop m₀ (Machine.setAllocated (Machine.setLength (Machine.setPrev (Machine.setNext m c nx) c pv) c len) c al) :=
  (((h.setNext hc nx).setPrev hc pv).setLength hc len).setAllocated hc al

theorem split (h : WrittenBelow stop m₀ m) {cfg : Config} {rs : Nat} (hc : c + 16 ≤ stop)
    (htail : 8 + cfg.hdr ≤ hdrLength m c - rs → c + cfg.hdr + rs + 16 ≤ stop) (hnext : hdrNext m c + 16 ≤ stop) :
    WrittenBelow stop m₀ (split cfg m c rs) := by
  unfold Machine.split
  dsimp only
  split
  next hcut =>
    have htail := htail hcut
    have hheader := h.header htail (hdrNext m c) c (hdrLength m c - rs - cfg.hdr) 0
    refine ((?_ : WrittenBelow stop m₀ _).setNext hc _).setLength hc _
    split
    · exact hheader
    · exact hheader.setPrev hnext _
  next => exact h

theorem absorb (h : WrittenBelow stop m₀ m) {cfg : Config} {n : Nat} (hc : c + 16 ≤ stop) (hnext : hdrNext m n + 16 ≤ stop) :
    WrittenBelow stop m₀ (absorb cfg m c n) := by
  unfold Machine.absorb
  dsimp only
  have hlink := (h.setLength hc (hdrLength m c + cfg.hdr + hdrLength m n)).setNext hc (hdrNext m n)
  split
  · exact hlink
  · exact hlink.setPrev hnext _

theorem copyUnits (h : WrittenBelow stop m₀ m) {p q n : Nat} (hq : q + 8 * n ≤ stop) :
    WrittenBelow stop m₀ (copyUnits m p q n) := by
  induction n with
  | zero => exact h
  | succ n ih => exact (ih (by omega)).write (by omega)

end WrittenBelow

/-! ## Where the headers of a laid-out list are -/

section
variable {cfg : Config} {m : Memory} {size : Nat} {ks : List Chunk} {k : Chunk}

theorem header_le (ok : ArenaOk cfg size) (h : Holds cfg m size ks) (hk : k ∈ ks) :
    k.addr + 16 ≤ cfg.arenaBase + size := by
  have := (tiles_mem h.tiles hk).2
  have := ok.hdr
  omega

theorem hdrNext_le (ok : ArenaOk cfg size) (h : Holds cfg m size ks) (hk : k ∈ ks) :
    hdrNext m k.addr + 16 ≤ cfg.arenaBase + size := by
  have hkle := header_le ok h hk
  obtain ⟨pre, post, rfl⟩ := List.append_of_mem hk
  rw [h.header.next]
  cases post with
  | nil => simp only [headAddr]; omega
  | cons n post => exact header_le ok h (k := n) (by simp)

/-- No chunk's header reaches into a chunk's payload. -/
theorem header_payload_apart {hdr a b : Nat} {g : Chunk} (h : Tiles hdr a ks b) (hg : g ∈ ks) (hk : k ∈ ks) :
    k.addr ≤ g.addr ∨ g.addr + hdr + g.len ≤ k.addr := by
  obtain ⟨pre, post, rfl⟩ := List.append_of_mem hg
  obtain ⟨hpre, hpost⟩ := tiles_around h
  rcases List.mem_append.1 hk with hk | hk
  · have := (tiles_mem hpre hk).2
    exact .inl (by omega)
  · rcases List.mem_cons.1 hk with rfl | hk
    · exact .inl (Nat.le_refl _)
    · exact .inr (tiles_mem hpost hk).1

/-- A header of the list, read back: it is a chunk of the list, with its length and its allocated word. -/
theorem chunk_of_addr {c : Nat} (h : Holds cfg m size ks) (hc : c ∈ ks.map Chunk.addr) :
    ∃ pre k post, ks = pre ++ k :: post ∧ k.addr = c ∧ hdrLength m c = k.len ∧ hdrAllocated m c = flagWord k.allocated := by
  obtain ⟨k, hk, rfl⟩ := List.mem_map.1 hc
  obtain ⟨pre, post, rfl⟩ := List.append_of_mem hk
  exact ⟨pre, k, post, rfl, rfl, h.header.length, h.header.allocated⟩

end

theorem flagWord_eq_zero {b : Bool} : flagWord b = 0 ↔ b = false := by cases b <;> simp [flagWord]

theorem flagWord_eq_one {b : Bool} : flagWord b = 1 ↔ b = true := by cases b <;> simp [flagWord]

/-! ## The operations on a heap that is laid out and reached by writes inside the arena -/

/-- Memory `m` holds the chunks `ks`, and is `m₀` after writes inside the arena. -/
structure HeldFrom (m₀ : Memory) (cfg : Config) (m : Memory) (size : Nat) (ks : List Chunk) : Prop where
  holds : Holds cfg m size ks
  written : WrittenBelow (cfg.arenaBase + size) m₀ m

/-- Split cuts a chunk in two or leaves it whole, and keeps its allocated word; granting it also sets that word. -/
theorem splitChunk_grantChunk (hdr rs : Nat) (k : Chunk) :
    ∃ len tail, splitChunk hdr rs k = ⟨k.addr, len, k.allocated⟩ :: tail ∧ grantChunk hdr rs k = ⟨k.addr, len, true⟩ :: tail ∧
      (rs ≤ k.len → rs ≤ len) := by
  by_cases hcut : 8 + hdr ≤ k.len - rs
  · exact ⟨rs, _, if_pos hcut, if_pos hcut, fun _ => Nat.le_refl rs⟩
  · exact ⟨k.len, [], if_neg hcut, if_neg hcut, id⟩

theorem splitChunk_eq_grantChunk (hdr rs : Nat) {k : Chunk} (hk : k.allocated = true) :
    splitChunk hdr rs k = grantChunk hdr rs k := by
  obtain ⟨len, tail, hsplit, hgrant, -⟩ := splitChunk_grantChunk hdr rs k
  rw [hsplit, hgrant, hk]

namespace HeldFrom

variable {m₀ m : Memory} {cfg : Config} {size rs : Nat} {pre post : List Chunk} {k n q : Chunk}

theorem split (ok : ArenaOk cfg size) (h : HeldFrom m₀ cfg m size (pre ++ k :: post)) (hrs : rs ≤ k.len) :
    HeldFrom m₀ cfg (split cfg m k.addr rs) size (pre ++ splitChunk cfg.hdr rs k ++ post) where
  holds := holds_split ok h.holds hrs
  written := by
    have hk : k ∈ pre ++ k :: post := by simp
    have hend := (tiles_mem h.holds.tiles hk).2
    have hhdr := ok.hdr
    refine h.written.split (header_le ok h.holds hk) (fun hcut => ?_) (hdrNext_le ok h.holds hk)
    rw [h.holds.header.length] at hcut
    omega

theorem setAllocated (ok : ArenaOk cfg size) (h : HeldFrom m₀ cfg m size (pre ++ k :: post)) (b : Bool) :
    HeldFrom m₀ cfg (setAllocated m k.addr (flagWord b)) size (pre ++ ⟨k.addr, k.len, b⟩ :: post) where
  holds := holds_setAllocated ok h.holds b
  written := h.written.setAllocated (header_le ok h.holds (by simp)) _

theorem absorb (ok : ArenaOk cfg size) (h : HeldFrom m₀ cfg m size (pre ++ k :: n :: post)) :
    HeldFrom m₀ cfg (absorb cfg m k.addr n.addr) size (pre ++ ⟨k.addr, k.len + cfg.hdr + n.len, k.allocated⟩ :: post) where
  holds := holds_absorb ok h.holds
  written := h.written.absorb (header_le ok h.holds (by simp)) (hdrNext_le ok h.holds (by simp))

/-- ALLOC's work on the chunk it grants (40_heap.md R105): cut it and mark it allocated. -/
theorem grant (ok : ArenaOk cfg size) (h : HeldFrom m₀ cfg m size (pre ++ k :: post)) (hrs : rs ≤ k.len) :
    HeldFrom m₀ cfg (Machine.setAllocated (Machine.split cfg m k.addr rs) k.addr 1) size
      (pre ++ grantChunk cfg.hdr rs k ++ post) := by
  obtain ⟨len, tail, hsplit, hgrant, -⟩ := splitChunk_grantChunk cfg.hdr rs k
  have hcut := h.split ok hrs
  rw [hsplit, List.append_assoc] at hcut
  rw [hgrant, List.append_assoc]
  exact hcut.setAllocated ok true

theorem absorbForward (ok : ArenaOk cfg size) (h : HeldFrom m₀ cfg m size (pre ++ k :: post)) :
    HeldFrom m₀ cfg (absorbForward cfg m k.addr) size (pre ++ mergeForward cfg.hdr k post) where
  holds := holds_absorbForward ok h.holds
  written := by
    have hnext := h.holds.header.next
    unfold Laws.absorbForward
    split
    next hfree =>
      rw [hnext] at hfree ⊢
      cases post with
      | nil => exact absurd rfl hfree.1
      | cons n post => exact (h.absorb ok).written
    next => exact h.written

theorem absorbBack_free (ok : ArenaOk cfg size) (h : HeldFrom m₀ cfg m size (pre ++ q :: k :: post)) (hq : q.allocated = false) :
    HeldFrom m₀ cfg (absorbBack cfg m k.addr) size (pre ++ ⟨q.addr, q.len + cfg.hdr + k.len, false⟩ :: post) where
  holds := holds_absorbBack_free ok h.holds hq
  written := by
    have hprev : hdrPrev m k.addr = q.addr := ((layout_append _ _ _ _ _).1 h.holds.layout).2.2.1.prev
    unfold absorbBack
    rw [hprev]
    split
    · exact (h.absorb ok).written
    · exact h.written

end HeldFrom

/-! ## Coalescing on a list of chunks (40_heap.md R107) -/

theorem noTwoFree_head_congr {k k' : Chunk} {ks : List Chunk} (hk : k'.allocated = k.allocated) (h : NoTwoFree (k :: ks)) :
    NoTwoFree (k' :: ks) := by
  cases ks with
  | nil => trivial
  | cons n ks => exact ⟨by rw [hk]; exact h.1, h.2⟩

theorem noTwoFree_tail {k : Chunk} {ks : List Chunk} (h : NoTwoFree (k :: ks)) : NoTwoFree ks :=
  (noTwoFree_append (ks := [k]).1 h).2.1

/-- After coalescing no two neighbours are free, whatever the list was. -/
theorem noTwoFree_coalesce (hdr : Nat) (ks : List Chunk) : NoTwoFree (coalesce hdr ks) := by
  induction ks with
  | nil => trivial
  | cons k ks ih =>
    unfold coalesce
    split
    next => trivial
    next n rest hrest =>
      rw [hrest] at ih
      split
      next hboth => exact noTwoFree_head_congr hboth.2.symm ih
      next hnot => exact ⟨hnot, ih⟩

theorem aligned_coalesce {hdr : Nat} {ks : List Chunk} (hhdr : hdr % 8 = 0) (h : ∀ k ∈ ks, k.len % 8 = 0) :
    ∀ k ∈ coalesce hdr ks, k.len % 8 = 0 := by
  induction ks with
  | nil => exact h
  | cons k ks ih =>
    obtain ⟨hk, hks⟩ := List.forall_mem_cons.1 h
    have ih := ih hks
    unfold coalesce
    split
    next => exact List.forall_mem_singleton.2 hk
    next n rest hrest =>
      rw [hrest] at ih
      obtain ⟨hn, hrest⟩ := List.forall_mem_cons.1 ih
      split
      · exact List.forall_mem_cons.2 ⟨by simp only; omega, hrest⟩
      · exact List.forall_mem_cons.2 ⟨hk, ih⟩

/-- Coalescing leaves chunks alone whose neighbours give nothing to merge. -/
theorem coalesce_append {hdr : Nat} {ks ls : List Chunk} (h : NoTwoFree (ks ++ coalesce hdr ls)) :
    coalesce hdr (ks ++ ls) = ks ++ coalesce hdr ls := by
  induction ks with
  | nil => rfl
  | cons k ks ih =>
    have htail : NoTwoFree (ks ++ coalesce hdr ls) := noTwoFree_tail h
    rw [List.cons_append, coalesce, ih htail]
    rw [List.cons_append] at h ⊢
    split
    next hnil => rw [hnil]
    next n rest hrest =>
      rw [hrest] at h ⊢
      exact if_neg h.1

theorem coalesce_of_noTwoFree {hdr : Nat} {ks : List Chunk} (h : NoTwoFree ks) : coalesce hdr ks = ks := by
  have := coalesce_append (hdr := hdr) (ks := ks) (ls := []) (by simpa [coalesce] using h)
  simpa [coalesce] using this

/-- Before chunks with nothing to merge, coalescing a free chunk merges it with a free next one. -/
theorem coalesce_cons_free {hdr : Nat} {k : Chunk} {ks : List Chunk} (hk : k.allocated = false) (h : NoTwoFree ks) :
    coalesce hdr (k :: ks) = mergeForward hdr k ks := by
  rw [coalesce, coalesce_of_noTwoFree h]
  cases ks with
  | nil => rfl
  | cons n ks => simp [mergeForward, hk]

theorem mergeForward_cons (hdr : Nat) (k : Chunk) (ks : List Chunk) :
    ∃ len rest, mergeForward hdr k ks = ⟨k.addr, len, k.allocated⟩ :: rest := by
  cases ks with
  | nil => exact ⟨k.len, [], rfl⟩
  | cons n ks =>
    by_cases hn : n.allocated = false
    · exact ⟨k.len + hdr + n.len, ks, if_pos hn⟩
    · exact ⟨k.len, n :: ks, if_neg hn⟩

theorem markFree_of_not_mem {c : Nat} {ks : List Chunk} (h : ∀ k ∈ ks, k.addr ≠ c) : markFree c ks = ks :=
  (List.map_congr_left fun k hk => if_neg (h k hk)).trans (List.map_id ks)

/-- In a list that tiles, marking the chunk at an address free marks that chunk alone. -/
theorem markFree_around {hdr a b : Nat} {pre post : List Chunk} {k : Chunk} (h : Tiles hdr a (pre ++ k :: post) b)
    (hhdr : 0 < hdr) : markFree k.addr (pre ++ k :: post) = pre ++ ⟨k.addr, k.len, false⟩ :: post := by
  obtain ⟨hpre, hpost⟩ := tiles_around h
  have epre : markFree k.addr pre = pre := markFree_of_not_mem fun c hc => by
    have := (tiles_mem hpre hc).2
    omega
  have epost : markFree k.addr post = post := markFree_of_not_mem fun c hc => by
    have := (tiles_mem hpost hc).1
    omega
  calc markFree k.addr (pre ++ k :: post)
      = markFree k.addr pre ++ (if k.addr = k.addr then { k with allocated := false } else k) :: markFree k.addr post :=
        List.map_append
    _ = _ := by rw [epre, epost, if_pos rfl]

/-- FREE on the memory is freeing and coalescing on the list of chunks (40_heap.md R107, R108). -/
theorem HeldFrom.freeChunk {m₀ m : Memory} {cfg : Config} {size : Nat} {pre post : List Chunk} {k : Chunk} (ok : ArenaOk cfg size)
    (h : HeldFrom m₀ cfg m size (pre ++ k :: post)) (hnf : NoTwoFree (pre ++ k :: post)) :
    HeldFrom m₀ cfg (freeChunk cfg m k.addr) size (freeList cfg.hdr k.addr (pre ++ k :: post)) := by
  obtain ⟨hnfPre, hnfPost, -⟩ := noTwoFree_append.1 hnf
  have hnfPost : NoTwoFree post := noTwoFree_tail hnfPost
  have hforward := (h.setAllocated ok false).absorbForward ok
  have hcoalesce : coalesce cfg.hdr (⟨k.addr, k.len, false⟩ :: post) = _ := coalesce_cons_free rfl hnfPost
  obtain ⟨len, rest, hmerged⟩ := mergeForward_cons cfg.hdr ⟨k.addr, k.len, false⟩ post
  rw [hmerged] at hforward hcoalesce
  rw [freeChunk_eq, freeList, markFree_around h.holds.tiles (by have := ok.hdr; omega)]
  by_cases hq : ∀ q ∈ pre.getLast?, q.allocated = true
  case pos =>
    have hback := absorbBack_eq hforward.holds hq
    have hlist := coalesce_append (hdr := cfg.hdr) (ks := pre) (ls := ⟨k.addr, k.len, false⟩ :: post) <|
      noTwoFree_append.2 ⟨hnfPre, noTwoFree_coalesce _ _, fun q hql n _ hboth => absurd (hq q hql) (by simp [hboth.1])⟩
    rw [hlist, hcoalesce]
    exact hback.symm ▸ hforward
  case neg =>
    obtain ⟨q, hql, hqfree⟩ : ∃ q ∈ pre.getLast?, q.allocated = false := by simpa using hq
    obtain ⟨pre, rfl⟩ := List.getLast?_eq_some_iff.1 hql
    obtain ⟨hnfPre, -, hboundary⟩ := noTwoFree_append.1 hnfPre
    have hmerge : coalesce cfg.hdr (q :: ⟨k.addr, k.len, false⟩ :: post) = ⟨q.addr, q.len + cfg.hdr + len, false⟩ :: rest := by
      rw [coalesce, hcoalesce]
      exact if_pos ⟨hqfree, rfl⟩
    have hlist := coalesce_append (hdr := cfg.hdr) (ks := pre) (ls := q :: ⟨k.addr, k.len, false⟩ :: post) <|
      noTwoFree_append.2 ⟨hnfPre, noTwoFree_coalesce _ _, fun c hc _ _ hboth =>
        hboundary c hc q rfl ⟨hboth.1, hqfree⟩⟩
    rw [List.append_assoc] at hforward ⊢
    rw [List.singleton_append] at hforward ⊢
    rw [hlist, hmerge]
    exact hforward.absorbBack_free ok hqfree

end Sys2Proof.Proofs
end

section
/-! PROOFS. Each heap command leaves a well-formed heap (10_state.md R35): on the memory, then on the state. -/

namespace Sys2Proof.Proofs

open Sys2Proof Sys2Proof.Machine Sys2Proof.Laws

/-! ## Granting on a well-formed list -/

theorem noTwoFree_grantChunk (hdr rs : Nat) (k : Chunk) : NoTwoFree (grantChunk hdr rs k) := by
  by_cases hcut : 8 + hdr ≤ k.len - rs
  · rw [grantChunk, if_pos hcut]; simp [NoTwoFree]
  · rw [grantChunk, if_neg hcut]; trivial

/-- A granted chunk, cut or whole, fits between any two parts of a heap when the second part does not begin with a free chunk. -/
theorem noTwoFree_grant {pre post : List Chunk} (hdr rs : Nat) (k : Chunk) (hpre : NoTwoFree pre) (hpost : NoTwoFree post)
    (hhead : ∀ n ∈ post.head?, n.allocated = true) : NoTwoFree (pre ++ grantChunk hdr rs k ++ post) := by
  have hleft : NoTwoFree (pre ++ grantChunk hdr rs k) := by
    refine noTwoFree_append.2 ⟨hpre, noTwoFree_grantChunk hdr rs k, fun _ _ n hn hboth => ?_⟩
    obtain ⟨len, tail, -, hgrant, -⟩ := splitChunk_grantChunk hdr rs k
    rw [hgrant] at hn
    obtain rfl : _ = n := Option.some.inj hn
    exact absurd hboth.2 (by simp)
  exact noTwoFree_append.2 ⟨hleft, hpost, fun _ _ n hn hboth => absurd (hhead n hn) (by simp [hboth.2])⟩

theorem aligned_grantChunk {hdr rs : Nat} {k : Chunk} (hhdr : hdr % 8 = 0) (hrs : rs % 8 = 0) (hk : k.len % 8 = 0) :
    ∀ c ∈ grantChunk hdr rs k, c.len % 8 = 0 := by
  by_cases hcut : 8 + hdr ≤ k.len - rs
  · rw [grantChunk, if_pos hcut]
    exact List.forall_mem_cons.2 ⟨hrs, List.forall_mem_singleton.2 (by simp only; omega)⟩
  · rw [grantChunk, if_neg hcut]
    exact List.forall_mem_singleton.2 hk

/-- The chunk after a free chunk of a well-formed heap is allocated. -/
theorem head_allocated_of_free {pre post : List Chunk} {k : Chunk} (h : NoTwoFree (pre ++ k :: post)) (hk : k.allocated = false) :
    ∀ n ∈ post.head?, n.allocated = true := by
  intro n hn
  cases post with
  | nil => cases hn
  | cons c post =>
    obtain rfl : c = n := Option.some.inj hn
    simpa [hk] using (noTwoFree_append.1 h).2.1.1

/-! ## The heap commands' work on memory -/

/-- Memory `m` holds the well-formed heap `ks`, and is `m₀` after writes inside the arena. -/
structure HeapFrom (m₀ : Memory) (cfg : Config) (m : Memory) (size : Nat) (ks : List Chunk) : Prop where
  heap : HeapIs cfg m size ks
  written : WrittenBelow (cfg.arenaBase + size) m₀ m

theorem heapFrom_refl {cfg : Config} {m : Memory} {size : Nat} {ks : List Chunk} (h : HeapIs cfg m size ks) :
    HeapFrom m cfg m size ks := ⟨h, .refl⟩

namespace HeapFrom

variable {m₀ m : Memory} {cfg : Config} {size rs : Nat} {ks pre post : List Chunk} {k n g : Chunk}

theorem held (h : HeapFrom m₀ cfg m size ks) : HeldFrom m₀ cfg m size ks := ⟨⟨h.heap.layout, h.heap.tiles⟩, h.written⟩

/-- A heap of the same arena, laid out by more writes inside it, is well-formed when its clauses 5 and 6 hold. -/
theorem of_held (ok : ArenaOk cfg size) (h : HeapFrom m₀ cfg m size ks) {m' : Memory} {ks' : List Chunk}
    (held : HeldFrom m₀ cfg m' size ks') (hnf : NoTwoFree ks') (haligned : ∀ c ∈ ks', c.len % 8 = 0) :
    HeapFrom m₀ cfg m' size ks' where
  heap := {
    nonempty := by
      rintro rfl
      have hsize : cfg.arenaBase = cfg.arenaBase + size := held.holds.tiles
      obtain ⟨k, hk⟩ := List.exists_mem_of_ne_nil _ h.heap.nonempty
      have := tiles_mem h.heap.tiles hk
      have := ok.hdr
      omega
    layout := held.holds.layout
    tiles := held.holds.tiles
    noTwoFree := hnf
    aligned := haligned }
  written := held.written

/-- Granting a free chunk that is long enough. -/
theorem grant (ok : ArenaOk cfg size) (hhdr : cfg.hdr % 8 = 0) (h : HeapFrom m₀ cfg m size (pre ++ k :: post))
    (hfree : k.allocated = false) (hrs : rs ≤ k.len) (hrs8 : rs % 8 = 0) :
    HeapFrom m₀ cfg (setAllocated (split cfg m k.addr rs) k.addr 1) size (pre ++ grantChunk cfg.hdr rs k ++ post) := by
  obtain ⟨hnfPre, hnfPost, -⟩ := noTwoFree_append.1 h.heap.noTwoFree
  obtain ⟨hpre, haligned⟩ := List.forall_mem_append.1 h.heap.aligned
  obtain ⟨hk, hpost⟩ := List.forall_mem_cons.1 haligned
  refine h.of_held ok (h.held.grant ok hrs) ?_ ?_
  · exact noTwoFree_grant _ _ _ hnfPre (noTwoFree_tail hnfPost)
      (head_allocated_of_free h.heap.noTwoFree hfree)
  · simp only [List.forall_mem_append]
    exact ⟨⟨hpre, aligned_grantChunk hhdr hrs8 hk⟩, hpost⟩

/-- ALLOC's work on memory: the first fit is granted. -/
theorem allocChunk (ok : ArenaOk cfg size) (hhdr : cfg.hdr % 8 = 0) (h : HeapFrom m₀ cfg m size ks) {m' : Memory} {request d : Nat}
    (halloc : allocChunk cfg m (ks.map Chunk.addr) request = some (m', d)) :
    ∃ pre k post, ks = pre ++ k :: post ∧ k.addr = d ∧ k.allocated = false ∧ round8 request ≤ k.len ∧
      HeapFrom m₀ cfg m' size (pre ++ grantChunk cfg.hdr (round8 request) k ++ post) := by
  obtain ⟨hfit, rfl⟩ := allocChunk_some halloc
  obtain ⟨hmem, hflag, hlen⟩ := firstFit_some hfit
  obtain ⟨pre, k, post, rfl, rfl, hklen, hkflag⟩ := chunk_of_addr h.held.holds hmem
  have hfree : k.allocated = false := flagWord_eq_zero.1 (hkflag ▸ hflag)
  rw [hklen] at hlen
  exact ⟨pre, k, post, rfl, rfl, hfree, hlen, h.grant ok hhdr hfree hlen (round8_mod request)⟩

/-- FREE's work on memory: the chunk is free and merged with its free neighbours. -/
theorem freeChunk (ok : ArenaOk cfg size) (hhdr : cfg.hdr % 8 = 0) (h : HeapFrom m₀ cfg m size ks) (hk : k ∈ ks) :
    HeapFrom m₀ cfg (freeChunk cfg m k.addr) size (freeList cfg.hdr k.addr ks) := by
  have haligned : ∀ c ∈ markFree k.addr ks, c.len % 8 = 0 := by
    intro c hc
    obtain ⟨c₀, hc₀, rfl⟩ := List.mem_map.1 hc
    rw [apply_ite Chunk.len, ite_self]
    exact h.heap.aligned c₀ hc₀
  have hheld : HeldFrom m₀ cfg (Machine.freeChunk cfg m k.addr) size (freeList cfg.hdr k.addr ks) := by
    obtain ⟨pre, post, rfl⟩ := List.append_of_mem hk
    exact h.held.freeChunk ok h.heap.noTwoFree
  exact h.of_held ok hheld (noTwoFree_coalesce _ _) (aligned_coalesce hhdr haligned)

/-- REALLOC in place: the free next chunk is absorbed and the whole is cut at the rounded size (40_heap.md R111). -/
theorem reallocInPlace (ok : ArenaOk cfg size) (hhdr : cfg.hdr % 8 = 0) (h : HeapFrom m₀ cfg m size (pre ++ k :: n :: post))
    (hk : k.allocated = true) (hn : n.allocated = false) {newSize : Nat} (hfits : newSize ≤ k.len + cfg.hdr + n.len) :
    HeapFrom m₀ cfg (reallocInPlace cfg m k.addr newSize) size
      (pre ++ grantChunk cfg.hdr (round8 newSize) ⟨k.addr, k.len + cfg.hdr + n.len, true⟩ ++ post) := by
  obtain ⟨hpre, haligned⟩ := List.forall_mem_append.1 h.heap.aligned
  obtain ⟨hkLen, haligned⟩ := List.forall_mem_cons.1 haligned
  obtain ⟨hnLen, hpost⟩ := List.forall_mem_cons.1 haligned
  obtain ⟨hnfPre, hnfNext, -⟩ := noTwoFree_append.1 h.heap.noTwoFree
  have hnext : hdrNext m k.addr = n.addr := h.held.holds.header.next
  have hsum : (k.len + cfg.hdr + n.len) % 8 = 0 := by omega
  have hmerged := h.held.absorb ok
  rw [hk] at hmerged
  have hcut := hmerged.split ok (rs := round8 newSize) ((round8_le_iff _ _ hsum).2 hfits)
  rw [splitChunk_eq_grantChunk _ _ rfl, ← hnext] at hcut
  refine h.of_held ok hcut ?_ ?_
  · exact noTwoFree_grant _ _ _ hnfPre (noTwoFree_tail (noTwoFree_tail hnfNext))
      (head_allocated_of_free (pre := [k]) hnfNext hn)
  · simp only [List.forall_mem_append]
    exact ⟨⟨hpre, aligned_grantChunk hhdr (round8_mod newSize) hsum⟩, hpost⟩

/-- A copy into a chunk's payload writes no header (40_heap.md R112). -/
theorem copyUnits (ok : ArenaOk cfg size) (h : HeapFrom m₀ cfg m size ks) (hg : g ∈ ks) {p units : Nat} (hlen : 8 * units ≤ g.len) :
    HeapFrom m₀ cfg (copyUnits m p (g.addr + cfg.hdr) units) size ks := by
  have hhdr := ok.hdr
  have hend := (tiles_mem h.heap.tiles hg).2
  refine h.of_held ok ⟨h.held.holds.congr fun k hk x hlo hhi => ?_, h.written.copyUnits (by omega)⟩ h.heap.noTwoFree h.heap.aligned
  have hapart := header_payload_apart h.heap.tiles hg hk
  exact read_copyUnits_outside _ _ _ _ _ (by omega)

end HeapFrom

/-! ## The heap commands on the state -/

/-- A machine on which a heap command runs has an arena and, in it, the heap its chunk list names. -/
theorem heapOpen_arena {s : State} {cs : List Nat} (hw : s.cfg.wellFormed = true) (h : HeapOpen s cs) :
    ∃ size ks, s.arenaSize = some size ∧ cs = ks.map Chunk.addr ∧ HeapIs s.cfg s.mem size ks ∧ ArenaOk s.cfg size := by
  obtain ⟨-, -, hchunks, hbacked⟩ := h
  obtain ⟨-, hhdr, -, hbase, -⟩ := (wellFormed_iff s.cfg).1 hw
  cases ha : s.arenaSize with
  | none => simp [State.heapChunks, ha] at hchunks
  | some size =>
    have hview : s.heapView = some (cs.map (chunkAt s.mem)) := by rw [State.heapView, hchunks, Option.map_some]
    rw [ha, Option.getD_some] at hbacked
    obtain ⟨-, hfits⟩ := (backed_eq_true_iff _ _ _).1 hbacked
    refine ⟨size, _, rfl, ?_, (heapView_eq_some_iff ha hw _).1 hview, ⟨hhdr, hbase, hfits, by omega⟩⟩
    rw [List.map_map]
    exact (List.map_id cs).symm

/-- HeapWF holds exactly when memory holds a layout of chunks over the arena. -/
theorem heapWF_iff {s : State} {size : Nat} (ha : s.arenaSize = some size) (hw : s.cfg.wellFormed = true) :
    s.heapWF = true ↔ ∃ ks, HeapIs s.cfg s.mem size ks := by
  simp only [← heapView_eq_some_iff ha hw, ← Option.isSome_iff_exists, State.heapView, Option.isSome_map, State.heapWF]

/-- A valid pointer is the payload address of an allocated chunk of the heap (10_state.md R32, R36). -/
theorem validPointer_chunk {cfg : Config} {m : Memory} {size p : Nat} {ks : List Chunk} (h : Holds cfg m size ks)
    (hp : validPointer cfg m (ks.map Chunk.addr) p = true) :
    ∃ pre k post, ks = pre ++ k :: post ∧ k.addr = p - cfg.hdr ∧ k.allocated = true := by
  simp only [validPointer, Bool.and_eq_true, List.contains_iff_mem, beq_iff_eq] at hp
  obtain ⟨⟨-, hmem⟩, hflag⟩ := hp
  obtain ⟨pre, k, post, hks, haddr, -, hkflag⟩ := chunk_of_addr h hmem
  exact ⟨pre, k, post, hks, haddr, flagWord_eq_one.1 (hkflag ▸ hflag)⟩

/-- The test of REALLOC's in-place path finds a free next chunk that is long enough (40_heap.md R110). -/
theorem reallocFitsInPlace_chunk {cfg : Config} {m : Memory} {size newSize : Nat} {pre post : List Chunk} {k : Chunk}
    (h : Holds cfg m size (pre ++ k :: post)) (hfits : reallocFitsInPlace cfg m k.addr newSize = true) :
    ∃ n post', post = n :: post' ∧ n.allocated = false ∧ newSize ≤ k.len + cfg.hdr + n.len := by
  simp only [reallocFitsInPlace, Bool.and_eq_true, bne_iff_ne, beq_iff_eq, decide_eq_true_eq, h.header.next,
    h.header.length] at hfits
  obtain ⟨⟨hne, hflag⟩, hlen⟩ := hfits
  cases post with
  | nil => exact absurd rfl hne
  | cons n post =>
    have hn : HeaderIs m n.addr _ _ n.len (flagWord n.allocated) := ((layout_append _ _ _ _ _).1 h.layout).2.2.1
    rw [headAddr, hn.allocated] at hflag
    rw [headAddr, hn.length] at hlen
    exact ⟨n, post, rfl, flagWord_eq_zero.1 hflag, hlen⟩

/-- The memory `m` holds a well-formed heap in the arena of `s`, and is the memory of `s` after writes inside that arena. -/
def KeepsHeap (s : State) (m : Memory) : Prop :=
  ∃ size ks, s.arenaSize = some size ∧ HeapFrom s.mem s.cfg m size ks

/-- The two states agree on everything HeapWF and the invariant of the machine speak of. -/
structure SameHeapState (s t : State) : Prop where
  cfg : t.cfg = s.cfg
  status : t.status = s.status
  mem : t.mem = s.mem
  arenaSize : t.arenaSize = s.arenaSize
  headerOverwritten : t.headerOverwritten = s.headerOverwritten

theorem sameHeapState_setA (s : State) (r : AReg) (v : Word) : SameHeapState s (s.setA r v) := by
  constructor <;> simp

/-- What a heap command that answers a next state has done: it ran on an open heap, and it halted or wrote memory so that the
heap is well-formed. -/
def HeapOutcome (s t : State) : Prop :=
  ∃ cs, HeapOpen s cs ∧ (t = s.enterHalt causeOOM ∨ ∃ m, KeepsHeap s m ∧ SameHeapState (s.setMem m) t)

section
variable {s t : State} (hw : s.cfg.wellFormed = true)
include hw

theorem execAlloc_outcome (h : execAlloc s = .next t) : HeapOutcome s t := by
  obtain ⟨cs, hopen, hresult⟩ := execAlloc_next h
  obtain ⟨size, ks, ha, rfl, hheap, ok⟩ := heapOpen_arena hw hopen
  obtain ⟨hhdr, -⟩ := (wellFormed_iff s.cfg).1 hw
  refine ⟨_, hopen, ?_⟩
  obtain ⟨-, rfl⟩ | ⟨m, d, halloc, rfl⟩ := hresult
  · exact .inl rfl
  · obtain ⟨_, _, _, -, -, -, -, hgranted⟩ := (heapFrom_refl hheap).allocChunk ok hhdr halloc
    exact .inr ⟨m, ⟨size, _, ha, hgranted⟩, sameHeapState_setA _ _ _⟩

theorem execFree_outcome (h : execFree s = .next t) : HeapOutcome s t := by
  obtain ⟨cs, hopen, hresult⟩ := execFree_next h
  obtain ⟨size, ks, ha, rfl, hheap, ok⟩ := heapOpen_arena hw hopen
  obtain ⟨hhdr, -⟩ := (wellFormed_iff s.cfg).1 hw
  refine ⟨_, hopen, .inr ?_⟩
  have hfrom := heapFrom_refl hheap
  obtain ⟨-, rfl⟩ | ⟨-, hvalid, rfl⟩ := hresult
  · exact ⟨_, ⟨size, ks, ha, hfrom⟩, ⟨rfl, rfl, rfl, rfl, rfl⟩⟩
  · obtain ⟨pre, k, post, rfl, haddr, -⟩ := validPointer_chunk hfrom.held.holds hvalid
    have hfreed := hfrom.freeChunk ok hhdr (k := k) (by simp)
    rw [haddr] at hfreed
    exact ⟨_, ⟨size, _, ha, hfreed⟩, ⟨rfl, rfl, rfl, rfl, rfl⟩⟩

/-- REALLOC's copy path: the old chunk is still in the heap after the grant, and the copy stays in the granted payload. -/
theorem reallocCopy_keepsHeap {size newSize d : Nat} {pre post : List Chunk} {k : Chunk} {m : Memory} (ha : s.arenaSize = some size)
    (ok : ArenaOk s.cfg size) (hheap : HeapIs s.cfg s.mem size (pre ++ k :: post)) (hk : k.allocated = true)
    (halloc : allocChunk s.cfg s.mem ((pre ++ k :: post).map Chunk.addr) newSize = some (m, d))
    (hunit : min (hdrLength s.mem k.addr) newSize % 8 = 0) :
    KeepsHeap s (freeChunk s.cfg (copyUnits m (k.addr + s.cfg.hdr) (d + s.cfg.hdr)
      (min (hdrLength s.mem k.addr) newSize / 8)) k.addr) := by
  obtain ⟨hhdr, -⟩ := (wellFormed_iff s.cfg).1 hw
  obtain ⟨pre', f, post', hks, rfl, hfree, hlen, hgranted⟩ := (heapFrom_refl hheap).allocChunk ok hhdr halloc
  obtain ⟨len, tail, -, hgrant, hrs⟩ := splitChunk_grantChunk s.cfg.hdr (round8 newSize) f
  have hkf : k ≠ f := by rintro rfl; exact absurd hk (by simp [hfree])
  have hkOld : k ∈ pre' ++ f :: post' := hks ▸ (by simp)
  have hkNew : k ∈ pre' ++ grantChunk s.cfg.hdr (round8 newSize) f ++ post' := by
    rcases List.mem_append.1 hkOld with hpre | hcons
    · simp [hpre]
    · simp [(List.mem_cons.1 hcons).resolve_left hkf]
  have hcount : 8 * (min (hdrLength s.mem k.addr) newSize / 8) ≤ len := by
    have := hrs hlen
    have := le_round8 newSize
    omega
  have hcopied := hgranted.copyUnits ok (g := ⟨f.addr, len, true⟩) (by simp [hgrant]) (p := k.addr + s.cfg.hdr) hcount
  exact ⟨size, _, ha, hcopied.freeChunk ok hhdr hkNew⟩

theorem execRealloc_outcome (h : execRealloc s = .next t) : HeapOutcome s t := by
  obtain ⟨cs, hopen, hvalid, hresult⟩ := execRealloc_next h
  obtain ⟨size, ks, ha, rfl, hheap, ok⟩ := heapOpen_arena hw hopen
  obtain ⟨hhdr, -⟩ := (wellFormed_iff s.cfg).1 hw
  have hfrom := heapFrom_refl hheap
  obtain ⟨pre, k, post, rfl, haddr, hk⟩ := validPointer_chunk hfrom.held.holds hvalid
  rw [← haddr] at hresult
  refine ⟨_, hopen, ?_⟩
  obtain ⟨hfits, rfl⟩ | ⟨-, hcopy⟩ := hresult
  · obtain ⟨n, post, rfl, hn, hlen⟩ := reallocFitsInPlace_chunk hfrom.held.holds hfits
    exact .inr ⟨_, ⟨size, _, ha, hfrom.reallocInPlace ok hhdr hk hn hlen⟩, ⟨rfl, rfl, rfl, rfl, rfl⟩⟩
  · obtain ⟨-, rfl⟩ | ⟨m, d, halloc, hunit, rfl⟩ := reallocCopy_next hcopy
    · exact .inl rfl
    · exact .inr ⟨_, reallocCopy_keepsHeap hw ha ok hheap hk halloc hunit, sameHeapState_setA _ _ _⟩

theorem heapCommand_outcome {i : Instr} (hi : i ∈ heapCommands) (h : exec i s = .next t) : HeapOutcome s t := by
  simp only [heapCommands, List.mem_cons, List.not_mem_nil, or_false] at hi
  obtain rfl | rfl | rfl := hi
  · exact execAlloc_outcome hw h
  · exact execFree_outcome hw h
  · exact execRealloc_outcome hw h

end

/-! ## INIT (40_heap.md R101) -/

theorem memSizeOk_iff (cfg : Config) (memSize : Nat) :
    memSizeOk cfg memSize = true ↔
      memSize % 8 = 0 ∧ 2 * cfg.hdr ≤ memSize ∧ cfg.arenaBase + memSize - cfg.hdr ≤ cfg.memLimit := by
  simp only [memSizeOk, Bool.and_eq_true, beq_iff_eq, decide_eq_true_eq, and_assoc]

/-- INIT's four header writes make a heap of one free chunk that spans the arena. -/
theorem heapFrom_initHeader {cfg : Config} (m : Memory) {size : Nat} (ok : ArenaOk cfg size) (hhdr : cfg.hdr % 8 = 0)
    (hsize : cfg.hdr ≤ size) (hsize8 : size % 8 = 0) :
    HeapFrom m cfg (initHeader cfg m size) size [⟨cfg.arenaBase, size - cfg.hdr, false⟩] := by
  have := ok.hdr
  have := ok.fits
  have := ok.below
  exact {
    heap := {
      nonempty := List.cons_ne_nil _ _
      layout := ⟨headerIs_written m cfg.arenaBase 0 0 _ 0 (by omega) (by omega) (by omega) (by omega), trivial⟩
      tiles := ⟨rfl, show cfg.arenaBase + cfg.hdr + (size - cfg.hdr) = cfg.arenaBase + size by omega⟩
      noTwoFree := trivial
      aligned := List.forall_mem_singleton.2 (by simp only; omega) }
    written := WrittenBelow.refl.header (by omega) _ _ _ _ }

/-- The arena INIT makes, and the heap in it. -/
theorem execInit_outcome {s t : State} (hw : s.cfg.wellFormed = true) (h : execInit s = .next t) :
    ∃ size m ks, t = { s with
        mem := m
        arenaSize := some size
        headerOverwritten := false
        status := statusSetInit s.status } ∧
      size % 8 = 0 ∧ s.cfg.hdr ≤ size ∧ backed s.cfg s.cfg.arenaBase size = true ∧ HeapFrom s.mem s.cfg m size ks := by
  obtain ⟨-, hsize, rfl⟩ := execInit_next h
  obtain ⟨hmod, hroom, hlimit⟩ := (memSizeOk_iff _ _).1 hsize
  obtain ⟨hhdr, hhdr16, -, hbase, -, hmax⟩ := (wellFormed_iff s.cfg).1 hw
  have ok : ArenaOk s.cfg (s.opA .a0 - s.cfg.hdr) := ⟨hhdr16, hbase, by omega, by omega⟩
  exact ⟨_, _, _, rfl, by omega, by omega, (backed_eq_true_iff _ _ _).2 ⟨by omega, by omega⟩,
    heapFrom_initHeader s.mem ok hhdr (by omega) (by omega)⟩

/-! ## HeapWF after the heap commands -/

theorem heapWF_congr {s t : State} (hcfg : t.cfg = s.cfg) (hmem : t.mem = s.mem) (ha : t.arenaSize = s.arenaSize) :
    t.heapWF = s.heapWF := by
  cases s; cases t; cases hcfg; cases hmem; cases ha; rfl

theorem heapWF_of_heapOpen {s : State} {cs : List Nat} (h : HeapOpen s cs) : s.heapWF = true := by
  obtain ⟨-, -, hchunks, -⟩ := h
  rw [State.heapWF, hchunks, Option.isSome_some]

theorem heapWF_of_keepsHeap {s t : State} {m : Memory} (hw : s.cfg.wellFormed = true) (hm : KeepsHeap s m)
    (ht : SameHeapState (s.setMem m) t) : t.heapWF = true := by
  obtain ⟨size, ks, ha, hfrom⟩ := hm
  rw [heapWF_congr ht.cfg ht.mem ht.arenaSize]
  exact (heapWF_iff (s := s.setMem m) ha hw).2 ⟨ks, hfrom.heap⟩

/-- Settles O53: INIT lays out one free chunk, a halt leaves the heap alone, and every other outcome has laid out a well-formed heap. -/
theorem heapCommandsPreserveHeapWF : Obligations.HeapCommandsPreserveHeapWF := by
  refine ⟨fun s t hw h => ?_, fun s t i cs hi hready h => ?_⟩
  · obtain ⟨size, m, ks, rfl, -, -, -, hfrom⟩ := execInit_outcome hw h
    refine (heapWF_iff rfl ?_).2 ⟨ks, hfrom.heap⟩
    exact hw
  · obtain ⟨hw, -⟩ := (heapReady_iff_heapOpen s cs).1 hready
    obtain ⟨cs, hopen, rfl | ⟨m, hm, ht⟩⟩ := heapCommand_outcome hw hi h
    · exact ⟨(heapWF_congr (s := s) rfl rfl rfl).trans (heapWF_of_heapOpen hopen), rfl⟩
    · exact ⟨heapWF_of_keepsHeap hw hm ht, ht.arenaSize⟩

end Sys2Proof.Proofs
end

section
/-! PROOFS. Every step keeps the invariant of the machine: one lemma for each way a step changes the state, then the step. -/

namespace Sys2Proof.Proofs

open Sys2Proof Sys2Proof.Machine Sys2Proof.Laws

/-! ## States that differ in what the invariant does not speak of -/

theorem inv_congr {s t : State} (h : s.Inv) (e : SameHeapState s t) : t.Inv := by
  obtain ⟨hcfg, hstatus, hmem, ha, hnote⟩ := e
  cases s; cases t; cases hcfg; cases hstatus; cases hmem; cases ha; cases hnote
  obtain ⟨h1, h2, h3, h4, h5, h6, h7⟩ := h
  exact ⟨h1, h2, h3, h4, h5, h6, h7⟩

theorem sameHeapState_setW (s : State) (r : WReg) (v : DWord) : SameHeapState s (s.setW r v) := by
  constructor <;> simp

theorem sameHeapState_setWide (s : State) (v : DWord × DWord) : SameHeapState s (s.setWide v) := by
  constructor <;> simp

theorem sameHeapState_portRead (s : State) (r : PortReg) : SameHeapState s (s.portRead r) := by
  constructor <;> simp

theorem sameHeapState_respond (s : State) (v : Response) : SameHeapState s (s.respond v) := by
  constructor <;> simp

theorem sameHeapState_recordOperands (s : State) (i : Instr) : SameHeapState s (s.recordOperands i) := by
  constructor <;> simp

theorem sameHeapState_pending (s : State) (ts : List Transaction) : SameHeapState s { s with pending := ts } :=
  ⟨rfl, rfl, rfl, rfl, rfl⟩

/-! ## Reset, halt entry and stores into buffers -/

theorem initialised_applyReset (s : State) : s.applyReset.initialised = false := by simp [State.initialised, statusInit]

/-- Reset leaves memory, which stays canonical and backed, and no arena; STATUS is as in `State.reset` (10_state.md R45). -/
theorem inv_applyReset {s : State} (h : s.Inv) : s.applyReset.Inv where
  cfg_wellFormed := h.cfg_wellFormed
  mem_canonical := h.mem_canonical
  mem_inRange := h.mem_inRange
  status_legal := resetStateMeetsTheInvariant.status_legal
  halted_initialised := resetStateMeetsTheInvariant.halted_initialised
  arena_legal := ⟨initialised_applyReset s, fun _ hsize => absurd hsize (by simp)⟩
  heap_intact := fun hi => absurd hi (by simp [initialised_applyReset])

/-- The halt for want of memory comes from an initialised block and writes STATUS alone (60_exceptions.md R161). -/
theorem inv_enterHalt {s : State} (h : s.Inv) (hinit : s.initialised = true) : (s.enterHalt causeOOM).Inv := by
  have hinit' : (s.enterHalt causeOOM).initialised = true := (statusInit_setHalt s.status causeOOM).trans hinit
  have hhalt' : (s.enterHalt causeOOM).halted = true := statusHalt_setHalt s.status causeOOM
  exact {
    cfg_wellFormed := h.cfg_wellFormed
    mem_canonical := h.mem_canonical
    mem_inRange := h.mem_inRange
    status_legal := ⟨(statusReserved_setHalt s.status causeOOM).trans h.status_legal.1, by
      rw [hhalt', enterHalt_status, statusCause_setHalt, if_pos rfl]⟩
    halted_initialised := fun _ => hinit'
    arena_legal := ⟨(hinit'.trans hinit.symm).trans h.arena_legal.1, h.arena_legal.2⟩
    heap_intact := fun _ hnote => (heapWF_congr (s := s) rfl rfl rfl).trans (h.heap_intact hinit hnote) }

/-- The chunk list of a well-formed heap is the walk's (10_state.md R34, clause 1). -/
theorem chunkList_of_heapChunks {s : State} {cs : List Nat} (h : s.heapChunks = some cs) : s.chunkList = some cs := by
  unfold State.heapChunks at h
  split at h
  next size ds _ hlist =>
    split at h
    · rwa [← Option.some.inj h]
    · cases h
  next => cases h

/-- A heap that meets the invariant, as a layout of chunks whose headers are the live ones (10_state.md R34). -/
theorem inv_heapIs {s : State} (h : s.Inv) (hinit : s.initialised = true) (hnote : s.headerOverwritten = false) :
    ∃ size ks, s.arenaSize = some size ∧ HeapIs s.cfg s.mem size ks ∧ s.liveChunks = ks.map Chunk.addr := by
  obtain ⟨size, ha⟩ := Option.isSome_iff_exists.1 (h.arena_legal.1.symm.trans hinit)
  obtain ⟨-, -, hbacked⟩ := h.arena_legal.2 size ha
  have hwf := h.heap_intact hinit hnote
  obtain ⟨cs, hchunks⟩ := Option.isSome_iff_exists.1 hwf
  obtain ⟨size', ks, ha', rfl, hheap, -⟩ :=
    heapOpen_arena h.cfg_wellFormed (cs := cs) ⟨hinit, hnote, hchunks, by rwa [ha, Option.getD_some]⟩
  exact ⟨size', ks, ha', hheap, by rw [State.liveChunks, chunkList_of_heapChunks hchunks, Option.getD_some]⟩

/-- Bytes stored outside every live header leave HeapWF as it was (20_memory.md R62 duty 1). -/
theorem heapIntact_storeBytes {s : State} (h : s.Inv) (a : Nat) (bs : List Byte) : (s.storeBytes a bs).HeapIntact := by
  intro hinit hnote'
  obtain ⟨hnote, hmiss⟩ := Bool.or_eq_false_iff.1 hnote'
  obtain ⟨size, ks, ha, hheap, hlive⟩ := inv_heapIs h hinit hnote
  obtain ⟨-, hhdr, -⟩ := (wellFormed_iff s.cfg).1 h.cfg_wellFormed
  refine (heapWF_iff (s := s.storeBytes a bs) ha h.cfg_wellFormed).2 ⟨ks, { hheap with layout := ?_ }⟩
  refine hheap.layout.congr fun k hk x hlo hhi => read_writeBytes_outside _ _ _ _ ?_
  by_contra hin
  have htouch := (touchesLiveHeader_iff s a bs.length).2
    ⟨k.addr, hlive ▸ List.mem_map_of_mem hk, x, ⟨hlo, by omega⟩, ⟨by omega, by omega⟩⟩
  exact absurd hmiss (by simp [htouch])

/-- A store of backed bytes, or of none, keeps the invariant: a live header it hits is noted. -/
theorem inv_storeBytes {s : State} (h : s.Inv) {a : Nat} {bs : List Byte} (hb : hostMayAccess s.cfg a bs.length = true) :
    (s.storeBytes a bs).Inv where
  cfg_wellFormed := h.cfg_wellFormed
  mem_canonical := wf_writeBytes h.mem_canonical a bs
  mem_inRange := fun c hc => by
    rcases mem_writeBytes hc with hnew | hold
    · rcases (hostMayAccess_iff _ _ _).1 hb with hnone | hbacked
      · omega
      · have := ((backed_eq_true_iff _ _ _).1 hbacked).1
        exact Nat.lt_of_lt_of_le hnew.2 this
    · exact h.mem_inRange c hold
  status_legal := h.status_legal
  halted_initialised := h.halted_initialised
  arena_legal := h.arena_legal
  heap_intact := heapIntact_storeBytes h a bs

/-! ## The heap commands -/

/-- Writes inside a backed arena are to bytes that exist (20_memory.md R51). -/
theorem memInRange_of_written {s : State} {m : Memory} {size : Nat} (h : s.MemInRange)
    (hbacked : backed s.cfg s.cfg.arenaBase size = true) (hm : WrittenBelow (s.cfg.arenaBase + size) s.mem m) :
    ∀ c ∈ m, c.1 < s.cfg.memLimit := by
  intro c hc
  obtain ⟨hle, -⟩ := (backed_eq_true_iff _ _ _).1 hbacked
  rcases hm.mem_or_lt hc with hold | hlt
  · exact h c hold
  · omega

/-- A heap command's own writes keep the invariant. -/
theorem inv_setMem {s : State} {m : Memory} (h : s.Inv) (hm : KeepsHeap s m) : (s.setMem m).Inv := by
  obtain ⟨size, ks, ha, hfrom⟩ := hm
  obtain ⟨-, -, hbacked⟩ := h.arena_legal.2 size ha
  exact {
    cfg_wellFormed := h.cfg_wellFormed
    mem_canonical := hfrom.written.wf h.mem_canonical
    mem_inRange := memInRange_of_written (s := s) h.mem_inRange hbacked hfrom.written
    status_legal := h.status_legal
    halted_initialised := h.halted_initialised
    arena_legal := h.arena_legal
    heap_intact := fun _ _ => (heapWF_iff (s := s.setMem m) ha h.cfg_wellFormed).2 ⟨ks, hfrom.heap⟩ }

theorem inv_of_heapOutcome {s t : State} (h : s.Inv) (ht : HeapOutcome s t) : t.Inv := by
  obtain ⟨cs, ⟨hinit, -⟩, rfl | ⟨m, hm, hsame⟩⟩ := ht
  · exact inv_enterHalt h hinit
  · exact inv_congr (inv_setMem h hm) hsame

/-- INIT makes a legal arena with a well-formed heap (40_heap.md R101). -/
theorem inv_execInit {s t : State} (h : s.Inv) (hexec : execInit s = .next t) : t.Inv := by
  obtain ⟨size, m, ks, rfl, hsize8, hroom, hbacked, hfrom⟩ := execInit_outcome h.cfg_wellFormed hexec
  have hinit : statusInit (statusSetInit s.status) = true := statusInit_setInit s.status
  obtain ⟨hreserved, hcause⟩ := h.status_legal
  exact {
    cfg_wellFormed := h.cfg_wellFormed
    mem_canonical := hfrom.written.wf h.mem_canonical
    mem_inRange := memInRange_of_written (s := s) h.mem_inRange hbacked hfrom.written
    status_legal := ⟨(statusReserved_setInit s.status).trans hreserved, by
      rw [State.halted, statusCause_setInit, statusHalt_setInit]; exact hcause⟩
    halted_initialised := fun _ => hinit
    arena_legal := ⟨hinit, fun _ hs => by
      obtain rfl := Option.some.inj hs
      exact ⟨hsize8, hroom, hbacked⟩⟩
    heap_intact := fun _ _ => by
      refine (heapWF_iff rfl ?_).2 ⟨ks, hfrom.heap⟩
      exact h.cfg_wellFormed }

/-! ## The step -/

/-- Every command keeps the invariant, by what it changes. -/
theorem inv_exec {s t : State} {i : Instr} (h : s.Inv) (hexec : exec i s = .next t) : t.Inv := by
  obtain ⟨-, a, bs, hb, rfl⟩ | ⟨-, v, rfl⟩ | ⟨rfl, -, hInit⟩ | ⟨rfl, -⟩ | ⟨rfl, -⟩ | ⟨rfl, -⟩ := exec_cases hexec
  · exact inv_storeBytes h ((hostMayAccess_iff _ _ _).2 (.inr hb))
  · exact inv_congr h (sameHeapState_setWide s v)
  · exact inv_execInit h hInit
  all_goals exact inv_of_heapOutcome h (heapCommand_outcome h.cfg_wellFormed (by decide) hexec)

/-- Every transaction keeps the invariant, one case a kind. -/
theorem inv_serve {s t : State} {x : Transaction} (h : s.Inv) (hserve : serve s x = .next t) : t.Inv := by
  obtain ⟨r, v, rfl, rfl⟩ | ⟨r, v, rfl, rfl⟩ | ⟨v, rfl, rfl⟩ | ⟨w, i, rfl, -, hexec⟩ | ⟨r, rfl, rfl⟩ | ⟨a, bs, rfl, hb, rfl⟩ |
    ⟨a, n, rfl, -, rfl⟩ | ⟨rfl, rfl⟩ := serve_cases hserve
  · exact inv_congr h (sameHeapState_setA s r v)
  · exact inv_congr h (sameHeapState_setW s r v)
  · exact h
  · exact inv_exec (inv_congr h (sameHeapState_recordOperands s i)) hexec
  · exact inv_congr h (sameHeapState_portRead s r)
  · exact inv_storeBytes h hb
  · exact inv_congr h (sameHeapState_respond s _)
  · exact inv_applyReset h

/-- Settles O58: a step waits, or takes one transaction off the list and serves it. -/
theorem everyStepKeepsTheInvariant : Obligations.EveryStepKeepsTheInvariant := by
  intro s t h hstep
  obtain ⟨-, rfl⟩ | ⟨x, xs, -, -, hserve⟩ := step_cases hstep
  · exact h
  · exact inv_serve (inv_congr h (sameHeapState_pending s xs)) hserve

end Sys2Proof.Proofs
end

section
/-! PROOFS. What the host may rely on between commands: transactions are served in order, memory accesses do what they say, and a live
header written by anything but a heap command stays noted (20_memory.md R58, R62). -/

namespace Sys2Proof.Proofs

open Sys2Proof Sys2Proof.Machine Sys2Proof.Laws

/-! ## What is the host's: its list, the parameters and the record of a violation -/

/-- From `s` to `t` the host's list and the parameters stay as they are, and a recorded violation stays recorded (60_exceptions.md R165). -/
structure HostKept (s t : State) : Prop where
  pending : t.pending = s.pending
  cfg : t.cfg = s.cfg
  recorded : s.unwrittenRegisterViolation = true → t.unwrittenRegisterViolation = true

theorem hostKept_of_eq {s t : State} (hpending : t.pending = s.pending) (hcfg : t.cfg = s.cfg)
    (hrecord : t.unwrittenRegisterViolation = s.unwrittenRegisterViolation) : HostKept s t :=
  ⟨hpending, hcfg, hrecord.trans⟩

theorem HostKept.trans {s t u : State} (h : HostKept s t) (h' : HostKept t u) : HostKept s u :=
  ⟨h'.pending.trans h.pending, h'.cfg.trans h.cfg, h'.recorded ∘ h.recorded⟩

theorem hostKept_setMem (s : State) (m : Memory) : HostKept s (s.setMem m) := hostKept_of_eq rfl rfl rfl

theorem hostKept_enterHalt (s : State) (c : Byte) : HostKept s (s.enterHalt c) := hostKept_of_eq rfl rfl rfl

theorem hostKept_storeBytes (s : State) (a : Nat) (bs : List Byte) : HostKept s (s.storeBytes a bs) := hostKept_of_eq rfl rfl rfl

theorem hostKept_setA (s : State) (r : AReg) (v : Word) : HostKept s (s.setA r v) :=
  hostKept_of_eq (setA_pending_eq s r v) (setA_cfg_eq s r v) (setA_unwrittenRegisterViolation_eq s r v)

theorem hostKept_setW (s : State) (r : WReg) (v : DWord) : HostKept s (s.setW r v) :=
  hostKept_of_eq (setW_pending_eq s r v) (setW_cfg_eq s r v) (setW_unwrittenRegisterViolation_eq s r v)

theorem hostKept_portRead (s : State) (r : PortReg) : HostKept s (s.portRead r) :=
  hostKept_of_eq (portRead_pending s r) (portRead_cfg s r) (portRead_unwrittenRegisterViolation s r)

/-- Issuing a command adds to the record and takes nothing from it. -/
theorem hostKept_recordOperands (s : State) (i : Instr) : HostKept s (s.recordOperands i) :=
  ⟨rfl, rfl, fun h => by rw [recordOperands_unwrittenRegisterViolation, h, Bool.true_or]⟩

/-- No command touches what is the host's. -/
theorem hostKept_exec {s t : State} {i : Instr} (h : exec i s = .next t) : HostKept s t := by
  obtain ⟨-, a, bs, -, rfl⟩ | ⟨-, v, rfl⟩ | ⟨rfl, -, hInit⟩ | ⟨rfl, hAlloc⟩ | ⟨rfl, hFree⟩ | ⟨rfl, hRealloc⟩ := exec_cases h
  · exact hostKept_storeBytes s a bs
  · exact hostKept_of_eq (setWide_pending s v) (setWide_cfg s v) (setWide_unwrittenRegisterViolation s v)
  · obtain ⟨-, -, rfl⟩ := execInit_next hInit
    exact hostKept_of_eq rfl rfl rfl
  · obtain ⟨cs, -, ⟨-, rfl⟩ | ⟨m, c, -, rfl⟩⟩ := execAlloc_next hAlloc
    · exact hostKept_enterHalt s _
    · exact (hostKept_setMem s m).trans (hostKept_setA _ _ _)
  · obtain ⟨cs, -, ⟨-, rfl⟩ | ⟨-, -, rfl⟩⟩ := execFree_next hFree
    · exact hostKept_of_eq rfl rfl rfl
    · exact hostKept_setMem s _
  · obtain ⟨cs, -, -, ⟨-, rfl⟩ | ⟨-, hcopy⟩⟩ := execRealloc_next hRealloc
    · exact hostKept_setMem s _
    · obtain ⟨-, rfl⟩ | ⟨m, d, -, -, rfl⟩ := reallocCopy_next hcopy
      · exact hostKept_enterHalt s _
      · exact (hostKept_setMem s _).trans (hostKept_setA _ _ _)

/-- No transaction touches what is the host's, one case a kind; reset, too, keeps the record (log entry 2). -/
theorem hostKept_serve {s t : State} {x : Transaction} (h : serve s x = .next t) : HostKept s t := by
  obtain ⟨r, v, rfl, rfl⟩ | ⟨r, v, rfl, rfl⟩ | ⟨v, rfl, rfl⟩ | ⟨w, i, rfl, -, hexec⟩ | ⟨r, rfl, rfl⟩ | ⟨a, bs, rfl, -, rfl⟩ |
    ⟨a, n, rfl, -, rfl⟩ | ⟨rfl, rfl⟩ := serve_cases h
  · exact hostKept_setA s r v
  · exact hostKept_setW s r v
  · exact hostKept_of_eq rfl rfl rfl
  · exact (hostKept_recordOperands s i).trans (hostKept_exec hexec)
  · exact hostKept_portRead s r
  · exact hostKept_storeBytes s a.toNat bs
  · exact hostKept_of_eq rfl rfl rfl
  · exact hostKept_of_eq rfl rfl rfl

/-- With nothing pending the block waits (70_reset_and_hazards.md R189). -/
theorem step_idle {s : State} (hp : s.pending = []) : step s = .next s := by
  rw [step, serveNext, hp]

/-- Settles O6: the transaction served is taken off the list first, and serving it keeps what is the host's. -/
theorem everyStepConsumesOneTransaction : Obligations.EveryStepConsumesOneTransaction := by
  refine ⟨fun s t h => ?_, fun s hp => step_idle hp⟩
  obtain ⟨hp, rfl⟩ | ⟨x, xs, hp, -, hserve⟩ := step_cases h
  · exact ⟨by rw [hp, List.tail_nil], rfl, id⟩
  · obtain ⟨hpending, hcfg, hrecorded⟩ := hostKept_serve hserve
    exact ⟨by rw [hpending, hp, List.tail_cons], hcfg, hrecorded⟩

/-! ## The host's own accesses to memory (20_memory.md R62) -/

section
variable {s : State} {a : Word} {n : Nat} {bs : List Byte} {ts : List Transaction}

theorem hostMayAccess_eq_false {cfg : Config} {addr : Nat} (hn : 1 ≤ n) (hb : backed cfg addr n = false) :
    hostMayAccess cfg addr n = false := by
  rw [← Bool.not_eq_true, hostMayAccess_iff, hb]
  rintro (h | h)
  · omega
  · cases h

/-- A write is served only by a block that has not halted. -/
theorem step_memWrite (hp : s.pending = .memWrite a bs :: ts) (hs : s.halted = false) :
    step s = hostWrite { s with pending := ts } a.toNat bs :=
  step_eq_serve hp fun hh => absurd (hs.symm.trans hh) (by simp)

/-- A read is served halted or not. -/
theorem step_memRead (hp : s.pending = .memRead a n :: ts) : step s = hostRead { s with pending := ts } a.toNat n :=
  step_eq_serve hp fun _ => rfl

theorem hostWrite_allowed {addr : Nat} (h : hostMayAccess s.cfg addr bs.length = true) :
    hostWrite s addr bs = .next (s.storeBytes addr bs) := if_pos h

theorem hostRead_allowed {addr : Nat} (h : hostMayAccess s.cfg addr n = true) :
    hostRead s addr n = .next (s.respond (.bytes (s.mem.readBytes addr n))) := if_pos h

theorem hostWrite_refused {addr : Nat} (h : hostMayAccess s.cfg addr bs.length = false) :
    hostWrite s addr bs = .fault .hostUnbackedAccess := if_neg (by simp [h])

theorem hostRead_refused {addr : Nat} (h : hostMayAccess s.cfg addr n = false) :
    hostRead s addr n = .fault .hostUnbackedAccess := if_neg (by simp [h])

theorem touchesLiveHeader_none (s : State) (addr : Nat) : s.touchesLiveHeader addr 0 = false := by
  rw [← Bool.not_eq_true, touchesLiveHeader_iff]
  rintro ⟨c, -, x, -, hlo, hhi⟩
  omega

/-- A store of no bytes stores nothing and hits no header. -/
theorem storeBytes_nil (s : State) (addr : Nat) : s.storeBytes addr [] = s := by
  rw [State.storeBytes, List.length_nil, touchesLiveHeader_none, Bool.or_false, Memory.writeBytes]

end

/-- Settles O14: a host write of backed bytes is `State.storeBytes`. -/
theorem hostWriteStoresItsBytes : Obligations.HostWriteStoresItsBytes := by
  intro s a bs ts hs hp hb
  refine ⟨_, (step_memWrite hp hs).trans (hostWrite_allowed ((hostMayAccess_iff _ _ _).2 (.inr hb))), fun k hk => ?_,
    storedAt_storeBytes _ _ _⟩
  exact read_writeBytes_inside s.mem a.toNat k bs hk

/-- Settles O15: the response is `Memory.readBytes`. -/
theorem hostReadReturnsTheBytes : Obligations.HostReadReturnsTheBytes := by
  intro s a n ts hp hb
  refine ⟨s.mem.readBytes a.toNat n, length_readBytes _ _ _, fun k hk => ?_,
    (step_memRead hp).trans (hostRead_allowed ((hostMayAccess_iff _ _ _).2 (.inr hb)))⟩
  rw [← Option.some.injEq, ← List.getElem?_eq_getElem hk]
  exact getElem?_readBytes _ _ _ _ (by rwa [length_readBytes] at hk)

/-- Settles O60: an access of no bytes is allowed anywhere, one of some bytes only where each is backed. -/
theorem hostAccessWithAnUnbackedByteStopsAndOfNoBytesCompletes :
    Obligations.HostAccessWithAnUnbackedByteStopsAndOfNoBytesCompletes := by
  intro s a ts
  refine ⟨fun n hp hn hb => ?_, fun bs hp hs hn hb => ?_, fun hp => ?_, fun hp hs => ?_⟩
  · exact (step_memRead hp).trans (hostRead_refused (hostMayAccess_eq_false hn hb))
  · exact (step_memWrite hp hs).trans (hostWrite_refused (hostMayAccess_eq_false hn hb))
  · exact (step_memRead hp).trans (hostRead_allowed ((hostMayAccess_iff _ _ _).2 (.inl rfl)))
  · rw [step_memWrite hp hs, hostWrite_allowed ((hostMayAccess_iff _ _ _).2 (.inl rfl)), storeBytes_nil]

/-! ## A live header overwritten (20_memory.md R62 duty 1) -/

/-- Every heap command tests the common conditions of 40_heap.md R100 before its own rule. -/
theorem heapCommand_eq_withHeap {i : Instr} (hi : i ∈ heapCommands) (s : State) : ∃ body, exec i s = s.withHeap body := by
  simp only [heapCommands, List.mem_cons, List.not_mem_nil, or_false] at hi
  obtain rfl | rfl | rfl := hi <;> exact ⟨_, rfl⟩

theorem withHeap_corrupt {s : State} (hinit : s.initialised = true) (hbad : s.headerOverwritten = true ∨ s.heapWF = false)
    (body : List Nat → Result) : s.withHeap body = .fault .corruptHeap := by
  cases hnote : s.headerOverwritten with
  | true => simp [State.withHeap, hinit, hnote]
  | false =>
    have hwf : s.heapWF = false := hbad.resolve_left (by simp [hnote])
    have hnone : s.heapChunks = none := by simpa [State.heapWF] using hwf
    simp [State.withHeap, hinit, hnote, hnone]

/-- Settles O44: the test for a corrupt heap comes before any operand is read. -/
theorem corruptHeapIsAViolation : Obligations.CorruptHeapIsAViolation := by
  intro s i hi hinit hbad
  obtain ⟨body, hbody⟩ := heapCommand_eq_withHeap hi s
  rw [hbody, withHeap_corrupt hinit hbad]

/-- The arena exists and one of its live headers has been overwritten. -/
def Overwritten (s : State) : Prop := s.initialised = true ∧ s.headerOverwritten = true

theorem overwritten_congr {s t : State} (e : SameHeapState s t) (h : Overwritten s) : Overwritten t :=
  ⟨(congrArg statusInit e.status).trans h.1, e.headerOverwritten.trans h.2⟩

theorem overwritten_storeBytes {s : State} (h : Overwritten s) (a : Nat) (bs : List Byte) : Overwritten (s.storeBytes a bs) :=
  ⟨h.1, by rw [storeBytes_headerOverwritten, h.2, Bool.true_or]⟩

/-- INIT and the heap commands do not complete on such a state, and no other command forgives it. -/
theorem overwritten_exec {s t : State} {i : Instr} (h : Overwritten s) (hexec : exec i s = .next t) : Overwritten t := by
  obtain ⟨hinit, hnote⟩ := h
  have hheap : i ∉ heapCommands := fun hi => by
    rw [corruptHeapIsAViolation s i hi hinit (.inl hnote)] at hexec
    cases hexec
  obtain ⟨-, a, bs, -, rfl⟩ | ⟨-, v, rfl⟩ | ⟨-, hnew, -⟩ | ⟨rfl, -⟩ | ⟨rfl, -⟩ | ⟨rfl, -⟩ := exec_cases hexec
  · exact overwritten_storeBytes ⟨hinit, hnote⟩ a bs
  · exact overwritten_congr (sameHeapState_setWide s v) ⟨hinit, hnote⟩
  · exact absurd (hinit.symm.trans hnew) (by simp)
  all_goals exact absurd (by decide) hheap

/-- Reset is the only transaction that forgives an overwritten header. -/
theorem overwritten_serve {s t : State} {x : Transaction} (h : Overwritten s) (hserve : serve s x = .next t) (hx : x ≠ .reset) :
    Overwritten t := by
  obtain ⟨r, v, rfl, rfl⟩ | ⟨r, v, rfl, rfl⟩ | ⟨v, rfl, rfl⟩ | ⟨w, i, rfl, -, hexec⟩ | ⟨r, rfl, rfl⟩ | ⟨a, bs, rfl, -, rfl⟩ |
    ⟨a, n, rfl, -, rfl⟩ | ⟨rfl, -⟩ := serve_cases hserve
  · exact overwritten_congr (sameHeapState_setA s r v) h
  · exact overwritten_congr (sameHeapState_setW s r v) h
  · exact h
  · exact overwritten_exec (overwritten_congr (sameHeapState_recordOperands s i) h) hexec
  · exact overwritten_congr (sameHeapState_portRead s r) h
  · exact overwritten_storeBytes h a.toNat bs
  · exact overwritten_congr (sameHeapState_respond s _) h
  · exact absurd rfl hx

/-- Settles O45: the step waits, or serves a transaction other than reset. -/
theorem overwrittenHeaderIsNeverForgiven : Obligations.OverwrittenHeaderIsNeverForgiven := by
  intro s t hstep hinit hnote hreset
  have h : Overwritten s := ⟨hinit, hnote⟩
  obtain ⟨-, rfl⟩ | ⟨x, xs, hp, -, hserve⟩ := step_cases hstep
  · exact h
  · refine overwritten_serve (overwritten_congr (sameHeapState_pending s xs) h) hserve fun hx => hreset ?_
    rw [hp, hx, List.head?_cons]

end Sys2Proof.Proofs
end

section
/-! PROOFS. ALLOC reads and writes headers of the chunk list only (20_memory.md R62, 40_heap.md R105). -/

namespace Sys2Proof.Proofs

open Sys2Proof Sys2Proof.Machine Sys2Proof.Laws

/-! ## Granting, on two memories that hold the same chunks -/

/-- Granting a chunk writes only into headers of the list it leaves. -/
theorem read_grant_outside {cfg : Config} {m : Memory} {size rs x : Nat} {pre post : List Chunk} {k : Chunk} (hhdr : 16 ≤ cfg.hdr)
    (h : Holds cfg m size (pre ++ k :: post))
    (hx : ∀ c ∈ pre ++ grantChunk cfg.hdr rs k ++ post, ¬inRange c.addr cfg.hdr x) :
    (setAllocated (split cfg m k.addr rs) k.addr 1).read x = m.read x := by
  have hxk : ¬inRange k.addr cfg.hdr x := by
    obtain ⟨len, tail, -, hgrant, -⟩ := splitChunk_grantChunk cfg.hdr rs k
    exact hx ⟨k.addr, len, true⟩ (by simp [hgrant])
  simp only [inRange] at hx hxk
  rw [read_setAllocated _ _ _ _ (by omega)]
  by_cases hcut : 8 + cfg.hdr ≤ k.len - rs
  case pos =>
    have hxt := hx ⟨k.addr + cfg.hdr + rs, k.len - rs - cfg.hdr, false⟩ (by simp [grantChunk, hcut])
    simp only at hxt
    refine read_split cfg m k.addr rs x (by omega) (by omega) fun hnext => ?_
    rw [h.header.next] at hnext ⊢
    cases post with
    | nil => exact absurd rfl hnext
    | cons n post =>
      have hxn := hx n (by simp)
      simp only [headAddr]
      omega
  case neg => rw [split_whole (by rwa [h.header.length])]

/-- Two memories that hold the same chunks have the same first fit. -/
theorem firstFit_eq_of_layout {m m' : Memory} {pv nx : Nat} {ks : List Chunk} (h : Layout m pv ks nx) (h' : Layout m' pv ks nx)
    (rs : Nat) : firstFit m' (ks.map Chunk.addr) rs = firstFit m (ks.map Chunk.addr) rs := by
  induction ks generalizing pv with
  | nil => rfl
  | cons k ks ih =>
    obtain ⟨hk, hks⟩ := h
    obtain ⟨hk', hks'⟩ := h'
    have ih := ih hks hks'
    unfold firstFit at ih ⊢
    rw [List.map_cons, List.find?_cons, List.find?_cons, ih, hk.allocated, hk.length, hk'.allocated, hk'.length]

/-- A memory that agrees on every header of a well-formed heap holds the same heap. -/
theorem heapIs_congr {cfg : Config} {m m' : Memory} {size : Nat} {ks : List Chunk} (hhdr : 16 ≤ cfg.hdr) (h : HeapIs cfg m size ks)
    (hm : ∀ x, inHeader cfg (ks.map Chunk.addr) x → m'.read x = m.read x) : HeapIs cfg m' size ks :=
  { h with layout := h.layout.congr fun k hk x hlo hhi => hm x ⟨k.addr, List.mem_map_of_mem hk, hlo, by omega⟩ }

/-! ## ALLOC on the state -/

/-- The headers of a well-formed heap are the addresses of its chunks. -/
theorem heapChunks_of_heapView {s : State} {ks : List Chunk} (h : s.heapView = some ks) :
    s.heapChunks = some (ks.map Chunk.addr) := by
  obtain ⟨cs, hcs, rfl⟩ := Option.map_eq_some_iff.1 h
  rw [hcs, List.map_map]
  exact congrArg some (List.map_id cs).symm

/-- The chunks a heap command's writes have laid out are the heap of the state it leaves. -/
theorem heapView_of_sameHeapState {s t : State} {m : Memory} {size : Nat} {ks : List Chunk} (ht : SameHeapState (s.setMem m) t)
    (ha : s.arenaSize = some size) (hw : s.cfg.wellFormed = true) (h : HeapIs s.cfg m size ks) : t.heapView = some ks := by
  have hcfg : t.cfg = s.cfg := ht.cfg
  refine (heapView_eq_some_iff (ht.arenaSize.trans ha) (hcfg ▸ hw) ks).2 ?_
  rwa [hcfg, ht.mem]

/-- A heap command may run on `s`, whose arena of `size` bytes holds the chunks `ks`. -/
structure ReadyHeap (s : State) (size : Nat) (ks : List Chunk) : Prop where
  ready : s.HeapReady (ks.map Chunk.addr)
  arena : s.arenaSize = some size
  heap : HeapIs s.cfg s.mem size ks
  ok : ArenaOk s.cfg size

theorem readyHeap_of_heapReady {s : State} {cs : List Nat} (h : s.HeapReady cs) :
    ∃ size ks, cs = ks.map Chunk.addr ∧ ReadyHeap s size ks := by
  obtain ⟨hw, hopen⟩ := (heapReady_iff_heapOpen s cs).1 h
  obtain ⟨size, ks, ha, rfl, hheap, ok⟩ := heapOpen_arena hw hopen
  exact ⟨size, ks, rfl, h, ha, hheap, ok⟩

/-- What ALLOC leaves of `s` when it grants the chunk at `d`, the heap becoming `ks` (40_heap.md R105). -/
structure GrantedFrom (s : State) (d : Nat) (ks : List Chunk) (t : State) : Prop where
  a0 : t.a0 = ⟨BitVec.ofNat 32 (d + s.cfg.hdr), true⟩
  status : t.status = s.status
  view : t.heapView = some ks
  frame : ∀ x, ¬inHeader s.cfg (ks.map Chunk.addr) x → t.mem.read x = s.mem.read x

namespace ReadyHeap

variable {s : State} {size : Nat} {ks pre post : List Chunk} {k : Chunk}

theorem wellFormed (h : ReadyHeap s size ks) : s.cfg.wellFormed = true := h.ready.1

theorem heapView (h : ReadyHeap s size ks) : s.heapView = some ks :=
  (heapView_eq_some_iff h.arena h.wellFormed ks).2 h.heap

/-- Memory outside the live headers may be changed at will. -/
theorem replaceMem (h : ReadyHeap s size ks) {m : Memory} (hm : ∀ x, inHeader s.cfg (ks.map Chunk.addr) x → m.read x = s.mem.read x) :
    ReadyHeap { s with mem := m } size ks := by
  obtain ⟨⟨hw, hinit, hnote, -, hbacked⟩, ha, hheap, ok⟩ := h
  have hheap' := heapIs_congr ok.hdr hheap hm
  have hview := (heapView_eq_some_iff (s := { s with mem := m }) ha hw ks).2 hheap'
  exact ⟨⟨hw, hinit, hnote, heapChunks_of_heapView hview, hbacked⟩, ha, hheap', ok⟩

theorem firstFit_replaceMem (h : ReadyHeap s size ks) {m : Memory} (h' : ReadyHeap { s with mem := m } size ks) (rs : Nat) :
    firstFit m (ks.map Chunk.addr) rs = firstFit s.mem (ks.map Chunk.addr) rs :=
  firstFit_eq_of_layout h.heap.layout h'.heap.layout rs

theorem execAlloc_halts (h : ReadyHeap s size ks) (hfit : firstFit s.mem (ks.map Chunk.addr) (round8 (s.opA .a0)) = none) :
    execAlloc s = .next (s.enterHalt causeOOM) := by
  rw [execAlloc_ready h.ready, allocChunk, hfit]

theorem execAlloc_grants (h : ReadyHeap s size (pre ++ k :: post)) (hfree : k.allocated = false)
    (hfit : firstFit s.mem ((pre ++ k :: post).map Chunk.addr) (round8 (s.opA .a0)) = some k.addr) :
    ∃ t, execAlloc s = .next t ∧ GrantedFrom s k.addr (pre ++ grantChunk s.cfg.hdr (round8 (s.opA .a0)) k ++ post) t := by
  obtain ⟨hhdr8, -⟩ := (wellFormed_iff s.cfg).1 h.wellFormed
  have hfrom := heapFrom_refl h.heap
  have hlen : round8 (s.opA .a0) ≤ k.len := hfrom.held.holds.header.length ▸ (firstFit_some hfit).2.2
  have hgranted := hfrom.grant h.ok hhdr8 hfree hlen (round8_mod _)
  refine ⟨(s.setMem (setAllocated (split s.cfg s.mem k.addr (round8 (s.opA .a0))) k.addr 1)).setA .a0
    (BitVec.ofNat 32 (k.addr + s.cfg.hdr)), ?_, rfl, rfl, ?_, fun x hx => ?_⟩
  · rw [execAlloc_ready h.ready, allocChunk, hfit]
  · exact heapView_of_sameHeapState (sameHeapState_setA _ .a0 _) h.arena h.wellFormed hgranted.heap
  · exact read_grant_outside h.ok.hdr hfrom.held.holds fun c hc hin => hx ⟨c.addr, List.mem_map_of_mem hc, hin⟩

/-- No chunk fits, or the first fit is a free chunk of the list (40_heap.md R102). -/
theorem firstFit_cases (h : ReadyHeap s size ks) (rs : Nat) :
    firstFit s.mem (ks.map Chunk.addr) rs = none ∨ ∃ pre k post, ks = pre ++ k :: post ∧ k.allocated = false ∧
      firstFit s.mem (ks.map Chunk.addr) rs = some k.addr := by
  cases hfit : firstFit s.mem (ks.map Chunk.addr) rs with
  | none => exact .inl rfl
  | some c =>
    obtain ⟨hmem, hflag, -⟩ := firstFit_some hfit
    obtain ⟨pre, k, post, rfl, rfl, -, hkflag⟩ := chunk_of_addr (heapFrom_refl h.heap).held.holds hmem
    exact .inr ⟨pre, k, post, rfl, flagWord_eq_zero.1 (hkflag ▸ hflag), rfl⟩

end ReadyHeap

/-- Settles O55: both memories hold the same chunks, so the first fit is the same, and what ALLOC answers is a function of it. -/
theorem allocDependsOnlyOnLiveHeaders : Obligations.AllocDependsOnlyOnLiveHeaders := by
  intro s t m cs hready hm hexec
  replace hexec : execAlloc s = .next t := hexec
  obtain ⟨size, ks, rfl, h⟩ := readyHeap_of_heapReady hready
  have h' := h.replaceMem hm
  have hfit' := h.firstFit_replaceMem h' (round8 (s.opA .a0))
  obtain hnone | ⟨pre, k, post, rfl, hfree, hsome⟩ := h.firstFit_cases (round8 (s.opA .a0))
  · obtain rfl : _ = t := Host.Outcome.next.inj ((h.execAlloc_halts hnone).symm.trans hexec)
    refine ⟨_, h'.execAlloc_halts (hfit'.trans hnone), rfl, rfl, ?_, fun _ _ => rfl⟩
    exact h'.heapView.trans h.heapView.symm
  · obtain ⟨t', ht', hgrant⟩ := h.execAlloc_grants hfree hsome
    obtain rfl : t' = t := Host.Outcome.next.inj (ht'.symm.trans hexec)
    obtain ⟨u, hu, hgrant'⟩ := h'.execAlloc_grants hfree (hfit'.trans hsome)
    refine ⟨u, hu, hgrant'.a0.trans hgrant.a0.symm, hgrant'.status.trans hgrant.status.symm,
      hgrant'.view.trans hgrant.view.symm, fun x hx => hgrant'.frame x ?_⟩
    rwa [heapChunks_of_heapView hgrant.view, Option.getD_some] at hx

end Sys2Proof.Proofs
end

section
/-! PROOFS. The command word and the port's transactions: what decodes, what is refused, what an issue runs and what RD answers
(30_encoding.md R80 to R87, R90). -/

namespace Sys2Proof.Proofs

open Sys2Proof Sys2Proof.Machine Sys2Proof.Laws

/-! ## The decoder, by the `zero` field (30_encoding.md R82, R84, R86, R87) -/

section
variable {w : Word} {i : Instr}

theorem decode_of_toNat_lt (h : w.toNat < 256) : decode w = decodeOpcode (opcodeField w) :=
  if_pos ((zeroField_eq_zero_iff w).2 h)

theorem decode_of_le_toNat (h : 256 ≤ w.toNat) : decode w = .error (.zeroFieldNotZero w) :=
  if_neg fun hz => Nat.not_lt.2 h ((zeroField_eq_zero_iff w).1 hz)

theorem opcodeField_eq_setWidth (w : Word) : opcodeField w = w.setWidth 8 :=
  BitVec.eq_of_toNat_eq ((opcodeField_toNat w).trans (BitVec.toNat_setWidth 8 w).symm)

/-- With a zero `zero` field the word is its opcode, and an opcode that decodes is that of the encoding. -/
theorem eq_encode_of_decode_ok (h : decode w = .ok i) : w = encode i := by
  apply BitVec.eq_of_toNat_eq
  obtain hlt | hle := Nat.lt_or_ge w.toNat 256
  · rw [decode_of_toNat_lt hlt] at h
    rw [← decodeOpcode_ok h, opcodeField_toNat, Nat.mod_eq_of_lt hlt]
  · rw [decode_of_le_toNat hle] at h
    cases h

theorem decode_ok_iff (w : Word) (i : Instr) : decode w = .ok i ↔ w = encode i :=
  ⟨eq_encode_of_decode_ok, fun h => h ▸ decode_encode i⟩

/-- A word with a zero `zero` field that is no encoding is reserved by its opcode. -/
theorem decode_reservedOpcode (hlt : w.toNat < 256) (hw : ∀ i, w ≠ encode i) :
    decode w = .error (.reservedOpcode (w.setWidth 8)) := by
  cases hd : decode w with
  | ok i => exact absurd (eq_encode_of_decode_ok hd) (hw i)
  | error e => rw [decodeOpcode_error ((decode_of_toNat_lt hlt).symm.trans hd), opcodeField_eq_setWidth]

end

/-- Settles O2: an encoding decodes to its command, and nothing else does. -/
theorem decodeAcceptsExactlyTheEncodings : Obligations.DecodeAcceptsExactlyTheEncodings := decode_ok_iff

/-- Settles O1: the eleven words are the encodings, in the order of the opcode map. -/
theorem decodesTheElevenCommandWords : Obligations.DecodesTheElevenCommandWords :=
  ⟨decode_encode .init, decode_encode .alloc, decode_encode .free, decode_encode .realloc, decode_encode .mul, decode_encode .shl,
    decode_encode .shr, decode_encode .be32tolen, decode_encode .bentolen, decode_encode .lentobe32, decode_encode .lentoben⟩

/-! ## Issuing a command word (30_encoding.md R80, R85, R87) -/

section
variable {s : State} {w : Word} {ts : List Transaction}

/-- A command word is issued only to a block that has not halted. -/
theorem step_wrCmd (hp : s.pending = .wrCmd w :: ts) (hs : s.halted = false) : step s = issueWord { s with pending := ts } w :=
  step_eq_serve hp fun hh => absurd (hs.symm.trans hh) (by simp)

theorem issueWord_ok {i : Instr} (h : decode w = .ok i) : issueWord s w = exec i (s.recordOperands i) := by
  simp only [issueWord, h]

theorem issueWord_zeroFieldNotZero {v : Word} (h : decode w = .error (.zeroFieldNotZero v)) :
    issueWord s w = .refused (.reservedWord v) := by
  simp only [issueWord, h]

theorem issueWord_reservedOpcode {op : Byte} (h : decode w = .error (.reservedOpcode op)) :
    issueWord s w = .refused (.reservedOpcode op) := by
  simp only [issueWord, h]

/-- The host's list is no register. -/
theorem written_pending (s : State) (ts : List Transaction) : ({ s with pending := ts } : State).written = s.written := by
  funext r
  cases r <;> rfl

theorem portValue_pending (s : State) (ts : List Transaction) : ({ s with pending := ts } : State).portValue = s.portValue := by
  funext r
  cases r <;> rfl

/-- The host breaks 10_state.md R23 when some operand register is unwritten. -/
theorem not_operandsWritten (s : State) (i : Instr) : (!s.operandsWritten i) = (operandRegs i).any fun r => !s.written r :=
  List.not_all_eq_any_not

/-- RD of a register that has been written since reset responds with what it holds (30_encoding.md R81). -/
theorem step_rd_written {r : PortReg} (hp : s.pending = .rd r :: ts) (hr : s.written r = true) :
    step s = .next (({ s with pending := ts } : State).respond (s.portValue r)) := by
  rw [step_eq_serve hp fun _ => rfl, serve, State.portRead, written_pending, portValue_pending, if_pos hr]

end

/-- Settles O3: the `zero` field decides by which name the word is refused. -/
theorem reservedWordsAreRefused : Obligations.ReservedWordsAreRefused := by
  intro s w ts hp hs hw
  rw [step_wrCmd hp hs]
  split
  next hlt => exact issueWord_reservedOpcode (decode_reservedOpcode hlt hw)
  next hge => exact issueWord_zeroFieldNotZero (decode_of_le_toNat (Nat.not_lt.1 hge))

/-- Settles O5: the issue is exec on the state with the record, which is that of an unwritten operand register. -/
theorem stepRunsTheIssuedCommand : Obligations.StepRunsTheIssuedCommand := by
  intro s w i ts hp hs hd
  rw [step_wrCmd hp hs, issueWord_ok hd, State.recordOperands, not_operandsWritten, written_pending]

/-- Settles O8: the response is `State.portValue`, one case a kind of register. -/
theorem portReadsReturnTheRegister : Obligations.PortReadsReturnTheRegister := by
  intro s r ts hp hr
  rw [step_rd_written hp hr]
  cases r <;> rfl

/-! ## A WR as its pair (30_encoding.md R81, R90) -/

theorem portNumber_portRegister (n : BitVec 3) : portNumber (portRegister n) = n := by
  revert n
  decide

theorem portRegister_portNumber (r : PortReg) : portRegister (portNumber r) = r := by
  cases r with
  | a r => cases r <;> rfl
  | w r => cases r <;> rfl
  | status => rfl
  | cmd => rfl

/-- The value of a 32-bit register comes back from the 64 bits of the pair (log entry 16). -/
theorem setWidth_setWidth_word (v : Word) : (v.setWidth 64).setWidth 32 = v := by
  rw [BitVec.setWidth_setWidth_of_le v (by decide), BitVec.setWidth_eq]

/-- A pair decodes by the register its number names, so a WR comes back from its own. -/
theorem decodeWrite_of_encodeWrite {t : Transaction} {n : BitVec 3} {v : DWord} (h : encodeWrite t = some (n, v)) :
    decodeWrite n v = t := by
  cases t with
  | wrA r v => cases h; simp only [decodeWrite, portRegister_portNumber, setWidth_setWidth_word]
  | wrW r v => cases h; simp only [decodeWrite, portRegister_portNumber]
  | wrStatus v => cases h; simp only [decodeWrite, portRegister_portNumber, setWidth_setWidth_word]
  | wrCmd v => cases h; simp only [decodeWrite, portRegister_portNumber, setWidth_setWidth_word]
  | rd r => cases h
  | memWrite a bs => cases h
  | memRead a n => cases h
  | reset => cases h

/-- Settles O4: the pair names the register and carries the value. -/
theorem portWritesRoundTripThroughTheirPair : Obligations.PortWritesRoundTripThroughTheirPair :=
  ⟨fun _ _ _ => decodeWrite_of_encodeWrite, portNumber_portRegister, portRegister_portNumber⟩

end Sys2Proof.Proofs
end

section
/-! PROOFS. What the heap commands' rules need: first-fit allocation on the list of chunks is what FirstFit finds in memory, the
headers a chunk operation writes are headers of the list, and a heap command that has laid out a heap leaves a state that is ready
for the next. -/

namespace Sys2Proof.Proofs

open Sys2Proof Sys2Proof.Machine Sys2Proof.Laws

/-! ## First-fit allocation on a list of chunks (40_heap.md R102, R105) -/

section
variable {hdr rs d : Nat} {ks ks' : List Chunk}

/-- Allocation grants the first chunk of the list that is free and long enough. -/
theorem allocList_eq_some_iff : allocList hdr rs ks = some (ks', d) ↔
    ∃ pre k post, ks = pre ++ k :: post ∧ (∀ c ∈ pre, ¬(c.allocated = false ∧ rs ≤ c.len)) ∧ k.allocated = false ∧ rs ≤ k.len ∧
      ks' = pre ++ grantChunk hdr rs k ++ post ∧ d = k.addr := by
  constructor
  · intro h
    induction ks generalizing ks' with
    | nil => cases h
    | cons c cs ih =>
      unfold allocList at h
      split at h
      next hfits =>
        cases h
        exact ⟨[], c, cs, rfl, by simp, hfits.1, hfits.2, rfl, rfl⟩
      next hnot =>
        split at h
        next => cases h
        next cs' d' hrest =>
          cases h
          obtain ⟨pre, k, post, rfl, hpre, hfree, hlen, rfl, rfl⟩ := ih hrest
          exact ⟨c :: pre, k, post, rfl, List.forall_mem_cons.2 ⟨hnot, hpre⟩, hfree, hlen, rfl, rfl⟩
  · rintro ⟨pre, k, post, rfl, hpre, hfree, hlen, rfl, rfl⟩
    induction pre with
    | nil => exact if_pos ⟨hfree, hlen⟩
    | cons c pre ih =>
      obtain ⟨hc, hpre⟩ := List.forall_mem_cons.1 hpre
      rw [List.cons_append, allocList, if_neg hc, ih hpre]
      rfl

theorem allocList_eq_none (h : ∀ k ∈ ks, k.len < rs) : allocList hdr rs ks = none := by
  by_contra hne
  obtain ⟨⟨ks', d⟩, hsome⟩ := Option.ne_none_iff_exists'.1 hne
  obtain ⟨pre, k, post, rfl, -, -, hlen, -⟩ := allocList_eq_some_iff.1 hsome
  have := h k (by simp)
  omega

/-- The granted chunk is in the new list, allocated and long enough. -/
theorem granted_mem_of_allocList (h : allocList hdr rs ks = some (ks', d)) : ∃ len, ⟨d, len, true⟩ ∈ ks' ∧ rs ≤ len := by
  obtain ⟨pre, k, post, rfl, -, -, hlen, rfl, rfl⟩ := allocList_eq_some_iff.1 h
  obtain ⟨len, tail, -, hgrant, hle⟩ := splitChunk_grantChunk hdr rs k
  exact ⟨len, by simp [hgrant], hle hlen⟩

/-- The chunks that were allocated are in the new list. -/
theorem allocated_mem_of_allocList {k : Chunk} (h : allocList hdr rs ks = some (ks', d)) (hk : k ∈ ks) (hka : k.allocated = true) :
    k ∈ ks' := by
  obtain ⟨pre, f, post, rfl, -, hfree, -, rfl, -⟩ := allocList_eq_some_iff.1 h
  have hkf : k ≠ f := by rintro rfl; simp [hfree] at hka
  have : k ∈ pre ∨ k ∈ post := by simpa [hkf] using hk
  simp only [List.mem_append]
  tauto

/-- FirstFit on memory finds what first-fit allocation grants on the list of chunks. -/
theorem firstFit_of_layout {m : Memory} {pv nx : Nat} (h : Layout m pv ks nx) :
    firstFit m (ks.map Chunk.addr) rs = (allocList hdr rs ks).map Prod.snd := by
  induction ks generalizing pv with
  | nil => rfl
  | cons k ks ih =>
    obtain ⟨hk, hks⟩ := h
    have ih := ih hks
    unfold firstFit at ih ⊢
    rw [List.map_cons, List.find?_cons, ih, hk.allocated, hk.length, allocList]
    by_cases hfits : k.allocated = false ∧ rs ≤ k.len
    · simp [hfits, flagWord]
    · have hbool : (flagWord k.allocated == 0 && decide (rs ≤ k.len)) = false := by
        simpa [flagWord_eq_zero] using hfits
      rw [hbool, if_neg hfits]
      cases allocList hdr rs ks <;> rfl

end

/-! ## Freeing on a list of chunks (40_heap.md R107, R109) -/

/-- Coalescing makes no allocated chunk: those it leaves were there. -/
theorem allocated_mem_of_coalesce {hdr : Nat} {ks : List Chunk} {k : Chunk} (hk : k ∈ coalesce hdr ks) (hka : k.allocated = true) :
    k ∈ ks := by
  induction ks with
  | nil => exact hk
  | cons c ks ih =>
    unfold coalesce at hk
    split at hk
    next => exact List.mem_cons.2 (.inl (List.mem_singleton.1 hk))
    next n rest hrest =>
      rw [hrest] at ih
      split at hk
      · rcases List.mem_cons.1 hk with rfl | hk
        · cases hka
        · exact List.mem_cons_of_mem _ (ih (List.mem_cons_of_mem _ hk))
      · rcases List.mem_cons.1 hk with rfl | hk
        · exact List.mem_cons_self
        · exact List.mem_cons_of_mem _ (ih hk)

/-- After freeing no chunk at the freed address is allocated. -/
theorem addr_ne_of_freeList {hdr c : Nat} {ks : List Chunk} {k : Chunk} (hk : k ∈ freeList hdr c ks) (hka : k.allocated = true) :
    k.addr ≠ c := by
  obtain ⟨k₀, -, rfl⟩ := List.mem_map.1 (allocated_mem_of_coalesce hk hka)
  intro hc
  by_cases h₀ : k₀.addr = c
  · simp [h₀] at hka
  · rw [if_neg h₀] at hc
    exact h₀ hc

/-- Freeing a granted chunk gives the list back: it absorbs the tail that the grant cut off, and finds no other free neighbour
(40_heap.md R114). -/
theorem freeList_allocList {hdr rs a b d : Nat} {ks ks' : List Chunk} (hhdr : 0 < hdr) (hnf : NoTwoFree ks)
    (ht' : Tiles hdr a ks' b) (h : allocList hdr rs ks = some (ks', d)) : freeList hdr d ks' = ks := by
  obtain ⟨pre, k, post, rfl, -, hfree, -, rfl, rfl⟩ := allocList_eq_some_iff.1 h
  have hkpost : NoTwoFree (k :: post) := (noTwoFree_append.1 hnf).2.1
  obtain ⟨kaddr, klen, kalloc⟩ := k
  obtain rfl : kalloc = false := hfree
  have hmerge : ∀ len tail, grantChunk hdr rs ⟨kaddr, klen, false⟩ = ⟨kaddr, len, true⟩ :: tail →
      coalesce hdr (⟨kaddr, len, false⟩ :: (tail ++ post)) = ⟨kaddr, klen, false⟩ :: post := by
    intro len tail hgrant
    by_cases hcut : 8 + hdr ≤ klen - rs
    · rw [grantChunk, if_pos hcut] at hgrant
      cases hgrant
      have htail : NoTwoFree (⟨kaddr + hdr + rs, klen - rs - hdr, false⟩ :: post) :=
        noTwoFree_head_congr (k := ⟨kaddr, klen, false⟩) rfl hkpost
      rw [List.singleton_append, coalesce_cons_free (k := ⟨kaddr, rs, false⟩) rfl htail, mergeForward, if_pos rfl]
      simp only [List.cons.injEq, Chunk.mk.injEq, and_true, true_and]
      omega
    · rw [grantChunk, if_neg hcut] at hgrant
      cases hgrant
      exact coalesce_of_noTwoFree hkpost
  obtain ⟨len, tail, -, hgrant, -⟩ := splitChunk_grantChunk hdr rs ⟨kaddr, klen, false⟩
  have hmerge := hmerge len tail hgrant
  rw [hgrant, List.append_assoc, List.cons_append] at ht' ⊢
  rw [freeList, markFree_around ht' hhdr, coalesce_append (by rwa [hmerge]), hmerge]

/-! ## The headers of a laid-out list, and what writes only them -/

section
variable {cfg : Config} {m m' m'' : Memory} {size c n : Nat} {cs ds : List Nat} {ks : List Chunk} {k : Chunk}

/-- Length and allocated word in memory of a chunk of a well-formed heap. -/
theorem header_of_heapIs (h : HeapIs cfg m size ks) (hk : k ∈ ks) :
    hdrLength m k.addr = k.len ∧ hdrAllocated m k.addr = flagWord k.allocated := by
  obtain ⟨_, _, hh⟩ := layout_header h.layout hk
  exact ⟨hh.length, hh.allocated⟩

/-- Allocation does not grant a chunk that is allocated. -/
theorem addr_ne_of_allocList {hdr rs d : Nat} {ks' : List Chunk} (h : HeapIs cfg m size ks)
    (hlist : allocList hdr rs ks = some (ks', d)) (hk : k ∈ ks) (hka : k.allocated = true) : d ≠ k.addr := by
  obtain ⟨pre, f, post, rfl, -, hfree, -, -, rfl⟩ := allocList_eq_some_iff.1 hlist
  intro hfk
  have hflag := (header_of_heapIs h (k := f) (by simp)).2
  rw [hfk, (header_of_heapIs h hk).2, hka, hfree] at hflag
  cases hflag

/-- A byte of a chunk's payload is no byte of a header. -/
theorem payload_not_inHeader {a b j : Nat} (h : Tiles cfg.hdr a ks b) (hk : k ∈ ks) (hj : j < k.len) :
    ¬inHeader cfg (ks.map Chunk.addr) (k.addr + cfg.hdr + j) := by
  rintro ⟨_, hc, hlo, hhi⟩
  obtain ⟨c, hmem, rfl⟩ := List.mem_map.1 hc
  have := header_payload_apart h hk hmem
  omega

/-- The next chunk of a chunk of the list is null or a chunk of the list. -/
theorem hdrNext_mem (h : Holds cfg m size ks) (hc : c ∈ ks.map Chunk.addr) (hne : hdrNext m c ≠ 0) :
    hdrNext m c ∈ ks.map Chunk.addr := by
  obtain ⟨k, hk, rfl⟩ := List.mem_map.1 hc
  obtain ⟨pre, post, rfl⟩ := List.append_of_mem hk
  rw [h.header.next] at hne ⊢
  cases post with
  | nil => exact absurd rfl hne
  | cons n post => simp [headAddr]

/-- The previous chunk of a chunk of the list is null or a chunk of the list. -/
theorem hdrPrev_mem (h : Holds cfg m size ks) (hc : c ∈ ks.map Chunk.addr) (hne : hdrPrev m c ≠ 0) :
    hdrPrev m c ∈ ks.map Chunk.addr := by
  obtain ⟨k, hk, rfl⟩ := List.mem_map.1 hc
  obtain ⟨pre, post, rfl⟩ := List.append_of_mem hk
  rw [h.header.prev] at hne ⊢
  rcases List.eq_nil_or_concat pre with rfl | ⟨pre, q, rfl⟩
  · exact absurd rfl hne
  · simp [lastAddr_concat]

/-- From `m` to `m'` only bytes of headers of the list `cs` have been written. -/
def HeadersOnly (cfg : Config) (cs : List Nat) (m m' : Memory) : Prop := ∀ x, ¬inHeader cfg cs x → m'.read x = m.read x

theorem HeadersOnly.trans (h : HeadersOnly cfg cs m m') (h' : HeadersOnly cfg cs m' m'') : HeadersOnly cfg cs m m'' :=
  fun x hx => (h' x hx).trans (h x hx)

theorem HeadersOnly.mono (h : HeadersOnly cfg cs m m') (hsub : cs ⊆ ds) : HeadersOnly cfg ds m m' :=
  fun x hx => h x fun ⟨c, hc, hin⟩ => hx ⟨c, hsub hc, hin⟩

theorem headersOnly_setAllocated (hhdr : 16 ≤ cfg.hdr) (hc : c ∈ cs) (v : Nat) : HeadersOnly cfg cs m (setAllocated m c v) := by
  intro x hx
  have hxc : ¬(c ≤ x ∧ x < c + cfg.hdr) := fun hin => hx ⟨c, hc, hin⟩
  exact read_setAllocated _ _ _ _ (by omega)

/-- Absorb writes the header of the chunk that grows, and the one of the chunk after the absorbed one. -/
theorem headersOnly_absorb (hhdr : 16 ≤ cfg.hdr) (hc : c ∈ cs) (hnext : hdrNext m n ≠ 0 → hdrNext m n ∈ cs) :
    HeadersOnly cfg cs m (absorb cfg m c n) := by
  intro x hx
  have hxc : ¬(c ≤ x ∧ x < c + cfg.hdr) := fun hin => hx ⟨c, hc, hin⟩
  refine read_absorb cfg m c n x (by omega) fun hne => ?_
  have hxn : ¬(hdrNext m n ≤ x ∧ x < hdrNext m n + cfg.hdr) := fun hin => hx ⟨_, hnext hne, hin⟩
  omega

/-- Split writes only headers of the list it leaves: it writes no byte that granting the chunk would not. -/
theorem headersOnly_split {rs : Nat} {pre post : List Chunk} (hhdr : 16 ≤ cfg.hdr) (h : Holds cfg m size (pre ++ k :: post)) :
    HeadersOnly cfg ((pre ++ grantChunk cfg.hdr rs k ++ post).map Chunk.addr) m (split cfg m k.addr rs) := by
  intro x hx
  obtain ⟨len, tail, -, hgrant, -⟩ := splitChunk_grantChunk cfg.hdr rs k
  have hxk : ¬(k.addr ≤ x ∧ x < k.addr + cfg.hdr) := fun hin => hx ⟨k.addr, by simp [hgrant], hin⟩
  calc _ = (setAllocated (split cfg m k.addr rs) k.addr 1).read x := (read_setAllocated _ _ _ _ (by omega)).symm
    _ = m.read x := read_grant_outside hhdr h fun c hc hin => hx ⟨c.addr, List.mem_map_of_mem hc, hin⟩

theorem headersOnly_absorbForward (hhdr : 16 ≤ cfg.hdr) (h : Holds cfg m size ks) (hc : c ∈ ks.map Chunk.addr) :
    HeadersOnly cfg (ks.map Chunk.addr) m (absorbForward cfg m c) := by
  unfold absorbForward
  split
  next hfree => exact headersOnly_absorb hhdr hc (hdrNext_mem h (hdrNext_mem h hc hfree.1))
  next => exact fun _ _ => rfl

theorem headersOnly_absorbBack (hhdr : 16 ≤ cfg.hdr) (h : Holds cfg m size ks) (hc : c ∈ ks.map Chunk.addr) :
    HeadersOnly cfg (ks.map Chunk.addr) m (absorbBack cfg m c) := by
  unfold absorbBack
  split
  next hfree => exact headersOnly_absorb hhdr (hdrPrev_mem h hc hfree.1) (hdrNext_mem h hc)
  next => exact fun _ _ => rfl

theorem mergeForward_addr_subset (hdr : Nat) (k : Chunk) (ks : List Chunk) :
    (mergeForward hdr k ks).map Chunk.addr ⊆ (k :: ks).map Chunk.addr := by
  cases ks with
  | nil => exact List.Subset.refl _
  | cons n ks =>
    by_cases hn : n.allocated = false
    · rw [mergeForward, if_pos hn]
      exact List.cons_subset_cons _ (List.subset_cons_self _ _)
    · rw [mergeForward, if_neg hn]
      exact List.Subset.refl _

/-- FREE writes only headers of the list it finds (40_heap.md R108). -/
theorem headersOnly_freeChunk (ok : ArenaOk cfg size) (h : Holds cfg m size ks) (hk : k ∈ ks) :
    HeadersOnly cfg (ks.map Chunk.addr) m (freeChunk cfg m k.addr) := by
  obtain ⟨pre, post, rfl⟩ := List.append_of_mem hk
  have hmarked := holds_setAllocated ok h false
  have hforward := holds_absorbForward ok hmarked
  have haddrs : (pre ++ ⟨k.addr, k.len, false⟩ :: post).map Chunk.addr = (pre ++ k :: post).map Chunk.addr := by simp
  have hsub : (pre ++ mergeForward cfg.hdr ⟨k.addr, k.len, false⟩ post).map Chunk.addr ⊆ (pre ++ k :: post).map Chunk.addr := by
    rw [List.map_append, List.map_append]
    exact List.append_subset.2 ⟨List.subset_append_left _ _,
      List.Subset.trans (mergeForward_addr_subset cfg.hdr ⟨k.addr, k.len, false⟩ post) (List.subset_append_right _ _)⟩
  obtain ⟨len, rest, hmerged⟩ := mergeForward_cons cfg.hdr ⟨k.addr, k.len, false⟩ post
  have hmark := headersOnly_setAllocated ok.hdr (m := m) (List.mem_map_of_mem (f := Chunk.addr) hk) 0
  have hfirst := headersOnly_absorbForward ok.hdr hmarked (c := k.addr) (by simp)
  have hsecond := headersOnly_absorbBack ok.hdr hforward (c := k.addr) (by simp [hmerged])
  rw [haddrs] at hfirst
  exact (hmark.trans hfirst).trans (hsecond.mono hsub)

end

/-! ## States ready for a heap command -/

/-- What a heap command leaves on a ready state, its heap laid out anew, is ready for the next one. -/
theorem ReadyHeap.next {s t : State} {m : Memory} {size : Nat} {ks ks' : List Chunk} (h : ReadyHeap s size ks)
    (ht : SameHeapState (s.setMem m) t) (hm : HeapIs s.cfg m size ks') : ReadyHeap t size ks' := by
  obtain ⟨⟨hw, hinit, hnote, -, hbacked⟩, ha, -, ok⟩ := h
  have hview := heapView_of_sameHeapState ht ha hw hm
  obtain ⟨hcfg, hstatus, hmem, harena, hnote'⟩ := ht
  simp only [setMem_cfg, setMem_status, setMem_mem, setMem_arenaSize, setMem_headerOverwritten] at hcfg hstatus hmem harena hnote'
  refine ⟨⟨by rwa [hcfg], ?_, hnote'.trans hnote, heapChunks_of_heapView hview, by rwa [hcfg, harena]⟩, harena.trans ha,
    by rwa [hcfg, hmem], by rwa [hcfg]⟩
  rw [State.initialised, hstatus]
  exact hinit

/-- A ready state whose heap is known by its view. -/
theorem readyHeap_of_heapView {s : State} {cs : List Nat} {ks : List Chunk} (h : s.HeapReady cs) (hview : s.heapView = some ks) :
    ∃ size, cs = ks.map Chunk.addr ∧ ReadyHeap s size ks := by
  obtain ⟨size, ks', rfl, hready⟩ := readyHeap_of_heapReady h
  obtain rfl := Option.some.inj (hready.heapView.symm.trans hview)
  exact ⟨size, rfl, hready⟩

theorem ReadyHeap.heapChunks {s : State} {size : Nat} {ks : List Chunk} (h : ReadyHeap s size ks) :
    s.heapChunks = some (ks.map Chunk.addr) := heapChunks_of_heapView h.heapView

theorem ReadyHeap.hdr_mod {s : State} {size : Nat} {ks : List Chunk} (h : ReadyHeap s size ks) : s.cfg.hdr % 8 = 0 :=
  ((wellFormed_iff s.cfg).1 h.wellFormed).1

theorem ReadyHeap.holds {s : State} {size : Nat} {ks : List Chunk} (h : ReadyHeap s size ks) : Holds s.cfg s.mem size ks :=
  (heapFrom_refl h.heap).held.holds

theorem validPointer_iff {cfg : Config} {m : Memory} {cs : List Nat} {p : Nat} :
    validPointer cfg m cs p = true ↔ ∃ c ∈ cs, hdrAllocated m c = 1 ∧ p = c + cfg.hdr := by
  simp only [validPointer, Bool.and_eq_true, decide_eq_true_eq, List.contains_iff_mem, beq_iff_eq]
  constructor
  · rintro ⟨⟨hle, hmem⟩, hflag⟩
    exact ⟨_, hmem, hflag, by omega⟩
  · rintro ⟨c, hmem, hflag, rfl⟩
    rw [Nat.add_sub_cancel]
    exact ⟨⟨Nat.le_add_left _ _, hmem⟩, hflag⟩

/-- The valid pointers of a ready state are the payload addresses of the allocated chunks (10_state.md R36). -/
theorem ReadyHeap.validPointer_iff {s : State} {size p : Nat} {ks : List Chunk} (h : ReadyHeap s size ks) :
    validPointer s.cfg s.mem (ks.map Chunk.addr) p = true ↔ ∃ k ∈ ks, k.allocated = true ∧ p = k.addr + s.cfg.hdr := by
  simp only [Proofs.validPointer_iff, List.mem_map, exists_exists_and_eq_and]
  refine exists_congr fun k => and_congr_right fun hk => ?_
  rw [(header_of_heapIs h.heap hk).2, flagWord_eq_one]

end Sys2Proof.Proofs
end

section
/-! PROOFS. INIT, and the violations that the heap commands' preconditions name (40_heap.md R100, R101, R108, R110). -/

namespace Sys2Proof.Proofs

open Sys2Proof Sys2Proof.Machine Sys2Proof.Laws

/-! ## INIT (40_heap.md R101) -/

/-- INIT's writes are to the 16 bytes of one header. -/
theorem read_initHeader (cfg : Config) (m : Memory) (size x : Nat) (hx : ¬inRange cfg.arenaBase 16 x) :
    (initHeader cfg m size).read x = m.read x := by
  simp only [inRange] at hx
  unfold initHeader
  rw [read_setAllocated _ _ _ _ (by omega), read_setLength _ _ _ _ (by omega), read_setPrev _ _ _ _ (by omega),
    read_setNext _ _ _ _ (by omega)]

theorem execInit_completes {s : State} (hinit : s.initialised = false) (hsize : memSizeOk s.cfg (s.opA .a0) = true) :
    execInit s = .next { s with
      mem := initHeader s.cfg s.mem (s.opA .a0 - s.cfg.hdr)
      arenaSize := some (s.opA .a0 - s.cfg.hdr)
      headerOverwritten := false
      status := statusSetInit s.status } := by
  rw [execInit, hinit, hsize]
  rfl

/-- Settles O32: INIT's four writes lay out a heap of one free chunk (`heapFrom_initHeader`). -/
theorem initCreatesOneFreeChunk : Obligations.InitCreatesOneFreeChunk := by
  intro s hw hinit hmod hroom hlimit
  obtain ⟨hhdr8, hhdr, -, hbase, -, hmax⟩ := (wellFormed_iff s.cfg).1 hw
  have ok : ArenaOk s.cfg (s.opA .a0 - s.cfg.hdr) := ⟨hhdr, hbase, by omega, by omega⟩
  have hheap := (heapFrom_initHeader s.mem ok hhdr8 (by omega) (by omega)).heap
  have hexec := execInit_completes hinit ((memSizeOk_iff _ _).2 ⟨hmod, hroom, hlimit⟩)
  have hread := read_initHeader s.cfg s.mem (s.opA .a0 - s.cfg.hdr)
  generalize initHeader s.cfg s.mem (s.opA .a0 - s.cfg.hdr) = m at hheap hexec hread
  obtain ⟨hnext, hprev, hlength, hallocated⟩ : HeaderIs m s.cfg.arenaBase 0 0 (s.opA .a0 - s.cfg.hdr - s.cfg.hdr) 0 :=
    hheap.layout.1
  refine ⟨_, hexec, statusInit_setInit s.status, rfl, rfl, hnext, hprev, hlength.trans (by omega), hallocated, ?_, hread, rfl⟩
  refine heapChunks_of_heapView (ks := [⟨s.cfg.arenaBase, s.opA .a0 - s.cfg.hdr - s.cfg.hdr, false⟩])
    ((heapView_eq_some_iff rfl ?_ _).2 ?_)
  exacts [hw, hheap]

/-- Settles O33: the test for a second INIT comes first, then the one of the memory size. -/
theorem initPreconditionsAreViolations : Obligations.InitPreconditionsAreViolations := by
  refine fun s => ⟨fun hinit => if_pos hinit, fun hinit hbad => ?_⟩
  have hsize : memSizeOk s.cfg (s.opA .a0) = false := by
    rw [← Bool.not_eq_true, memSizeOk_iff]
    omega
  exact (if_neg (by simp [hinit])).trans (if_pos (by simp [hsize]))

/-! ## Before INIT, and pointers that are not valid (40_heap.md R100, R108, R110) -/

theorem withHeap_notInitialised {s : State} (hinit : s.initialised = false) (body : List Nat → Result) :
    s.withHeap body = .fault .heapNotInitialised := if_pos (by simp [hinit])

/-- Settles O43: the test of STATUS.INIT comes before any operand is read. -/
theorem heapCommandsBeforeInitAreViolations : Obligations.HeapCommandsBeforeInitAreViolations := by
  intro s i hi hinit
  obtain ⟨body, hbody⟩ := heapCommand_eq_withHeap hi s
  rw [hbody, withHeap_notInitialised hinit]

theorem execFree_invalid {s : State} {cs : List Nat} (h : s.HeapReady cs) (hnull : s.opA .a0 ≠ 0)
    (hbad : ¬validPointer s.cfg s.mem cs (s.opA .a0) = true) : execFree s = .fault .badFree := by
  rw [execFree_ready h, if_neg hnull, if_pos (by simpa using hbad)]

theorem execRealloc_invalid {s : State} {cs : List Nat} (h : s.HeapReady cs)
    (hbad : ¬validPointer s.cfg s.mem cs (s.opA .a0) = true) :
    execRealloc s = .fault .badRealloc := by
  rw [execRealloc_ready h, if_pos (by simpa using hbad)]

/-- Settles O39: null is tested before anything is looked for in the chunk list. -/
theorem freeOfNullIsANoOp : Obligations.FreeOfNullIsANoOp := fun _ _ hready hnull =>
  (execFree_ready hready).trans (if_pos hnull)

/-- Settles O41: a valid pointer is an allocated chunk's payload address (`validPointer_iff`). -/
theorem freeOfAnInvalidPointerIsAViolation : Obligations.FreeOfAnInvalidPointerIsAViolation := fun _ _ hready hnull hbad =>
  execFree_invalid hready hnull (mt validPointer_iff.1 hbad)

/-- Settles O50: a valid pointer is an allocated chunk's payload address, which null is not. -/
theorem reallocOfAnInvalidPointerIsAViolation : Obligations.ReallocOfAnInvalidPointerIsAViolation := fun _ _ hready hbad =>
  execRealloc_invalid hready (mt validPointer_iff.1 hbad)

end Sys2Proof.Proofs
end

section
/-! PROOFS. ALLOC and FREE refine allocation and freeing on the list of chunks (40_heap.md R102 to R109, R114). -/

namespace Sys2Proof.Proofs

open Sys2Proof Sys2Proof.Machine Sys2Proof.Laws

/-! ## ALLOC's work on memory -/

/-- Where the list has no room ALLOC's work finds nothing. -/
theorem allocChunk_of_allocList_none {cfg : Config} {m : Memory} {size request : Nat} {ks : List Chunk} (h : HeapIs cfg m size ks)
    (hlist : allocList cfg.hdr (round8 request) ks = none) : allocChunk cfg m (ks.map Chunk.addr) request = none := by
  rw [allocChunk, firstFit_of_layout h.layout, hlist]
  rfl

/-- Where the list has room ALLOC's work grants the same chunk, lays out the list's new value and writes only its headers. -/
theorem allocChunk_of_allocList {cfg : Config} {m : Memory} {size request d : Nat} {ks ks' : List Chunk} (ok : ArenaOk cfg size)
    (hhdr : cfg.hdr % 8 = 0) (h : HeapIs cfg m size ks) (hlist : allocList cfg.hdr (round8 request) ks = some (ks', d)) :
    ∃ m', allocChunk cfg m (ks.map Chunk.addr) request = some (m', d) ∧ HeapIs cfg m' size ks' ∧
      HeadersOnly cfg (ks'.map Chunk.addr) m m' := by
  have hfit := (firstFit_of_layout (hdr := cfg.hdr) (rs := round8 request) h.layout).trans (congrArg _ hlist)
  obtain ⟨pre, k, post, rfl, -, hfree, hlen, rfl, rfl⟩ := allocList_eq_some_iff.1 hlist
  have hfrom := heapFrom_refl h
  refine ⟨_, ?_, (hfrom.grant ok hhdr hfree hlen (round8_mod request)).heap, fun x hx => ?_⟩
  · rw [allocChunk, hfit]
    rfl
  · exact read_grant_outside ok.hdr hfrom.held.holds fun c hc hin => hx ⟨c.addr, List.mem_map_of_mem hc, hin⟩

/-! ## ALLOC on the state -/

namespace ReadyHeap

variable {s t : State} {size d : Nat} {ks ks' : List Chunk} {k : Chunk}

theorem execAlloc_no_room (h : ReadyHeap s size ks) (hlist : allocList s.cfg.hdr (round8 (s.opA .a0)) ks = none) :
    execAlloc s = .next (s.enterHalt causeOOM) := by
  rw [execAlloc_ready h.ready, allocChunk_of_allocList_none h.heap hlist]

theorem execAlloc_room (h : ReadyHeap s size ks) (hlist : allocList s.cfg.hdr (round8 (s.opA .a0)) ks = some (ks', d)) :
    ∃ m, execAlloc s = .next ((s.setMem m).setA .a0 (BitVec.ofNat 32 (d + s.cfg.hdr))) ∧
      ReadyHeap ((s.setMem m).setA .a0 (BitVec.ofNat 32 (d + s.cfg.hdr))) size ks' ∧
      HeadersOnly s.cfg (ks'.map Chunk.addr) s.mem m := by
  obtain ⟨m, halloc, hheap, honly⟩ := allocChunk_of_allocList h.ok h.hdr_mod h.heap hlist
  refine ⟨m, ?_, h.next (sameHeapState_setA _ _ _) hheap, honly⟩
  rw [execAlloc_ready h.ready, halloc]

/-- ALLOC, where it does not halt, has completed with the list's allocation. -/
theorem execAlloc_completes (h : ReadyHeap s size ks) (hexec : execAlloc s = .next t) (ht : t.halted = false) :
    ∃ ks' d m, allocList s.cfg.hdr (round8 (s.opA .a0)) ks = some (ks', d) ∧
      t = (s.setMem m).setA .a0 (BitVec.ofNat 32 (d + s.cfg.hdr)) ∧ ReadyHeap t size ks' := by
  cases hlist : allocList s.cfg.hdr (round8 (s.opA .a0)) ks with
  | none =>
    obtain rfl := Host.Outcome.next.inj ((h.execAlloc_no_room hlist).symm.trans hexec)
    exact absurd ((haltedFrom_enterHalt s).1.symm.trans ht) (by simp)
  | some r =>
    obtain ⟨ks', d⟩ := r
    obtain ⟨m, hexec', hready, -⟩ := h.execAlloc_room hlist
    obtain rfl := Host.Outcome.next.inj (hexec'.symm.trans hexec)
    exact ⟨ks', d, m, rfl, rfl, hready⟩

/-- Below the top of the address space a payload address fits a register (log entry 13). -/
theorem payload_toNat (h : ReadyHeap s size ks) (htop : s.cfg.arenaBase + s.arenaSize.getD 0 < 4294967296) (hk : k ∈ ks) :
    (BitVec.ofNat 32 (k.addr + s.cfg.hdr)).toNat = k.addr + s.cfg.hdr := by
  have hend := (tiles_mem h.heap.tiles hk).2
  rw [h.arena, Option.getD_some] at htop
  rw [BitVec.toNat_ofNat]
  exact Nat.mod_eq_of_lt (by omega)

/-- A payload address is a multiple of 8 and not null. -/
theorem payload_aligned (h : ReadyHeap s size ks) (hk : k ∈ ks) :
    (k.addr + s.cfg.hdr) % 8 = 0 ∧ k.addr + s.cfg.hdr ≠ 0 := by
  obtain ⟨hhdr8, hhdr, hbase, -⟩ := (wellFormed_iff s.cfg).1 h.wellFormed
  have := tiles_addr_aligned h.heap.tiles hhdr8 hbase h.heap.aligned k hk
  omega

end ReadyHeap

/-- Settles O35: the two outcomes of allocation on the list are the two outcomes of ALLOC. -/
theorem allocRefinesFirstFitOnTheChunkList : Obligations.AllocRefinesFirstFitOnTheChunkList := by
  intro s cs ks hready hview
  obtain ⟨size, rfl, h⟩ := readyHeap_of_heapView hready hview
  cases hlist : allocList s.cfg.hdr (round8 (s.opA .a0)) ks with
  | none => exact ⟨_, h.execAlloc_no_room hlist, haltedFrom_enterHalt s⟩
  | some r =>
    obtain ⟨m, hexec, hready', -⟩ := h.execAlloc_room hlist
    exact ⟨_, hexec, hready'.heapView, rfl⟩

/-- Settles O37: the rounded size is the whole address space, and every payload is smaller. -/
theorem requestNearTheTopHalts : Obligations.RequestNearTheTopHalts := by
  intro s cs hready hsize
  obtain ⟨size, ks, rfl, h⟩ := readyHeap_of_heapReady hready
  have hround : round8 (s.opA .a0) = 4294967296 := by
    have hlt : s.opA .a0 < 4294967296 := s.a0.value.isLt
    unfold round8 Config.align
    omega
  refine ⟨hround, _, h.execAlloc_no_room (allocList_eq_none fun k hk => ?_), haltedFrom_enterHalt s⟩
  have := tiles_mem h.heap.tiles hk
  have := h.ok.below
  omega

/-- Settles O38: the granted chunk is a chunk of the new heap, and its payload address fits the register. -/
theorem allocatedAddressIsAlignedAndNotNull : Obligations.AllocatedAddressIsAlignedAndNotNull := by
  intro s t cs hready htop _ hexec ht
  obtain ⟨size, ks, rfl, h⟩ := readyHeap_of_heapReady hready
  obtain ⟨ks', d, m, hlist, rfl, hready'⟩ := h.execAlloc_completes hexec ht
  obtain ⟨len, hmem, -⟩ := granted_mem_of_allocList hlist
  have haddr : (BitVec.ofNat 32 (d + s.cfg.hdr)).toNat = d + s.cfg.hdr := hready'.payload_toNat htop hmem
  have haligned : (d + s.cfg.hdr) % 8 = 0 ∧ d + s.cfg.hdr ≠ 0 := hready'.payload_aligned hmem
  rwa [← haddr] at haligned

/-! ## ALLOC by the chunk headers -/

/-- A chunk fits the request by its header exactly when it does on the list. -/
theorem chunkFits_iff {cfg : Config} {m : Memory} {size request : Nat} {ks : List Chunk} {k : Chunk} (h : HeapIs cfg m size ks)
    (hk : k ∈ ks) : chunkFits m request k.addr ↔ k.allocated = false ∧ round8 request ≤ k.len := by
  obtain ⟨hlength, hallocated⟩ := header_of_heapIs h hk
  rw [chunkFits, hlength, hallocated, flagWord_eq_zero]

/-- Settles O34: the chunk is the first fit of the list, and the new heap is read back header by header. -/
theorem allocGrantsTheFirstFit : Obligations.AllocGrantsTheFirstFit := by
  intro s pre post c hready hpre hfits
  obtain ⟨size, ks, hks, h⟩ := readyHeap_of_heapReady hready
  obtain ⟨kpre, ks₂, rfl, rfl, hks₂⟩ := List.map_eq_append_iff.1 hks.symm
  obtain ⟨k, kpost, rfl, rfl, rfl⟩ := List.map_eq_cons_iff.1 hks₂
  obtain ⟨hfree, hlen⟩ := (chunkFits_iff h.heap (k := k) (by simp)).1 hfits
  have hkpre : ∀ c ∈ kpre, ¬(c.allocated = false ∧ round8 (s.opA .a0) ≤ c.len) := fun c hc hfit =>
    hpre c.addr (List.mem_map_of_mem hc) ((chunkFits_iff h.heap (by simp [hc])).2 hfit)
  obtain ⟨m, hexec, hready', honly⟩ := h.execAlloc_room
    (allocList_eq_some_iff.2 ⟨kpre, k, kpost, rfl, hkpre, hfree, hlen, rfl, rfl⟩)
  have hheap' : HeapIs s.cfg m size (kpre ++ grantChunk s.cfg.hdr (round8 (s.opA .a0)) k ++ kpost) := hready'.heap
  have hchunks' := hready'.heapChunks
  obtain ⟨hklen, -⟩ := header_of_heapIs h.heap (k := k) (by simp)
  rw [hklen]
  refine ⟨_, hexec, rfl, rfl, ?_, fun hcut => ?_, fun hwhole => ?_, fun d hd => ?_, ?_⟩
  · obtain ⟨len, tail, -, hgrant, -⟩ := splitChunk_grantChunk s.cfg.hdr (round8 (s.opA .a0)) k
    exact (header_of_heapIs hheap' (k := ⟨k.addr, len, true⟩) (by simp [hgrant])).2
  · rw [grantChunk, if_pos hcut] at hheap' hchunks'
    obtain ⟨hlength, -⟩ := header_of_heapIs hheap' (k := ⟨k.addr, round8 (s.opA .a0), true⟩) (by simp)
    obtain ⟨htailLength, htailFree⟩ := header_of_heapIs hheap'
      (k := ⟨k.addr + s.cfg.hdr + round8 (s.opA .a0), k.len - round8 (s.opA .a0) - s.cfg.hdr, false⟩) (by simp)
    exact ⟨hchunks'.trans (by simp), hlength, htailFree, htailLength⟩
  · rw [grantChunk, if_neg (by omega)] at hheap' hchunks'
    exact ⟨hchunks'.trans (by simp), (header_of_heapIs hheap' (k := ⟨k.addr, k.len, true⟩) (by simp)).1⟩
  · rw [← List.map_append] at hd
    obtain ⟨q, hq, rfl⟩ := List.mem_map.1 hd
    have hq := List.mem_append.1 hq
    have hold : q ∈ kpre ++ k :: kpost := by simp only [List.mem_append, List.mem_cons]; tauto
    have hnew : q ∈ kpre ++ grantChunk s.cfg.hdr (round8 (s.opA .a0)) k ++ kpost := by simp only [List.mem_append]; tauto
    obtain ⟨hlength, hallocated⟩ := header_of_heapIs h.heap hold
    obtain ⟨hlength', hallocated'⟩ := header_of_heapIs hheap' hnew
    exact ⟨hlength'.trans hlength.symm, hallocated'.trans hallocated.symm⟩
  · rw [hchunks', Option.getD_some]
    exact honly

/-! ## FREE -/

namespace ReadyHeap

variable {s t : State} {size : Nat} {ks : List Chunk} {k : Chunk}

/-- FREE of an allocated chunk's payload completes with the list's freeing, and writes only headers that were live. -/
theorem execFree_valid (h : ReadyHeap s size ks) (hk : k ∈ ks) (hka : k.allocated = true) (hp : s.opA .a0 = k.addr + s.cfg.hdr) :
    ∃ m, execFree s = .next (s.setMem m) ∧ ReadyHeap (s.setMem m) size (freeList s.cfg.hdr k.addr ks) ∧
      HeadersOnly s.cfg (ks.map Chunk.addr) s.mem m := by
  obtain ⟨-, hnull⟩ := h.payload_aligned hk
  have hvalid := h.validPointer_iff.2 ⟨k, hk, hka, hp⟩
  have hheap := ((heapFrom_refl h.heap).freeChunk h.ok h.hdr_mod hk).heap
  refine ⟨freeChunk s.cfg s.mem k.addr, ?_, h.next ⟨rfl, rfl, rfl, rfl, rfl⟩ hheap, headersOnly_freeChunk h.ok h.holds hk⟩
  rw [execFree_ready h.ready, hvalid, hp, if_neg hnull, Nat.add_sub_cancel]
  rfl

/-- FREE of a pointer that is not null completes only on an allocated chunk's payload. -/
theorem execFree_completes (h : ReadyHeap s size ks) (hnull : s.opA .a0 ≠ 0) (hexec : execFree s = .next t) :
    ∃ (k : Chunk) (m : Memory), s.opA .a0 = k.addr + s.cfg.hdr ∧ t = s.setMem m ∧
      ReadyHeap (s.setMem m) size (freeList s.cfg.hdr k.addr ks) := by
  by_cases hvalid : validPointer s.cfg s.mem (ks.map Chunk.addr) (s.opA .a0) = true
  · obtain ⟨k, hk, hka, hp⟩ := h.validPointer_iff.1 hvalid
    obtain ⟨m, hexec', hfreed, -⟩ := h.execFree_valid hk hka hp
    exact ⟨k, m, hp, Host.Outcome.next.inj (hexec.symm.trans hexec'), hfreed⟩
  · cases (execFree_invalid h.ready hnull hvalid).symm.trans hexec

end ReadyHeap

/-- Settles O40: FREE's work on memory is freeing and coalescing on the list (`HeapFrom.freeChunk`). -/
theorem freeRefinesCoalescingOnTheChunkList : Obligations.FreeRefinesCoalescingOnTheChunkList := by
  intro s cs ks k hready hview hk hka hp
  obtain ⟨size, rfl, h⟩ := readyHeap_of_heapView hready hview
  obtain ⟨m, hexec, hfreed, honly⟩ := h.execFree_valid hk hka hp
  exact ⟨_, hexec, hfreed.heapView, rfl, honly⟩

/-- Settles O42: after the first FREE no chunk at that address is allocated (`addr_ne_of_freeList`). -/
theorem doubleFreeIsAViolation : Obligations.DoubleFreeIsAViolation := by
  intro s t cs hready hnull hexec
  obtain ⟨size, ks, rfl, h⟩ := readyHeap_of_heapReady hready
  obtain ⟨k, m, hp, rfl, hfreed⟩ := h.execFree_completes hnull hexec
  refine execFree_invalid hfreed.ready hnull fun hvalid => ?_
  obtain ⟨k', hk', hka', hp'⟩ := hfreed.validPointer_iff.1 hvalid
  have haddr : k'.addr + s.cfg.hdr = k.addr + s.cfg.hdr := hp'.symm.trans hp
  exact addr_ne_of_freeList hk' hka' (Nat.add_right_cancel haddr)

/-- Settles O52: FREE of what ALLOC granted gives the heap's old list back (`freeList_allocList`), so the second ALLOC finds the same
first fit. -/
theorem allocFreeAllocReturnsTheSameAddress : Obligations.AllocFreeAllocReturnsTheSameAddress := by
  intro s t u cs hready htop hs hexec ht hfree
  obtain ⟨size, ks, rfl, h⟩ := readyHeap_of_heapReady hready
  obtain ⟨ks', d, m, hlist, rfl, hgranted⟩ := h.execAlloc_completes hexec ht
  obtain ⟨len, hmem, -⟩ := granted_mem_of_allocList hlist
  obtain ⟨m', hexec', hfreed, -⟩ := hgranted.execFree_valid hmem rfl (hgranted.payload_toNat htop hmem)
  obtain rfl := Host.Outcome.next.inj (hexec'.symm.trans hfree)
  have hback : freeList s.cfg.hdr d ks' = ks :=
    freeList_allocList (by have := h.ok.hdr; omega) h.heap.noTwoFree hgranted.heap.tiles hlist
  have hready' : ReadyHeap _ size ks := hback ▸ hfreed
  obtain ⟨m'', hexec'', -, -⟩ := (hready'.next (sameHeapState_setA _ .a0 s.a0.value) hready'.heap).execAlloc_room hlist
  exact ⟨_, hexec'', hs, rfl⟩

end Sys2Proof.Proofs
end

section
/-! PROOFS. REALLOC on the list of chunks, in place and by copy, and what it preserves of the payload (40_heap.md R110 to R114). -/

namespace Sys2Proof.Proofs

open Sys2Proof Sys2Proof.Machine Sys2Proof.Laws

/-! ## The choice between the two paths (40_heap.md R110) -/

theorem reallocFitsInPlace_of_free {cfg : Config} {m : Memory} {size newSize : Nat} {pre post : List Chunk} {k n : Chunk}
    (ok : ArenaOk cfg size) (h : Holds cfg m size (pre ++ k :: n :: post)) (hn : n.allocated = false)
    (hfits : newSize ≤ k.len + cfg.hdr + n.len) : reallocFitsInPlace cfg m k.addr newSize = true := by
  have hbase := ok.base
  have hn0 := (tiles_mem h.tiles (k := n) (by simp)).1
  have hnext : hdrNext m k.addr = n.addr := h.header.next
  have hnhdr : HeaderIs m n.addr _ _ n.len (flagWord n.allocated) := ((layout_append _ _ _ _ _).1 h.layout).2.2.1
  simp only [reallocFitsInPlace, hnext, h.header.length, hnhdr.allocated, hnhdr.length, Bool.and_eq_true, bne_iff_ne, beq_iff_eq,
    decide_eq_true_eq, flagWord_eq_zero]
  exact ⟨⟨by omega, hn⟩, hfits⟩

theorem reallocFitsInPlace_of_mustCopy {cfg : Config} {m : Memory} {size newSize : Nat} {pre post : List Chunk} {k : Chunk}
    (h : Holds cfg m size (pre ++ k :: post)) (hcopy : mustCopy cfg.hdr newSize k post) :
    reallocFitsInPlace cfg m k.addr newSize = false := by
  rw [← Bool.not_eq_true]
  intro hfits
  obtain ⟨n, post', rfl, hn, hlen⟩ := reallocFitsInPlace_chunk h hfits
  rcases hcopy n rfl with hna | hshort
  · exact absurd hna (by simp [hn])
  · omega

/-- Either the next chunk lets REALLOC work in place, or it must copy. -/
theorem inPlace_or_mustCopy (hdr newSize : Nat) (k : Chunk) (post : List Chunk) :
    (∃ n post', post = n :: post' ∧ n.allocated = false ∧ newSize ≤ k.len + hdr + n.len) ∨ mustCopy hdr newSize k post := by
  cases post with
  | nil => exact .inr fun n hn => by cases hn
  | cons n post =>
    by_cases hfits : n.allocated = false ∧ newSize ≤ k.len + hdr + n.len
    · exact .inl ⟨n, post, rfl, hfits⟩
    · refine .inr fun n' hn' => ?_
      obtain rfl : n = n' := Option.some.inj hn'
      rw [← Bool.not_eq_false, ← Nat.not_le]
      tauto

/-! ## In place (40_heap.md R111) -/

/-- The list of chunks after REALLOC has worked in place on `k`, which `n` follows: the two merged and cut at the rounded size. -/
abbrev mergeAndCut (hdr newSize : Nat) (pre : List Chunk) (k n : Chunk) (post : List Chunk) : List Chunk :=
  pre ++ grantChunk hdr (round8 newSize) ⟨k.addr, k.len + hdr + n.len, true⟩ ++ post

/-- The merge and the cut write only headers of the list they leave. -/
theorem headersOnly_reallocInPlace {cfg : Config} {m : Memory} {size newSize : Nat} {pre post : List Chunk} {k n : Chunk}
    (ok : ArenaOk cfg size) (h : Holds cfg m size (pre ++ k :: n :: post)) (hk : k.allocated = true) :
    HeadersOnly cfg ((mergeAndCut cfg.hdr newSize pre k n post).map Chunk.addr) m (reallocInPlace cfg m k.addr newSize) := by
  have hnext : hdrNext m k.addr = n.addr := h.header.next
  have hmerged := holds_absorb ok h
  rw [hk] at hmerged
  obtain ⟨len, tail, -, hgrant, -⟩ := splitChunk_grantChunk cfg.hdr (round8 newSize) ⟨k.addr, k.len + cfg.hdr + n.len, true⟩
  have hkmem : k.addr ∈ (mergeAndCut cfg.hdr newSize pre k n post).map Chunk.addr := by
    simp [hgrant]
  have hnnext : hdrNext m n.addr = headAddr 0 post := ((layout_append _ _ _ _ _).1 h.layout).2.2.1.next
  have habsorb := headersOnly_absorb ok.hdr (m := m) (n := n.addr) hkmem fun hne => by
    rw [hnnext] at hne ⊢
    cases post with
    | nil => exact absurd rfl hne
    | cons q post => simp [headAddr]
  rw [reallocInPlace, hnext]
  exact habsorb.trans (headersOnly_split ok.hdr hmerged)

/-! ## The copy (40_heap.md R112) -/

/-- A copy of whole units from one chunk's payload into another's: the heap stays, the target holds the source's bytes, and nothing
else is written. -/
theorem copyUnits_payload {cfg : Config} {m : Memory} {size count : Nat} {ks : List Chunk} {g k : Chunk} (ok : ArenaOk cfg size)
    (h : HeapIs cfg m size ks) (hg : g ∈ ks) (hk : k ∈ ks) (hne : g.addr ≠ k.addr) (hunit : count % 8 = 0) (hglen : count ≤ g.len)
    (hklen : count ≤ k.len) :
    HeapIs cfg (copyUnits m (k.addr + cfg.hdr) (g.addr + cfg.hdr) (count / 8)) size ks ∧
      (∀ j < count, (copyUnits m (k.addr + cfg.hdr) (g.addr + cfg.hdr) (count / 8)).read (g.addr + cfg.hdr + j) =
        m.read (k.addr + cfg.hdr + j)) ∧
      ∀ x, ¬inRange (g.addr + cfg.hdr) count x →
        (copyUnits m (k.addr + cfg.hdr) (g.addr + cfg.hdr) (count / 8)).read x = m.read x := by
  have hgk := header_payload_apart h.tiles hg hk
  have hkg := header_payload_apart h.tiles hk hg
  refine ⟨((heapFrom_refl h).copyUnits ok hg (by omega)).heap, fun j hj => ?_, fun x hx => ?_⟩
  · exact read_copyUnits_inside _ _ _ _ _ (by omega) (by omega)
  · simp only [inRange] at hx
    exact read_copyUnits_outside _ _ _ _ _ (by omega)

/-! ## REALLOC on the state -/

namespace ReadyHeap

variable {s t : State} {size d : Nat} {ks' pre post : List Chunk} {k n : Chunk}

theorem execRealloc_inPlace (h : ReadyHeap s size (pre ++ k :: n :: post)) (hk : k.allocated = true) (hn : n.allocated = false)
    (hp : s.opA .a0 = k.addr + s.cfg.hdr) (hfits : s.opA .a1 ≤ k.len + s.cfg.hdr + n.len) :
    ∃ m, execRealloc s = .next (s.setMem m) ∧
      ReadyHeap (s.setMem m) size (mergeAndCut s.cfg.hdr (s.opA .a1) pre k n post) ∧
      HeadersOnly s.cfg ((mergeAndCut s.cfg.hdr (s.opA .a1) pre k n post).map Chunk.addr) s.mem m := by
  have hvalid := h.validPointer_iff.2 ⟨k, by simp, hk, hp⟩
  have hheap := ((heapFrom_refl h.heap).reallocInPlace h.ok h.hdr_mod hk hn hfits).heap
  refine ⟨_, ?_, h.next ⟨rfl, rfl, rfl, rfl, rfl⟩ hheap, headersOnly_reallocInPlace h.ok h.holds hk⟩
  rw [execRealloc_ready h.ready, hvalid, hp, Nat.add_sub_cancel, reallocFitsInPlace_of_free h.ok h.holds hn hfits]
  rfl

/-- REALLOC answers a next state only on an allocated chunk's payload. -/
theorem execRealloc_valid {ks : List Chunk} (h : ReadyHeap s size ks) (hexec : execRealloc s = .next t) :
    ∃ k ∈ ks, k.allocated = true ∧ s.opA .a0 = k.addr + s.cfg.hdr := by
  by_contra hinvalid
  cases (execRealloc_invalid h.ready (mt h.validPointer_iff.1 hinvalid)).symm.trans hexec

/-- Where REALLOC cannot work in place it takes the copy path. -/
theorem execRealloc_copy (h : ReadyHeap s size (pre ++ k :: post)) (hk : k.allocated = true)
    (hp : s.opA .a0 = k.addr + s.cfg.hdr) (hcopy : mustCopy s.cfg.hdr (s.opA .a1) k post) :
    execRealloc s = reallocCopy s ((pre ++ k :: post).map Chunk.addr) k.addr (s.opA .a1) := by
  have hvalid := h.validPointer_iff.2 ⟨k, by simp, hk, hp⟩
  rw [execRealloc_ready h.ready, hvalid, hp, Nat.add_sub_cancel, reallocFitsInPlace_of_mustCopy h.holds hcopy]
  rfl

theorem execRealloc_no_room (h : ReadyHeap s size (pre ++ k :: post)) (hk : k.allocated = true)
    (hp : s.opA .a0 = k.addr + s.cfg.hdr) (hcopy : mustCopy s.cfg.hdr (s.opA .a1) k post)
    (hlist : allocList s.cfg.hdr (round8 (s.opA .a1)) (pre ++ k :: post) = none) :
    execRealloc s = .next (s.enterHalt causeOOM) := by
  rw [h.execRealloc_copy hk hp hcopy, reallocCopy, allocChunk_of_allocList_none h.heap hlist]

theorem execRealloc_odd (h : ReadyHeap s size (pre ++ k :: post)) (hk : k.allocated = true)
    (hp : s.opA .a0 = k.addr + s.cfg.hdr) (hcopy : mustCopy s.cfg.hdr (s.opA .a1) k post)
    (hlist : allocList s.cfg.hdr (round8 (s.opA .a1)) (pre ++ k :: post) = some (ks', d)) (hodd : min k.len (s.opA .a1) % 8 ≠ 0) :
    execRealloc s = .fault .copyGranularity := by
  obtain ⟨m, halloc, -⟩ := allocChunk_of_allocList h.ok h.hdr_mod h.heap hlist
  rw [h.execRealloc_copy hk hp hcopy, reallocCopy, halloc, h.holds.header.length]
  exact if_pos hodd

/-- The copy path with room and a good byte count: the list's allocation, then its freeing of the old chunk; the new payload holds
the bytes of the old one, and nothing else but headers is written. -/
theorem execRealloc_room (h : ReadyHeap s size (pre ++ k :: post)) (hk : k.allocated = true)
    (hp : s.opA .a0 = k.addr + s.cfg.hdr) (hcopy : mustCopy s.cfg.hdr (s.opA .a1) k post)
    (hlist : allocList s.cfg.hdr (round8 (s.opA .a1)) (pre ++ k :: post) = some (ks', d)) (hunit : min k.len (s.opA .a1) % 8 = 0) :
    ∃ m, execRealloc s = .next ((s.setMem m).setA .a0 (BitVec.ofNat 32 (d + s.cfg.hdr))) ∧
      ReadyHeap ((s.setMem m).setA .a0 (BitVec.ofNat 32 (d + s.cfg.hdr))) size (freeList s.cfg.hdr k.addr ks') ∧
      (∀ j < min k.len (s.opA .a1), m.read (d + s.cfg.hdr + j) = s.mem.read (k.addr + s.cfg.hdr + j)) ∧
      ∀ x, ¬inHeader s.cfg (ks'.map Chunk.addr) x → ¬inRange (d + s.cfg.hdr) (min k.len (s.opA .a1)) x → m.read x = s.mem.read x := by
  obtain ⟨m, halloc, hheap, honly⟩ := allocChunk_of_allocList h.ok h.hdr_mod h.heap hlist
  have hkOld : k ∈ pre ++ k :: post := by simp
  have hkNew : k ∈ ks' := allocated_mem_of_allocList hlist hkOld hk
  obtain ⟨len, hg, hlen⟩ := granted_mem_of_allocList hlist
  have hdk : d ≠ k.addr := addr_ne_of_allocList h.heap hlist hkOld hk
  have hround := le_round8 (s.opA .a1)
  obtain ⟨hcopied, hbytes, hrest⟩ := copyUnits_payload h.ok hheap hg hkNew hdk hunit (show _ ≤ len by omega) (Nat.min_le_left _ _)
  have hfreed := ((heapFrom_refl hcopied).freeChunk h.ok h.hdr_mod hkNew).heap
  have hfree := headersOnly_freeChunk h.ok ⟨hcopied.layout, hcopied.tiles⟩ hkNew
  refine ⟨_, ?_, h.next (sameHeapState_setA _ _ _) hfreed, fun j hj => ?_, fun x hheader hrange => ?_⟩
  · rw [h.execRealloc_copy hk hp hcopy, reallocCopy, halloc, h.holds.header.length]
    exact if_neg (not_not.2 hunit)
  · have hnew := payload_not_inHeader hheap.tiles hg (show j < len by omega)
    have hold := payload_not_inHeader hheap.tiles hkNew (show j < k.len by omega)
    exact (hfree _ hnew).trans ((hbytes j hj).trans (honly _ hold))
  · exact (hfree x hheader).trans ((hrest x hrange).trans (honly x hheader))

end ReadyHeap

/-- Settles O46: the merge and the cut are those of the list (`HeapFrom.reallocInPlace`). -/
theorem reallocInPlaceMergesAndSplits : Obligations.ReallocInPlaceMergesAndSplits := by
  intro s cs pre post k n hready hview hk hn hp hfits
  obtain ⟨size, rfl, h⟩ := readyHeap_of_heapView hready hview
  obtain ⟨m, hexec, hready', honly⟩ := h.execRealloc_inPlace hk hn hp hfits
  refine ⟨_, hexec, hready'.heapView, rfl, ?_⟩
  rw [hready'.heapChunks, Option.getD_some]
  exact honly

/-- Settles O47: allocation, copy and freeing, each on the heap the one before it leaves. -/
theorem reallocByCopyAllocatesCopiesAndFrees : Obligations.ReallocByCopyAllocatesCopiesAndFrees := by
  intro s cs pre post ks' k d hready hview hk hp hcopy hlist hunit
  obtain ⟨size, rfl, h⟩ := readyHeap_of_heapView hready hview
  obtain ⟨m, hexec, hready', hcontents, hframe⟩ := h.execRealloc_room hk hp hcopy hlist hunit
  exact ⟨_, hexec, hready'.heapView, rfl, hcontents, hframe⟩

/-- Settles O48: the inner ALLOC halts before the copy size is looked at. -/
theorem reallocHaltsWhenNothingFits : Obligations.ReallocHaltsWhenNothingFits := by
  intro s cs pre post k hready hview hk hp hcopy hlist
  obtain ⟨size, rfl, h⟩ := readyHeap_of_heapView hready hview
  exact ⟨_, h.execRealloc_no_room hk hp hcopy hlist, haltedFrom_enterHalt s⟩

/-- Settles O49: the inner ALLOC succeeds, and then the copy size is tested. -/
theorem reallocCopyOfOddSizeIsAViolation : Obligations.ReallocCopyOfOddSizeIsAViolation := by
  intro s cs pre post ks' k d hready hview hk hp hcopy hlist hodd
  obtain ⟨size, rfl, h⟩ := readyHeap_of_heapView hready hview
  exact h.execRealloc_odd hk hp hcopy hlist hodd

/-! ## Contents (40_heap.md R113, R114) -/

namespace ReadyHeap

variable {s t : State} {size : Nat} {ks pre post : List Chunk} {k : Chunk}

/-- What is granted to a request that is not empty has an address that fits a register (log entry 13). -/
theorem granted_toNat {ks' : List Chunk} {request d : Nat} (h : ReadyHeap s size ks)
    (hlist : allocList s.cfg.hdr (round8 request) ks = some (ks', d)) (hrequest : 0 < request) :
    (BitVec.ofNat 32 (d + s.cfg.hdr)).toNat = d + s.cfg.hdr := by
  obtain ⟨pre, k, post, rfl, -, -, hlen, -, rfl⟩ := allocList_eq_some_iff.1 hlist
  have hend := (tiles_mem h.heap.tiles (k := k) (by simp)).2
  have hfits := h.ok.fits
  have hround := le_round8 request
  rw [BitVec.toNat_ofNat]
  exact Nat.mod_eq_of_lt (by omega)

/-- REALLOC of a valid pointer in place keeps the bytes below the new size: the tail's header is after them (40_heap.md R111). -/
theorem contents_inPlace {n : Chunk} {j : Nat} (h : ReadyHeap s size (pre ++ k :: n :: post)) (hk : k.allocated = true)
    (hn : n.allocated = false) (hp : s.opA .a0 = k.addr + s.cfg.hdr) (hfits : s.opA .a1 ≤ k.len + s.cfg.hdr + n.len)
    (hexec : execRealloc s = .next t) (hj : j < s.opA .a1) : t.mem.read (t.opA .a0 + j) = s.mem.read (s.opA .a0 + j) := by
  obtain ⟨m, hexec', hready, honly⟩ := h.execRealloc_inPlace hk hn hp hfits
  obtain rfl := Host.Outcome.next.inj (hexec'.symm.trans hexec)
  have hsum : (k.len + s.cfg.hdr + n.len) % 8 = 0 := by
    have := h.heap.aligned k (by simp)
    have := h.heap.aligned n (by simp)
    have := h.hdr_mod
    omega
  obtain ⟨len, tail, -, hgrant, hle⟩ :=
    splitChunk_grantChunk s.cfg.hdr (round8 (s.opA .a1)) ⟨k.addr, k.len + s.cfg.hdr + n.len, true⟩
  have hlen : j < len := by
    have := hle ((round8_le_iff _ _ hsum).2 hfits)
    have := le_round8 (s.opA .a1)
    omega
  have hkept := honly _ (payload_not_inHeader (k := ⟨k.addr, len, true⟩) hready.heap.tiles (by simp [hgrant]) hlen)
  show m.read (s.opA .a0 + j) = _
  rw [hp]
  exact hkept

/-- REALLOC of a valid pointer by copy, when it completes, has copied the lesser of the two sizes (40_heap.md R112). -/
theorem contents_copy {j : Nat} (h : ReadyHeap s size (pre ++ k :: post)) (hk : k.allocated = true)
    (hp : s.opA .a0 = k.addr + s.cfg.hdr) (hcopy : mustCopy s.cfg.hdr (s.opA .a1) k post) (hexec : execRealloc s = .next t)
    (ht : t.halted = false) (hj : j < min k.len (s.opA .a1)) : t.mem.read (t.opA .a0 + j) = s.mem.read (s.opA .a0 + j) := by
  cases hlist : allocList s.cfg.hdr (round8 (s.opA .a1)) (pre ++ k :: post) with
  | none =>
    obtain rfl := Host.Outcome.next.inj ((h.execRealloc_no_room hk hp hcopy hlist).symm.trans hexec)
    exact absurd ((haltedFrom_enterHalt s).1.symm.trans ht) (by simp)
  | some r =>
    obtain ⟨ks', d⟩ := r
    by_cases hunit : min k.len (s.opA .a1) % 8 = 0
    case neg => cases (h.execRealloc_odd hk hp hcopy hlist hunit).symm.trans hexec
    case pos =>
      obtain ⟨m, hexec', -, hcontents, -⟩ := h.execRealloc_room hk hp hcopy hlist hunit
      obtain rfl := Host.Outcome.next.inj (hexec'.symm.trans hexec)
      show m.read ((BitVec.ofNat 32 (d + s.cfg.hdr)).toNat + j) = _
      rw [h.granted_toNat hlist (by omega), hp]
      exact hcontents j hj

end ReadyHeap

/-- Settles O51: the pointer is an allocated chunk's, and each of the two paths keeps the bytes. -/
theorem reallocPreservesContents : Obligations.ReallocPreservesContents := by
  intro s t cs hready hexec ht j hj
  obtain ⟨size, ks, rfl, h⟩ := readyHeap_of_heapReady hready
  obtain ⟨k, hmem, hk, hp⟩ := h.execRealloc_valid hexec
  obtain ⟨pre, post, rfl⟩ := List.append_of_mem hmem
  rw [hp, Nat.add_sub_cancel, h.holds.header.length] at hj
  obtain ⟨n, post, rfl, hn, hfits⟩ | hcopy := inPlace_or_mustCopy s.cfg.hdr (s.opA .a1) k post
  · exact h.contents_inPlace hk hn hp hfits hexec (by omega)
  · exact h.contents_copy hk hp hcopy hexec ht hj

end Sys2Proof.Proofs
end

section
/-! PROOFS. MUL: what it answers in each case of its preconditions, and the bytes it stores (41_widemul.md R131). -/

namespace Sys2Proof.Proofs

open Sys2Proof Sys2Proof.Machine Sys2Proof.Laws

/-! ## Numbers as limbs and as bytes (10_state.md R38, 20_memory.md R52) -/

theorem leBytes_mod (n v : Nat) : leBytes n (v % 256 ^ n) = leBytes n v := by
  have h := leBytes_leNat (leBytes n v)
  rwa [length_leBytes, leNat_leBytes] at h

theorem leBytes_add (n k v : Nat) : leBytes (n + k) v = leBytes n v ++ leBytes k (v / 256 ^ n) := by
  induction n generalizing v with
  | zero => simp [leBytes]
  | succ n ih => rw [Nat.succ_add, leBytes, ih, leBytes, Nat.div_div_eq_div_mul, Nat.pow_succ', List.cons_append]

/-- The low limbs of a number, as bytes, are its low bytes. -/
theorem limbsBytes_valueLimbs (n v : Nat) : limbsBytes (valueLimbs n v) = leBytes (4 * n) v := by
  induction n generalizing v with
  | zero => rfl
  | succ n ih =>
    have hlimb : leBytes 4 (v % 4294967296) = leBytes 4 v := leBytes_mod 4 v
    rw [valueLimbs, limbsBytes, ih, hlimb, Nat.mul_succ, Nat.add_comm (4 * n) 4, leBytes_add, show 256 ^ 4 = 4294967296 from rfl]

/-- The low limbs of a number depend on it modulo `2^(32n)` alone. -/
theorem valueLimbs_mod (n v : Nat) : valueLimbs n (v % 2 ^ (32 * n)) = valueLimbs n v := by
  rw [Nat.pow_mul, show 2 ^ 32 = 4294967296 from rfl]
  induction n generalizing v with
  | zero => rfl
  | succ n ih => rw [valueLimbs, Nat.pow_succ', Nat.mod_mul_right_mod, Nat.mod_mul_right_div_self, ih, valueLimbs]

/-- The bytes MUL stores: the low `4n` bytes of the product of the two operands in memory. -/
theorem limbsBytes_mulLimbs_readLimbs (m : Memory) (a b n : Nat) :
    limbsBytes (mulLimbs n (readLimbs m a n) (readLimbs m b n)) = leBytes (4 * n) (memRead m a (4 * n) * memRead m b (4 * n)) := by
  rw [mulLimbs, valueLimbs_mod, limbsBytes_valueLimbs, limbsValue_readLimbs, limbsValue_readLimbs]

/-! ## What MUL answers (41_widemul.md R131) -/

theorem rangesOverlap_iff (a n b k : Nat) : rangesOverlap a n b k = true ↔ ∃ x, inRange a n x ∧ inRange b k x := by
  rw [← not_iff_not, Bool.not_eq_true, rangesOverlap_eq_false_iff, not_exists]

/-- MUL's test of its buffers: an output byte is an input byte. -/
theorem rangesOverlap_or_iff (out left right n : Nat) :
    (rangesOverlap out n left n || rangesOverlap out n right n) = true ↔
      ∃ x, inRange out n x ∧ (inRange left n x ∨ inRange right n x) := by
  rw [Bool.or_eq_true, rangesOverlap_iff, rangesOverlap_iff, ← exists_or]
  simp only [and_or_left]

section
variable {s : State}

theorem execMul_noLimbs (hn : s.opA .a3 = 0) : execMul s = .fault .badLimbCount := if_pos hn

theorem execMul_unbacked (hn : 1 ≤ s.opA .a3)
    (hb : ∃ r ∈ [AReg.a0, .a1, .a2], backed s.cfg (s.opA r) (4 * s.opA .a3) = false) : execMul s = .fault .unbackedAccess := by
  unfold execMul
  rw [if_neg (by omega), if_pos]
  simpa [or_assoc] using hb

theorem execMul_overlapping (hn : 1 ≤ s.opA .a3)
    (hb : ∀ r ∈ [AReg.a0, .a1, .a2], backed s.cfg (s.opA r) (4 * s.opA .a3) = true)
    (hx : ∃ x, inRange (s.opA .a2) (4 * s.opA .a3) x ∧
      (inRange (s.opA .a0) (4 * s.opA .a3) x ∨ inRange (s.opA .a1) (4 * s.opA .a3) x)) :
    execMul s = .fault .overlappingBuffers := by
  unfold execMul
  rw [if_neg (by omega), hb .a0 (by simp), hb .a1 (by simp), hb .a2 (by simp)]
  exact if_pos ((rangesOverlap_or_iff _ _ _ _).2 hx)

theorem execMul_completes (hn : 1 ≤ s.opA .a3)
    (hb : ∀ r ∈ [AReg.a0, .a1, .a2], backed s.cfg (s.opA r) (4 * s.opA .a3) = true)
    (hx : ¬∃ x, inRange (s.opA .a2) (4 * s.opA .a3) x ∧
      (inRange (s.opA .a0) (4 * s.opA .a3) x ∨ inRange (s.opA .a1) (4 * s.opA .a3) x)) :
    execMul s = .next (s.storeBytes (s.opA .a2) (leBytes (4 * s.opA .a3)
      (memRead s.mem (s.opA .a0) (4 * s.opA .a3) * memRead s.mem (s.opA .a1) (4 * s.opA .a3)))) := by
  unfold execMul
  rw [if_neg (by omega), hb .a0 (by simp), hb .a1 (by simp), hb .a2 (by simp), ← limbsBytes_mulLimbs_readLimbs]
  exact if_neg (mt (rangesOverlap_or_iff _ _ _ _).1 hx)

end

/-- Settles O20: MUL writes the low `4N` bytes of the product at `a2` (`execMul_completes`), and they are there to be read. -/
theorem mulStoresTheTruncatedProduct : Obligations.MulStoresTheTruncatedProduct := by
  intro s hn h0 h1 h2 hdisj
  refine ⟨_, execMul_completes hn (by simp [h0, h1, h2]) ?_, ?_, ?_⟩
  · rintro ⟨x, hout, hin⟩
    exact hin.elim (hdisj x hout).1 (hdisj x hout).2
  · rw [storeBytes_mem, ← memWrite, memRead_memWrite_same, Nat.pow_mul, Nat.pow_mul, show 256 ^ 4 = 2 ^ 32 from rfl]
  · simpa only [length_leBytes] using storedAt_storeBytes s (s.opA .a2) (leBytes (4 * s.opA .a3) _)

/-- Settles O21: MUL tests the limb count, then the three ranges, then the overlaps. -/
theorem mulPreconditionsAreViolations : Obligations.MulPreconditionsAreViolations := by
  refine fun s => ⟨execMul_noLimbs, fun hn => ⟨fun ⟨r, hr, hpast⟩ => ?_, execMul_overlapping hn⟩⟩
  have hunbacked : backed s.cfg (s.opA r) (4 * s.opA .a3) = false := by
    rw [← Bool.not_eq_true, backed_eq_true_iff]
    omega
  exact execMul_unbacked hn ⟨r, hr, hunbacked⟩

end Sys2Proof.Proofs
end

section
/-! PROOFS. The schoolbook datapath computes the truncated product: trimming changes nothing, accumulator and side carry hold the
exact column sum, and the columns add up to the product (41_widemul.md R132, R133). -/

namespace Sys2Proof.Proofs

open Sys2Proof Sys2Proof.Machine Sys2Proof.Laws

/-! ## Trimming changes nothing (41_widemul.md R133) -/

theorem trimmedLength_append_singleton (ls : List Nat) (x : Nat) :
    trimmedLength (ls ++ [x]) = if x = 0 then trimmedLength ls else ls.length + 1 := by
  by_cases h : x = 0 <;> simp [trimmedLength, h]

/-- Every limb past the trimmed length is 0. -/
theorem getD_eq_zero_of_trimmedLength_le (ls : List Nat) (k : Nat) (h : trimmedLength ls ≤ k) : ls.getD k 0 = 0 := by
  induction ls using List.reverseRecOn with
  | nil => rfl
  | append_singleton ls x ih =>
    rw [trimmedLength_append_singleton] at h
    split at h
    next hx =>
      subst hx
      obtain hk | hk := lt_or_ge k ls.length
      · rw [List.getD_append _ _ _ _ hk, ih h]
      · rw [List.getD_append_right _ _ _ _ hk]
        cases k - ls.length <;> rfl
    · exact List.getD_eq_default _ _ (by simpa using h)

/-- One partial product of R132: added to the accumulator, an overflow worth `2^32` of side carry. -/
def accumulate (acc : DWord × DWord) (p : Nat) : DWord × DWord :=
  ((add64 acc.1 (BitVec.ofNat 64 p)).1, if (add64 acc.1 (BitVec.ofNat 64 p)).2 then acc.2 + 4294967296#64 else acc.2)

theorem accumulate_zero (acc : DWord × DWord) : accumulate acc 0 = acc := by
  have h : ¬18446744073709551616 ≤ acc.1.toNat := by
    have := acc.1.isLt
    omega
  simp [accumulate, add64, h]

/-- The pairs that trimming leaves out have the product 0, so a column may run over all of them. -/
theorem mulColumn_succ (left right : List Nat) (l : Nat) (val : DWord) (k : Nat) :
    mulColumn left right l val (k + 1) =
      accumulate (mulColumn left right l val k) (left.getD k 0 * right.getD (l - k) 0) := by
  rw [mulColumn]
  split
  · rfl
  next h =>
    have hzero : left.getD k 0 * right.getD (l - k) 0 = 0 := by
      obtain hk | hk := Nat.lt_or_ge k (trimmedLength left)
      · rw [getD_eq_zero_of_trimmedLength_le right (l - k) (by omega), Nat.mul_zero]
      · rw [getD_eq_zero_of_trimmedLength_le left k hk, Nat.zero_mul]
    rw [hzero, accumulate_zero]

/-! ## Accumulator and side carry hold the exact column sum (41_widemul.md R132) -/

/-- Accumulator and side carry together hold `sum`. -/
def HoldsSum (acc : DWord × DWord) (sum : Nat) : Prop :=
  acc.1.toNat = sum % 18446744073709551616 ∧ acc.2.toNat = 4294967296 * (sum / 18446744073709551616)

theorem holdsSum_initial (val : DWord) : HoldsSum (val, 0#64) val.toNat := by
  have := val.isLt
  simp only [HoldsSum, BitVec.toNat_zero]
  omega

theorem holdsSum_accumulate {acc : DWord × DWord} {sum p : Nat} (h : HoldsSum acc sum) (hp : p < 2 ^ 64)
    (hsum : sum + p < 2 ^ 96) : HoldsSum (accumulate acc p) (sum + p) := by
  obtain ⟨hval, hcarry⟩ := h
  have hpn : (BitVec.ofNat 64 p).toNat = p := by rw [BitVec.toNat_ofNat, Nat.mod_eq_of_lt hp]
  simp only [HoldsSum, accumulate, add64, BitVec.toNat_add, hpn, decide_eq_true_eq]
  refine ⟨by omega, ?_⟩
  split
  · rw [BitVec.toNat_add, BitVec.toNat_ofNat]
    omega
  · omega

/-- What R132 passes on to the next column: `floor(sum / 2^32)`. -/
theorem toNat_carryOut {acc : DWord × DWord} {sum : Nat} (h : HoldsSum acc sum) (hsum : sum < 2 ^ 96) :
    ((acc.1 >>> 32) + acc.2).toNat = sum / 4294967296 := by
  obtain ⟨hval, hcarry⟩ := h
  rw [BitVec.toNat_add, BitVec.toNat_ushiftRight, Nat.shiftRight_eq_div_pow, hval, hcarry]
  omega

/-- The sum of the partial products `i + j = l` with `i < k`. -/
def columnSum (left right : List Nat) (l k : Nat) : Nat := ∑ i ∈ Finset.range k, left.getD i 0 * right.getD (l - i) 0

theorem columnSum_succ (left right : List Nat) (l k : Nat) :
    columnSum left right l (k + 1) = columnSum left right l k + left.getD k 0 * right.getD (l - k) 0 :=
  Finset.sum_range_succ _ _

theorem getD_lt_of_forall_lt {ls : List Nat} {b : Nat} (hb : 0 < b) (h : ∀ x ∈ ls, x < b) (i : Nat) : ls.getD i 0 < b := by
  obtain hi | hi := Nat.lt_or_ge i ls.length
  · rw [List.getD_eq_getElem _ _ hi]
    exact h _ (List.getElem_mem hi)
  · rwa [List.getD_eq_default _ _ hi]

section
variable {left right : List Nat} (hleft : ∀ x ∈ left, x < 2 ^ 32) (hright : ∀ x ∈ right, x < 2 ^ 32)
include hleft hright

theorem partialProduct_lt (i j : Nat) : left.getD i 0 * right.getD j 0 < 2 ^ 32 * 2 ^ 32 :=
  Nat.mul_lt_mul'' (getD_lt_of_forall_lt (by decide) hleft i) (getD_lt_of_forall_lt (by decide) hright j)

theorem columnSum_le (l k : Nat) : columnSum left right l k ≤ k * (2 ^ 32 * 2 ^ 32) :=
  (Finset.sum_le_card_nsmul _ _ _ fun i _ => (partialProduct_lt hleft hright i (l - i)).le).trans_eq <| by
    rw [Finset.card_range, smul_eq_mul]

/-- A column of at most `2^30` partial products never overflows accumulator and side carry. -/
theorem columnTotal_lt (val : DWord) {k : Nat} (hk : k ≤ 2 ^ 30) (l : Nat) : val.toNat + columnSum left right l k < 2 ^ 96 := by
  have := val.isLt
  have := columnSum_le hleft hright l k
  omega

theorem mulColumn_holdsSum (l : Nat) (val : DWord) {k : Nat} (hk : k ≤ 2 ^ 30) :
    HoldsSum (mulColumn left right l val k) (val.toNat + columnSum left right l k) := by
  induction k with
  | zero => exact holdsSum_initial val
  | succ k ih =>
    have htotal := columnTotal_lt hleft hright val hk l
    rw [columnSum_succ, ← Nat.add_assoc] at htotal ⊢
    rw [mulColumn_succ]
    exact holdsSum_accumulate (ih (by omega)) (partialProduct_lt hleft hright k (l - k)) htotal

/-- The columns of the datapath are the low limbs of the weighted sum of the column sums and what the first is entered with. -/
theorem mulColumns_eq_valueLimbs (count l : Nat) (val : DWord) (h : l + count ≤ 2 ^ 30) :
    mulColumns left right count l val =
      valueLimbs count (val.toNat + ∑ j ∈ Finset.range count, 4294967296 ^ j * columnSum left right (l + j) (l + j + 1)) := by
  induction count generalizing l val with
  | zero => rfl
  | succ count ih =>
    have hcolumn := mulColumn_holdsSum hleft hright l val (k := l + 1) (by omega)
    have hnext := toNat_carryOut hcolumn (columnTotal_lt hleft hright val (by omega) l)
    have hshift : ∑ j ∈ Finset.range (count + 1), 4294967296 ^ j * columnSum left right (l + j) (l + j + 1) =
        4294967296 * ∑ j ∈ Finset.range count, 4294967296 ^ j * columnSum left right (l + 1 + j) (l + 1 + j + 1) +
          columnSum left right l (l + 1) := by
      rw [Finset.sum_range_succ', Finset.mul_sum, pow_zero, one_mul, Nat.add_zero]
      simp only [Nat.pow_succ', Nat.mul_assoc, Nat.add_assoc, Nat.add_comm 1]
    rw [mulColumns, ih _ _ (by omega), hnext, hcolumn.1, valueLimbs, hshift]
    congr 1
    · omega
    · congr 1
      omega

end

/-! ## The columns add up to the product -/

theorem sum_getD_modEq_limbsValue (n : Nat) (ls : List Nat) :
    ∑ j ∈ Finset.range n, 4294967296 ^ j * ls.getD j 0 ≡ limbsValue ls [MOD 4294967296 ^ n] := by
  induction n generalizing ls with
  | zero => exact Nat.modEq_one
  | succ n ih =>
    cases ls with
    | nil => simp [limbsValue, Nat.ModEq.refl]
    | cons x xs =>
      rw [Finset.sum_range_succ', limbsValue, Nat.add_comm x]
      simp only [List.getD_cons_succ, List.getD_cons_zero, Nat.pow_succ', Nat.mul_assoc, ← Finset.mul_sum, pow_zero, one_mul]
      exact ((ih xs).mul_left' _).add_right x

theorem columnSum_cons_zero (x : Nat) (left right : List Nat) : columnSum (x :: left) right 0 1 = x * right.getD 0 0 := by
  simp [columnSum]

theorem columnSum_cons_succ (x : Nat) (left right : List Nat) (l : Nat) :
    columnSum (x :: left) right (l + 1) (l + 2) = columnSum left right l (l + 1) + x * right.getD (l + 1) 0 := by
  simp [columnSum, Finset.sum_range_succ' _ (l + 1)]

/-- Cauchy's product of the two operands, modulo the columns left out. -/
theorem sum_columnSum_modEq (n : Nat) (left right : List Nat) :
    ∑ l ∈ Finset.range n, 4294967296 ^ l * columnSum left right l (l + 1) ≡
      limbsValue left * limbsValue right [MOD 4294967296 ^ n] := by
  induction left generalizing n with
  | nil => simp [columnSum, limbsValue, Nat.ModEq.refl]
  | cons x xs ih =>
    cases n with
    | zero => exact Nat.modEq_one
    | succ n =>
      have htail := (ih n).mul_left' 4294967296
      rw [← Nat.pow_succ'] at htail
      calc ∑ l ∈ Finset.range (n + 1), 4294967296 ^ l * columnSum (x :: xs) right l (l + 1)
        _ = 4294967296 * ∑ l ∈ Finset.range n, 4294967296 ^ l * columnSum xs right l (l + 1) +
              x * ∑ l ∈ Finset.range (n + 1), 4294967296 ^ l * right.getD l 0 := by
          simp only [Finset.sum_range_succ', Finset.mul_sum, columnSum_cons_succ, columnSum_cons_zero, Nat.zero_add, mul_add,
            Finset.sum_add_distrib]
          ring_nf
        _ ≡ 4294967296 * (limbsValue xs * limbsValue right) + x * limbsValue right [MOD 4294967296 ^ (n + 1)] :=
          htail.add ((sum_getD_modEq_limbsValue (n + 1) right).mul_left x)
        _ = limbsValue (x :: xs) * limbsValue right := by rw [limbsValue]; ring

/-- Settles O22: the datapath gives the low limbs of the sum of its columns (`mulColumns_eq_valueLimbs`), and that sum is the
product modulo `2^(32N)` (`sum_columnSum_modEq`). -/
theorem mulDatapathComputesTheTruncatedProduct : Obligations.MulDatapathComputesTheTruncatedProduct := by
  intro n left right hn _ _ hleft hright
  have hproduct := sum_columnSum_modEq n left right
  rw [show 4294967296 = 2 ^ 32 from rfl, ← Nat.pow_mul] at hproduct
  rw [mulDatapath, mulColumns_eq_valueLimbs hleft hright n 0 0#64 (by omega), mulLimbs, ← valueLimbs_mod]
  simp only [BitVec.toNat_zero, Nat.zero_add]
  exact congrArg (valueLimbs n) hproduct

end Sys2Proof.Proofs
end

section
/-! PROOFS. SHL and SHR: the three branches of each (42_wideshift.md R141 to R143) are one shift of the 128 bits `hi ++ lo`, and so
multiply and divide by a power of two. -/

namespace Sys2Proof.Proofs

open Sys2Proof Sys2Proof.Machine Sys2Proof.Laws

/-! ## The 128-bit value (10_state.md R21) -/

/-- The 128 bits held by a `(w0, w1)` pair. -/
def wideBits (v : DWord × DWord) : BitVec 128 := v.2 ++ v.1

theorem toNat_wideBits (v : DWord × DWord) : (wideBits v).toNat = v.2.toNat * 2 ^ 64 + v.1.toNat := by
  rw [wideBits, BitVec.toNat_append, ← Nat.shiftLeft_add_eq_or_of_lt v.1.isLt, Nat.shiftLeft_eq]

theorem wide_eq_toNat_wideBits (s : State) : s.wide = (wideBits (s.w0.value, s.w1.value)).toNat := by
  rw [toNat_wideBits, State.wide]

theorem wide_lt (s : State) : s.wide < 2 ^ 128 := by
  rw [wide_eq_toNat_wideBits]
  exact BitVec.isLt _

theorem wide_setWide (s : State) (v : DWord × DWord) : (s.setWide v).wide = (wideBits v).toNat := by
  rw [wide_eq_toNat_wideBits, setWide_w0, setWide_w1]

@[simp] theorem opA_setWide (s : State) (v : DWord × DWord) (r : AReg) : (s.setWide v).opA r = s.opA r := by
  cases r <;> rfl

/-! ## Each shift, bit by bit, in its three branches (42_wideshift.md R143) -/

theorem wideBits_shiftLeft128 (lo hi : DWord) (r : Nat) :
    wideBits (shiftLeft128 lo hi r) = wideBits (lo, hi) <<< r := by
  unfold shiftLeft128 wideBits
  split
  case isTrue hzero => rw [hzero, BitVec.shiftLeft_zero]
  case isFalse =>
    split
    case isTrue hlarge =>
      obtain ⟨k, rfl⟩ := Nat.exists_eq_add_of_le hlarge
      ext i hlt
      simp only [Nat.add_sub_cancel_left, BitVec.getElem_append, BitVec.getElem_shiftLeft, BitVec.getElem_zero, ← Nat.sub_sub]
      grind
    case isFalse hsmall =>
      ext i hlt
      simp only [BitVec.getElem_append, BitVec.getElem_shiftLeft, BitVec.getElem_or, BitVec.getElem_ushiftRight]
      grind

theorem wideBits_shiftRight128 (lo hi : DWord) (r : Nat) :
    wideBits (shiftRight128 lo hi r) = wideBits (lo, hi) >>> r := by
  unfold shiftRight128 wideBits
  split
  case isTrue hzero => rw [hzero, BitVec.ushiftRight_zero]
  case isFalse =>
    split
    case isTrue hlarge =>
      ext i hlt
      simp only [BitVec.getElem_append, BitVec.getElem_ushiftRight, BitVec.getElem_zero, BitVec.getLsbD_append]
      grind
    case isFalse hsmall =>
      ext i hlt
      simp only [BitVec.getElem_append, BitVec.getElem_shiftLeft, BitVec.getElem_or, BitVec.getElem_ushiftRight,
        BitVec.getLsbD_append]
      grind

/-! ## What each command answers (42_wideshift.md R140 to R142) -/

section
variable {s t : State}

/-- A shift completes exactly when the amount is in its range (42_wideshift.md R140). -/
theorem shiftAmountCheck_eq_next_iff {r : Nat} {v : State} :
    (if 128 ≤ r then .fault .badShiftAmount else .next v : Result) = .next t ↔ r ≤ 127 ∧ t = v := by
  split
  case isTrue hover => simp [show ¬r ≤ 127 by omega]
  case isFalse hover => simp [show r ≤ 127 by omega, eq_comm]

theorem exec_shl_eq_next_iff : exec .shl s = .next t ↔
    s.opA .a0 ≤ 127 ∧ t = s.setWide (shiftLeft128 s.w0.value s.w1.value (s.opA .a0)) :=
  shiftAmountCheck_eq_next_iff

theorem exec_shr_eq_next_iff : exec .shr s = .next t ↔
    s.opA .a0 ≤ 127 ∧ t = s.setWide (shiftRight128 s.w0.value s.w1.value (s.opA .a0)) :=
  shiftAmountCheck_eq_next_iff

theorem wide_of_exec_shl (h : exec .shl s = .next t) : t.wide = s.wide * 2 ^ s.opA .a0 % 2 ^ 128 := by
  obtain ⟨-, rfl⟩ := exec_shl_eq_next_iff.1 h
  rw [wide_setWide, wideBits_shiftLeft128, BitVec.toNat_shiftLeft, Nat.shiftLeft_eq, wide_eq_toNat_wideBits]

theorem wide_of_exec_shr (h : exec .shr s = .next t) : t.wide = s.wide / 2 ^ s.opA .a0 := by
  obtain ⟨-, rfl⟩ := exec_shr_eq_next_iff.1 h
  rw [wide_setWide, wideBits_shiftRight128, BitVec.toNat_ushiftRight, Nat.shiftRight_eq_div_pow, wide_eq_toNat_wideBits]

end

/-- Settles O16: SHL answers its shift of the pair, whose 128 bits are the old ones shifted left (`wideBits_shiftLeft128`). -/
theorem shlMultipliesByAPowerOfTwo : Obligations.ShlMultipliesByAPowerOfTwo := by
  intro s hr
  have hnext := exec_shl_eq_next_iff.2 ⟨hr, rfl⟩
  exact ⟨_, hnext, wide_of_exec_shl hnext, rfl⟩

/-- Settles O17: SHR answers its shift of the pair, whose 128 bits are the old ones shifted right (`wideBits_shiftRight128`). -/
theorem shrDividesByAPowerOfTwo : Obligations.ShrDividesByAPowerOfTwo := by
  intro s hr
  have hnext := exec_shr_eq_next_iff.2 ⟨hr, rfl⟩
  exact ⟨_, hnext, wide_of_exec_shr hnext, rfl⟩

/-- Settles O18: both shifts test the amount first. -/
theorem shiftAmountOver127IsAViolation : Obligations.ShiftAmountOver127IsAViolation :=
  fun _ hr => ⟨if_pos hr, if_pos hr⟩

/-! ## There and back (42_wideshift.md R144) -/

/-- Multiplying the quotient back cannot overflow, so only the remainder is lost. -/
theorem div_mul_pow_mod {x w : Nat} (r : Nat) (hx : x < 2 ^ w) : x / 2 ^ r * 2 ^ r % 2 ^ w = x - x % 2 ^ r := by
  rw [Nat.div_mul_self_eq_mod_sub_self, Nat.mod_eq_of_lt (Nat.lt_of_le_of_lt (Nat.sub_le _ _) hx)]

/-- The bits that the multiplication pushed past the top are gone. -/
theorem mul_pow_mod_div {r w : Nat} (x : Nat) (hr : r ≤ w) : x * 2 ^ r % 2 ^ w / 2 ^ r = x % 2 ^ (w - r) := by
  rw [← Nat.pow_sub_mul_pow 2 hr, Nat.mul_mod_mul_right, Nat.mul_div_cancel _ (Nat.two_pow_pos r)]

/-- Settles O19: the first shift leaves the amount alone, so the two values compose (`div_mul_pow_mod`, `mul_pow_mod_div`). -/
theorem shiftingThereAndBackClearsBits : Obligations.ShiftingThereAndBackClearsBits := by
  refine fun s t u => ⟨fun hshr hshl => ?_, fun hshl hshr => ?_⟩
  · obtain ⟨-, ht⟩ := exec_shr_eq_next_iff.1 hshr
    have hsame : t.opA .a0 = s.opA .a0 := ht ▸ opA_setWide _ _ _
    rw [wide_of_exec_shl hshl, hsame, wide_of_exec_shr hshr, div_mul_pow_mod _ (wide_lt s)]
  · obtain ⟨hr, ht⟩ := exec_shl_eq_next_iff.1 hshl
    have hsame : t.opA .a0 = s.opA .a0 := ht ▸ opA_setWide _ _ _
    rw [wide_of_exec_shr hshr, hsame, wide_of_exec_shl hshl, mul_pow_mod_div _ (by omega)]

end Sys2Proof.Proofs
end

section
/-! PROOFS. The four converters are one reversal: the bytes a converter reads (`converterReads`) end up, in reverse, at the end of the
range it writes (`converterWrites`), with zeros before them. Each command's byte map and the round trips follow (43_endian.md R150 to R156). -/

namespace Sys2Proof.Proofs

open Sys2Proof Sys2Proof.Machine Sys2Proof.Laws

/-! ## The violations of a conversion (43_endian.md R150) -/

section
variable {s : State} {n src dst : Nat} {fill : List Byte}

theorem convert_badLength (hn : n = 0 ∨ 32 < n) : convert s n src dst fill = .fault .badLength := if_pos hn

theorem convert_unbacked (hpos : 1 ≤ n) (hn : n ≤ 32)
    (hb : backed s.cfg src n = false ∨ backed s.cfg dst (fill.length + n) = false) :
    convert s n src dst fill = .fault .unbackedAccess := by
  unfold convert
  rw [if_neg (by omega), if_pos]
  rwa [Bool.not_eq_true', Bool.and_eq_false_iff]

theorem convert_overlapping (hpos : 1 ≤ n) (hn : n ≤ 32) (hr : backed s.cfg src n = true)
    (hw : backed s.cfg dst (fill.length + n) = true) (hx : ∃ x, inRange src n x ∧ inRange dst (fill.length + n) x) :
    convert s n src dst fill = .fault .overlappingBuffers := by
  unfold convert
  rw [if_neg (by omega), hr, hw]
  exact if_pos ((rangesOverlap_iff _ _ _ _).2 hx)

/-- Past length 32 a conversion stops before it looks at its addresses. -/
theorem convert_congr {src' dst' : Nat} {fill' : List Byte} (hsrc : n ≤ 32 → src = src') (hdst : n ≤ 32 → dst = dst')
    (hfill : fill = fill') : convert s n src dst fill = convert s n src' dst' fill' := by
  rcases Nat.lt_or_ge 32 n with hn | hn
  · rw [convert_badLength (.inr hn), convert_badLength (.inr hn)]
  · rw [hsrc hn, hdst hn, hfill]

end

/-! ## What a converter reads and writes (43_endian.md R151 to R154) -/

theorem mem_converters {i : Instr} : i ∈ converters ↔ i = .be32tolen ∨ i = .bentolen ∨ i = .lentobe32 ∨ i = .lentoben := by
  simp [converters]

section
variable {s t : State} {i : Instr}

theorem converterWrites_of_fill (hfill : s.cfg.be32Fill = true) : converterWrites s .lentobe32 = (s.opA .a1, 32) := if_pos hfill

theorem converterWrites_of_noFill (hfill : s.cfg.be32Fill = false) :
    converterWrites s .lentobe32 = (s.opA .a1 + 32 - s.opA .a2, s.opA .a2) := if_neg (by rw [hfill]; decide)

/-- With `BE32_FILL` or without, LENTOBE32 writes up to the end of the 32-byte buffer. -/
theorem converterWrites_lentobe32_end (hn : s.opA .a2 ≤ 32) :
    (converterWrites s .lentobe32).1 + (converterWrites s .lentobe32).2 = s.opA .a1 + 32 := by
  cases hfill : s.cfg.be32Fill with
  | true => rw [converterWrites_of_fill hfill]
  | false => rw [converterWrites_of_noFill hfill]; omega

theorem converterReads_snd (hi : i ∈ converters) : (converterReads s i).2 = s.opA .a2 := by
  obtain rfl | rfl | rfl | rfl := mem_converters.1 hi <;> rfl

theorem length_le_converterWrites_snd (hi : i ∈ converters) (hn : s.opA .a2 ≤ 32) : s.opA .a2 ≤ (converterWrites s i).2 := by
  obtain rfl | rfl | rfl | rfl := mem_converters.1 hi
  · exact Nat.le_refl _
  · exact Nat.le_refl _
  · cases hfill : s.cfg.be32Fill with
    | true => rwa [converterWrites_of_fill hfill]
    | false => rw [converterWrites_of_noFill hfill]
  · exact Nat.le_refl _

/-- The zeros a converter puts before the reversed bytes: as many as it writes beyond `length` bytes. -/
def converterFill (s : State) (i : Instr) : List Byte := List.replicate ((converterWrites s i).2 - s.opA .a2) 0#8

theorem length_converterFill_add (hi : i ∈ converters) (hn : s.opA .a2 ≤ 32) :
    (converterFill s i).length + s.opA .a2 = (converterWrites s i).2 := by
  rw [converterFill, List.length_replicate, Nat.sub_add_cancel (length_le_converterWrites_snd hi hn)]

theorem converterFill_eq_nil (h : (converterWrites s i).2 = s.opA .a2) : converterFill s i = [] := by
  rw [converterFill, h, Nat.sub_self, List.replicate_zero]

/-! ## What a converter answers -/

/-- Every converter is the conversion from the bytes it reads to the bytes it writes. -/
theorem exec_eq_convert (hi : i ∈ converters) :
    exec i s = convert s (s.opA .a2) (converterReads s i).1 (converterWrites s i).1 (converterFill s i) := by
  obtain rfl | rfl | rfl | rfl := mem_converters.1 hi
  · exact convert_congr (fun hn => (Nat.add_sub_assoc hn _).symm) (fun _ => rfl) (converterFill_eq_nil rfl).symm
  · exact convert_congr (fun _ => rfl) (fun _ => rfl) (converterFill_eq_nil rfl).symm
  · cases hfill : s.cfg.be32Fill with
    | true =>
      rw [converterFill, converterWrites_of_fill hfill]
      exact if_pos hfill
    | false =>
      rw [converterFill_eq_nil (by rw [converterWrites_of_noFill hfill]), converterWrites_of_noFill hfill]
      exact (if_neg (by rw [hfill]; decide)).trans (convert_congr (fun _ => rfl) (fun hn => (Nat.add_sub_assoc hn _).symm) rfl)
  · exact convert_congr (fun _ => rfl) (fun _ => rfl) (converterFill_eq_nil rfl).symm

theorem exec_converter_next (hi : i ∈ converters) (h : exec i s = .next t) :
    s.opA .a2 ≤ 32 ∧ t = s.storeBytes (converterWrites s i).1
      (converterFill s i ++ (s.mem.readBytes (converterReads s i).1 (s.opA .a2)).reverse) := by
  obtain ⟨-, hn, -, -, -, ht⟩ := convert_next ((exec_eq_convert hi).symm.trans h)
  exact ⟨hn, ht⟩

theorem storedAt_of_exec_converter (hi : i ∈ converters) (h : exec i s = .next t) :
    s.StoredAt t (converterWrites s i).1 (converterWrites s i).2 := by
  obtain ⟨hn, rfl⟩ := exec_converter_next hi h
  have hstored := storedAt_storeBytes s (converterWrites s i).1
    (converterFill s i ++ (s.mem.readBytes (converterReads s i).1 (s.opA .a2)).reverse)
  rwa [List.length_append, List.length_reverse, length_readBytes, length_converterFill_add hi hn] at hstored

/-- A converter whose length is legal and whose ranges are backed and disjoint completes, and writes its range alone. -/
theorem exec_converter_completes (hi : i ∈ converters) {out count : Nat} (hout : converterWrites s i = (out, count))
    (hpos : 1 ≤ s.opA .a2) (hn : s.opA .a2 ≤ 32) (hr : backed s.cfg (converterReads s i).1 (s.opA .a2) = true)
    (hw : backed s.cfg out count = true) (hx : ∀ x, inRange (converterReads s i).1 (s.opA .a2) x → ¬inRange out count x) :
    ∃ t, exec i s = .next t ∧ s.StoredAt t out count := by
  obtain ⟨rfl, rfl⟩ := Prod.ext_iff.1 hout
  have hlen := length_converterFill_add hi hn
  have hnext := (exec_eq_convert hi).trans (convert_ready hpos hn hr (hlen ▸ hw) (hlen ▸ hx))
  exact ⟨_, hnext, storedAt_of_exec_converter hi hnext⟩

theorem opA_of_exec_converter (hi : i ∈ converters) (h : exec i s = .next t) (r : AReg) : t.opA r = s.opA r := by
  obtain ⟨-, rfl⟩ := exec_converter_next hi h
  cases r <;> rfl

/-- The reversal: byte `k` of what a converter reads is byte `k` from the end of what it writes. -/
theorem read_of_exec_converter (hi : i ∈ converters) (h : exec i s = .next t) {k : Nat} (hk : k < s.opA .a2) :
    t.mem.read ((converterWrites s i).1 + (converterWrites s i).2 - 1 - k) = s.mem.read ((converterReads s i).1 + k) := by
  obtain ⟨hn, rfl⟩ := exec_converter_next hi h
  have hlen := length_converterFill_add hi hn
  rw [Nat.sub_sub, Nat.add_sub_assoc (by omega), storeBytes_mem, read_writeBytes_inside _ _ _ _ (by simp; omega),
    List.getElem_append_right (by omega), getElem_reverse_readBytes]
  congr 2
  omega

/-- The same map, by where the bytes go, for a converter that writes `length` bytes. -/
theorem read_of_exec_converter_of_noFill (hi : i ∈ converters) (h : exec i s = .next t)
    (hcount : (converterWrites s i).2 = s.opA .a2) {k : Nat} (hk : k < s.opA .a2) :
    t.mem.read ((converterWrites s i).1 + k) = s.mem.read ((converterReads s i).1 + s.opA .a2 - 1 - k) := by
  have hread := read_of_exec_converter hi h (k := s.opA .a2 - 1 - k) (by omega)
  convert hread using 2 <;> omega

/-- The zeros before the reversed bytes. -/
theorem read_fill_of_exec_converter (hi : i ∈ converters) (h : exec i s = .next t) {k : Nat}
    (hk : k < (converterWrites s i).2 - s.opA .a2) : t.mem.read ((converterWrites s i).1 + k) = 0#8 := by
  obtain ⟨-, rfl⟩ := exec_converter_next hi h
  have hfill : k < (converterFill s i).length := by rwa [converterFill, List.length_replicate]
  rw [storeBytes_mem, read_writeBytes_inside _ _ _ _ (by simp; omega), List.getElem_append_left hfill]
  exact List.getElem_replicate _

end

/-- Settles O29: each converter is a conversion (`exec_eq_convert`), which tests the length, then the two ranges, then their overlap. -/
theorem converterPreconditionsAreViolations : Obligations.ConverterPreconditionsAreViolations := by
  intro s i hi
  rw [exec_eq_convert hi]
  refine ⟨convert_badLength, fun hpos hn => ?_⟩
  rw [converterReads_snd hi, ← length_converterFill_add hi hn]
  exact ⟨convert_unbacked hpos hn, convert_overlapping hpos hn⟩

/-! ## Each command's byte map (43_endian.md R151 to R154) -/

/-- Settles O24: BE32TOLEN reads the end of the 32-byte buffer and writes `n` bytes. -/
theorem be32tolenReversesTheLowOrderBytes : Obligations.Be32tolenReversesTheLowOrderBytes := by
  intro s hpos hn hr hw hx
  obtain ⟨t, ht, hstored⟩ := exec_converter_completes (i := .be32tolen) (by decide) rfl hpos hn hr hw hx
  refine ⟨t, ht, fun i hi => ?_, hstored⟩
  have hread := read_of_exec_converter_of_noFill (by decide) ht rfl hi
  rwa [converterReads, Nat.sub_add_cancel (by omega)] at hread

/-- Settles O25: BENTOLEN reads and writes `n` bytes. -/
theorem bentolenReversesTheBytes : Obligations.BentolenReversesTheBytes := by
  intro s hpos hn hr hw hx
  obtain ⟨t, ht, hstored⟩ := exec_converter_completes (i := .bentolen) (by decide) rfl hpos hn hr hw hx
  exact ⟨t, ht, fun i hi => read_of_exec_converter_of_noFill (by decide) ht rfl hi, hstored⟩

/-- LENTOBE32's byte map, with `BE32_FILL` or without: the output ends with the 32-byte buffer. -/
theorem read_of_exec_lentobe32 {s t : State} (h : exec .lentobe32 s = .next t) {k : Nat} (hk : k < s.opA .a2) :
    t.mem.read (s.opA .a1 + 31 - k) = s.mem.read (s.opA .a0 + k) := by
  have hread := read_of_exec_converter (by decide) h hk
  rwa [converterWrites_lentobe32_end (exec_converter_next (by decide) h).1] at hread

/-- Settles O26: without `BE32_FILL`, LENTOBE32 writes the last `n` bytes of the buffer. -/
theorem lentobe32PlacesTheLowOrderBytes : Obligations.Lentobe32PlacesTheLowOrderBytes := by
  intro s hfill hpos hn hr hw hx
  obtain ⟨t, ht, hstored⟩ := exec_converter_completes (by decide) (converterWrites_of_noFill hfill) hpos hn hr hw hx
  exact ⟨t, ht, fun i hi => read_of_exec_lentobe32 ht hi, hstored⟩

/-- Settles O27: with `BE32_FILL`, LENTOBE32 writes all 32 bytes, the first `32-n` of them zero. -/
theorem lentobe32FillsTheBufferWhereConfigured : Obligations.Lentobe32FillsTheBufferWhereConfigured := by
  intro s hfill hpos hn hr hw hx
  have hout := converterWrites_of_fill hfill
  obtain ⟨t, ht, hstored⟩ := exec_converter_completes (by decide) hout hpos hn hr hw hx
  refine ⟨t, ht, fun i hi => read_of_exec_lentobe32 ht hi, fun k hk => ?_, hstored⟩
  have hzero := read_fill_of_exec_converter (by decide) ht (k := k) (by rwa [hout])
  rwa [hout] at hzero

/-- Settles O28: LENTOBEN reads and writes `n` bytes; its byte map is stated from the end of the output. -/
theorem lentobenReversesTheBytes : Obligations.LentobenReversesTheBytes := by
  intro s hpos hn hr hw hx
  obtain ⟨t, ht, hstored⟩ := exec_converter_completes (i := .lentoben) (by decide) rfl hpos hn hr hw hx
  exact ⟨t, ht, fun i hi => read_of_exec_converter (by decide) ht hi, hstored⟩

/-! ## Round trips (43_endian.md R155) -/

/-- The operands of the way back: it takes the output of the command that answered `t` and writes at `d`. -/
def takeOutput (t : State) (d : Word) : State := (t.setA .a0 t.a1.value).setA .a1 d

@[simp] theorem takeOutput_mem (t : State) (d : Word) : (takeOutput t d).mem = t.mem := rfl
@[simp] theorem takeOutput_opA_a1 (t : State) (d : Word) : (takeOutput t d).opA .a1 = d.toNat := rfl

section
variable {s t u : State} {d : Word} {i j : Instr}

theorem opA_takeOutput_of_exec (hi : i ∈ converters) (ht : exec i s = .next t) (d : Word) :
    (takeOutput t d).opA .a0 = s.opA .a1 ∧ (takeOutput t d).opA .a2 = s.opA .a2 :=
  ⟨opA_of_exec_converter hi ht .a1, opA_of_exec_converter hi ht .a2⟩

/-- Where the second converter reads the end of what the first one wrote, and its own output ends at `stop`, the two reversals cancel. -/
theorem read_of_roundTrip (hi : i ∈ converters) (hj : j ∈ converters) (ht : exec i s = .next t)
    (hu : exec j (takeOutput t d) = .next u) {stop : Nat}
    (hmeet : (converterReads (takeOutput t d) j).1 + s.opA .a2 = (converterWrites s i).1 + (converterWrites s i).2)
    (hstop : (converterWrites (takeOutput t d) j).1 + (converterWrites (takeOutput t d) j).2 = stop)
    {k : Nat} (hk : k < s.opA .a2) : u.mem.read (stop - s.opA .a2 + k) = s.mem.read ((converterReads s i).1 + k) := by
  obtain ⟨-, hsame⟩ := opA_takeOutput_of_exec hi ht d
  have hlen := length_le_converterWrites_snd hj (exec_converter_next hj hu).1
  have hback := read_of_exec_converter hj hu (k := s.opA .a2 - 1 - k) (by omega)
  rw [takeOutput_mem, hstop] at hback
  rw [← read_of_exec_converter hi ht hk, ← hmeet]
  convert hback using 2 <;> omega

/-- The same for a way back that writes just `length` bytes, at `d`. -/
theorem read_of_roundTrip_of_noFill (hi : i ∈ converters) (hj : j ∈ converters) (ht : exec i s = .next t)
    (hu : exec j (takeOutput t d) = .next u)
    (hmeet : (converterReads (takeOutput t d) j).1 + s.opA .a2 = (converterWrites s i).1 + (converterWrites s i).2)
    (hout : converterWrites (takeOutput t d) j = (d.toNat, (takeOutput t d).opA .a2)) {k : Nat} (hk : k < s.opA .a2) :
    u.mem.read (d.toNat + k) = s.mem.read ((converterReads s i).1 + k) := by
  obtain ⟨-, hsame⟩ := opA_takeOutput_of_exec hi ht d
  rw [hsame] at hout
  have hback := read_of_roundTrip hi hj ht hu hmeet (stop := d.toNat + s.opA .a2) (by rw [hout]) hk
  rwa [Nat.add_sub_cancel] at hback

end

/-- Settles O30: each command reads exactly what the other wrote. -/
theorem fullReversalsRoundTrip : Obligations.FullReversalsRoundTrip := by
  intro s t u d
  constructor <;> intro ht hu k hk
  all_goals
    obtain ⟨hfrom, -⟩ := opA_takeOutput_of_exec (by decide) ht d
    exact read_of_roundTrip_of_noFill (by decide) (by decide) ht hu (congrArg (· + s.opA .a2) hfrom) rfl hk

/-- Settles O31: BE32TOLEN reads the low-order bytes that LENTOBE32 wrote, and LENTOBE32 reads what BE32TOLEN wrote. -/
theorem be32BuffersRoundTrip : Obligations.Be32BuffersRoundTrip := by
  intro s t u d
  constructor <;> intro ht hu k hk
  all_goals
    obtain ⟨hfrom, hlen⟩ := opA_takeOutput_of_exec (by decide) ht d
    obtain ⟨hn, -⟩ := exec_converter_next (by decide) ht
  · refine read_of_roundTrip_of_noFill (by decide) (by decide) ht hu ?_ rfl hk
    rw [converterWrites_lentobe32_end hn, converterReads, hfrom, hlen]
    omega
  · have hback := read_of_roundTrip (by decide) (by decide) ht hu (congrArg (· + s.opA .a2) hfrom)
      (converterWrites_lentobe32_end (hlen ▸ hn)) (k := s.opA .a2 - 1 - k) (by omega)
    rw [takeOutput_opA_a1, converterReads] at hback
    convert hback using 2 <;> omega

end Sys2Proof.Proofs
end

section
/-! PROOFS. The halt: how ALLOC enters it, and what the block accepts while it lasts (60_exceptions.md R160 to R162). -/

namespace Sys2Proof.Proofs

open Sys2Proof Sys2Proof.Machine Sys2Proof.Laws

/-! ## Halt entry (40_heap.md R106, 60_exceptions.md R161) -/

/-- ALLOC's work finds nothing where no chunk of the list fits. -/
theorem allocChunk_of_nothing_fits {m : Memory} {size : Nat} {cs : List Nat} (cfg : Config) (h : ∀ c ∈ cs, ¬chunkFits m size c) :
    allocChunk cfg m cs size = none := by
  rw [allocChunk, firstFit_none.2 h]

theorem execAlloc_nothing_fits {s : State} {cs : List Nat} (hready : s.HeapReady cs)
    (h : ∀ c ∈ cs, ¬chunkFits s.mem (s.opA .a0) c) : execAlloc s = .next (s.enterHalt causeOOM) := by
  rw [execAlloc_ready hready, allocChunk_of_nothing_fits s.cfg h]

/-- Settles O36: the scan finds nothing, and the answer is halt entry. -/
theorem allocHaltsWhenNothingFits : Obligations.AllocHaltsWhenNothingFits := fun s _ hready h =>
  ⟨_, execAlloc_nothing_fits hready h, haltedFrom_enterHalt s⟩

/-! ## While halted (60_exceptions.md R162) -/

/-- A halted block accepts no write of any kind. -/
theorem step_write_of_halted {s : State} {x : Transaction} {xs : List Transaction} (hs : s.halted = true)
    (hp : s.pending = x :: xs) (hx : x.isWrite = true) : step s = .fault .writeWhileHalted := by
  have hs' : ({ s with pending := xs } : State).halted = true := hs
  rw [step, serveNext, hp]
  simp only [transact, hs', hx, Bool.and_self, if_true]

/-- The transactions that neither write nor reset are RD and host reads, and those keep STATUS. -/
theorem status_of_serve_read {s t : State} {x : Transaction} (h : serve s x = .next t) (hread : x.isWrite = false)
    (hreset : x ≠ .reset) : t.status = s.status := by
  obtain ⟨r, v, rfl, -⟩ | ⟨r, v, rfl, -⟩ | ⟨v, rfl, -⟩ | ⟨w, i, rfl, -⟩ | ⟨r, -, rfl⟩ | ⟨a, bs, rfl, -⟩ |
    ⟨a, n, -, -, rfl⟩ | ⟨rfl, -⟩ := serve_cases h
  · cases hread
  · cases hread
  · cases hread
  · cases hread
  · exact portRead_status s r
  · cases hread
  · exact respond_status s _
  · exact absurd rfl hreset

/-- A step of a halted block that is not reset waits or serves a read. -/
theorem status_of_step_halted {s t : State} (hs : s.halted = true) (h : step s = .next t) (hreset : s.pending.head? ≠ some .reset) :
    t.status = s.status := by
  obtain ⟨-, rfl⟩ | ⟨x, xs, hp, hread, hserve⟩ := step_cases h
  · rfl
  · have hkept : t.status = ({ s with pending := xs } : State).status :=
      status_of_serve_read hserve (hread hs) fun hx => hreset (by rw [hp, hx, List.head?_cons])
    exact hkept

/-- Settles O11: each write is refused, each read served, and no step but reset touches STATUS. -/
theorem haltedBlockAcceptsOnlyReads : Obligations.HaltedBlockAcceptsOnlyReads := by
  intro s hs
  have hrefused {x : Transaction} {ts : List Transaction} (hx : x.isWrite = true) (hp : s.pending = x :: ts) :
      step s = .fault .writeWhileHalted := step_write_of_halted hs hp hx
  refine ⟨fun _ _ _ => hrefused rfl, fun _ _ _ => hrefused rfl, fun _ _ => hrefused rfl, fun _ _ => hrefused rfl,
    fun _ _ _ => hrefused rfl, fun ts r hp => ?_, fun ts a n hp hb => ?_, fun t h hreset => ?_⟩
  · exact ⟨_, step_eq_serve hp fun _ => rfl⟩
  · exact ⟨_, (step_memRead hp).trans (hostRead_allowed ((hostMayAccess_iff _ _ _).2 (.inr hb)))⟩
  · have hstatus := status_of_step_halted hs h hreset
    exact ⟨(congrArg statusHalt hstatus).trans hs, hstatus⟩

end Sys2Proof.Proofs
end

section
/-! PROOFS. Reset: served by every state, halted or not, and what it leaves (70_reset_and_hazards.md R180). -/

namespace Sys2Proof.Proofs

open Sys2Proof Sys2Proof.Machine Sys2Proof.Laws

/-! ## Reset (60_exceptions.md R163, 70_reset_and_hazards.md R180) -/

@[simp] theorem getA_applyReset (s : State) (r : AReg) : s.applyReset.getA r = ⟨0#32, false⟩ := by cases r <;> rfl

@[simp] theorem getW_applyReset (s : State) (r : WReg) : s.applyReset.getW r = ⟨0#64, false⟩ := by cases r <;> rfl

@[simp] theorem haltOutput_applyReset (s : State) : s.applyReset.haltOutput = false := by
  rw [State.haltOutput, State.halted, applyReset_status]
  decide

/-- Reset writes nothing (R162), so a halted block serves it too. -/
theorem step_reset {s : State} {ts : List Transaction} (hp : s.pending = .reset :: ts) :
    step s = .next ({ s with pending := ts } : State).applyReset :=
  step_eq_serve hp fun _ => rfl

/-- Settles O12: the next state is `State.applyReset`, which keeps memory, the parameters and the host's own. -/
theorem resetClearsAllButMemory : Obligations.ResetClearsAllButMemory := by
  intro s ts hp
  refine ⟨_, step_reset hp, applyReset_status _, haltOutput_applyReset _, fun r => ?_, fun r => ?_, applyReset_arenaSize _,
    applyReset_headerOverwritten _, applyReset_mem _, applyReset_cfg _, applyReset_pending _, applyReset_responses _,
    applyReset_draws _, applyReset_unwrittenRegisterViolation _⟩
  · rw [getA_applyReset]
  · rw [getW_applyReset]

end Sys2Proof.Proofs
end

section
/-! PROOFS. Every step keeps memory canonical: each operation on memory does (`Laws/Commands.lean`), and a step is made of them. -/

namespace Sys2Proof.Proofs

open Sys2Proof Sys2Proof.Machine Sys2Proof.Laws

/-! ## The canonical form of memory (log entry 4) -/

section
variable {s t : State}

theorem wf_allocChunk {cfg : Config} {m m' : Memory} {cs : List Nat} {size c : Nat} (h : m.wf)
    (halloc : allocChunk cfg m cs size = some (m', c)) : m'.wf := by
  obtain ⟨-, rfl⟩ := allocChunk_some halloc
  exact wf_setAllocated (wf_split h _ _ _) _ _

theorem wf_reallocInPlace {m : Memory} (h : m.wf) (cfg : Config) (c newSize : Nat) : (reallocInPlace cfg m c newSize).wf :=
  wf_split (wf_absorb h _ _ _) _ _ _

theorem wf_execAlloc (h : s.mem.wf) (hexec : execAlloc s = .next t) : t.mem.wf := by
  obtain ⟨cs, -, ⟨-, rfl⟩ | ⟨m, c, halloc, rfl⟩⟩ := execAlloc_next hexec
  · exact h
  · rw [setA_mem_eq, setMem_mem]
    exact wf_allocChunk h halloc

theorem wf_execFree (h : s.mem.wf) (hexec : execFree s = .next t) : t.mem.wf := by
  obtain ⟨cs, -, ⟨-, rfl⟩ | ⟨-, -, rfl⟩⟩ := execFree_next hexec
  · exact h
  · rw [setMem_mem]
    exact wf_freeChunk h _ _

theorem wf_execRealloc (h : s.mem.wf) (hexec : execRealloc s = .next t) : t.mem.wf := by
  obtain ⟨cs, -, -, ⟨-, rfl⟩ | ⟨-, hcopy⟩⟩ := execRealloc_next hexec
  · rw [setMem_mem]
    exact wf_reallocInPlace h _ _ _
  · obtain ⟨-, rfl⟩ | ⟨m, d, halloc, -, rfl⟩ := reallocCopy_next hcopy
    · exact h
    · rw [setA_mem_eq, setMem_mem]
      exact wf_freeChunk (wf_copyUnits (wf_allocChunk h halloc) _ _ _) _ _

/-- Every command keeps memory canonical, by what it changes. -/
theorem wf_exec {i : Instr} (h : s.mem.wf) (hexec : exec i s = .next t) : t.mem.wf := by
  obtain ⟨-, a, bs, -, rfl⟩ | ⟨-, v, rfl⟩ | ⟨-, -, hInit⟩ | ⟨-, hAlloc⟩ | ⟨-, hFree⟩ | ⟨-, hRealloc⟩ := exec_cases hexec
  · exact wf_writeBytes h a bs
  · exact h
  · obtain ⟨-, -, rfl⟩ := execInit_next hInit
    dsimp only
    exact wf_initHeader h s.cfg (s.opA .a0 - s.cfg.hdr)
  · exact wf_execAlloc h hAlloc
  · exact wf_execFree h hFree
  · exact wf_execRealloc h hRealloc

/-- Every transaction keeps memory canonical, one case a kind. -/
theorem wf_serve {x : Transaction} (h : s.mem.wf) (hserve : serve s x = .next t) : t.mem.wf := by
  obtain ⟨r, v, -, rfl⟩ | ⟨r, v, -, rfl⟩ | ⟨v, -, rfl⟩ | ⟨w, i, -, -, hexec⟩ | ⟨r, -, rfl⟩ | ⟨a, bs, -, -, rfl⟩ |
    ⟨a, n, -, -, rfl⟩ | ⟨-, rfl⟩ := serve_cases hserve
  · rwa [setA_mem_eq]
  · rwa [setW_mem_eq]
  · exact h
  · have hrecord : (s.recordOperands i).mem.wf := h
    exact wf_exec hrecord hexec
  · rwa [portRead_mem]
  · exact wf_writeBytes h _ bs
  · exact h
  · exact h

end

/-- Settles O57: a step waits, or takes one transaction off the list and serves it. -/
theorem everyStepKeepsMemoryCanonical : Obligations.EveryStepKeepsMemoryCanonical := by
  intro s t hstep h
  obtain ⟨-, rfl⟩ | ⟨x, xs, -, -, hserve⟩ := step_cases hstep
  · exact h
  · have htaken : ({ s with pending := xs } : State).mem.wf := h
    exact wf_serve htaken hserve

end Sys2Proof.Proofs
end

section
/-! PROOFS. No command looks at whether a register has been written (log entry 2): marking every register written commutes with the
updates of the state that the commands are made of, and so with every command. -/

namespace Sys2Proof.Proofs

open Sys2Proof Sys2Proof.Machine Sys2Proof.Laws

/-! ## What marking every register written leaves unchanged -/

@[simp] theorem allWritten_cfg (s : State) : s.allWritten.cfg = s.cfg := rfl
@[simp] theorem allWritten_mem (s : State) : s.allWritten.mem = s.mem := rfl
@[simp] theorem allWritten_arenaSize (s : State) : s.allWritten.arenaSize = s.arenaSize := rfl
@[simp] theorem allWritten_headerOverwritten (s : State) : s.allWritten.headerOverwritten = s.headerOverwritten := rfl
@[simp] theorem allWritten_initialised (s : State) : s.allWritten.initialised = s.initialised := rfl
@[simp] theorem allWritten_heapChunks (s : State) : s.allWritten.heapChunks = s.heapChunks := rfl
@[simp] theorem allWritten_w0_value (s : State) : s.allWritten.w0.value = s.w0.value := rfl
@[simp] theorem allWritten_w1_value (s : State) : s.allWritten.w1.value = s.w1.value := rfl
@[simp] theorem allWritten_opA (s : State) (r : AReg) : s.allWritten.opA r = s.opA r := by cases r <;> rfl

/-! ## It commutes with the commands' updates of the state -/

theorem setMem_allWritten (s : State) (m : Memory) : s.allWritten.setMem m = (s.setMem m).allWritten := rfl
theorem enterHalt_allWritten (s : State) (c : Byte) : s.allWritten.enterHalt c = (s.enterHalt c).allWritten := rfl
theorem setWide_allWritten (s : State) (v : DWord × DWord) : s.allWritten.setWide v = (s.setWide v).allWritten := rfl

theorem storeBytes_allWritten (s : State) (a : Nat) (bs : List Byte) :
    s.allWritten.storeBytes a bs = (s.storeBytes a bs).allWritten := rfl

theorem setA_allWritten (s : State) (r : AReg) (v : Word) : s.allWritten.setA r v = (s.setA r v).allWritten := by
  cases r <;> rfl

/-! ## It commutes with the commands -/

/-- The same answer, every register of a next state marked written. -/
def answerAllWritten : Result → Result
  | .next t => .next t.allWritten
  | .fault f => .fault f
  | .refused r => .refused r

@[simp] theorem answerAllWritten_next (t : State) : answerAllWritten (.next t) = .next t.allWritten := rfl
@[simp] theorem answerAllWritten_fault (f : Fault) : answerAllWritten (.fault f) = .fault f := rfl

theorem answerAllWritten_eq_next_iff {r : Result} {u : State} :
    answerAllWritten r = .next u ↔ ∃ t, r = .next t ∧ u = t.allWritten := by
  cases r <;> simp [answerAllWritten, eq_comm]

theorem answerAllWritten_eq_fault_iff {r : Result} {f : Fault} : answerAllWritten r = .fault f ↔ r = .fault f := by
  cases r <;> simp [answerAllWritten]

section
variable (s : State)

theorem convert_allWritten (n src dst : Nat) (fill : List Byte) :
    convert s.allWritten n src dst fill = answerAllWritten (convert s n src dst fill) := by
  simp only [convert, allWritten_cfg, allWritten_mem, storeBytes_allWritten, apply_ite answerAllWritten,
    answerAllWritten_next, answerAllWritten_fault]
  rfl

theorem execLentobe32_allWritten : execLentobe32 s.allWritten = answerAllWritten (execLentobe32 s) := by
  simp only [execLentobe32, allWritten_cfg, allWritten_opA, convert_allWritten, apply_ite answerAllWritten]

theorem execMul_allWritten : execMul s.allWritten = answerAllWritten (execMul s) := by
  simp only [execMul, allWritten_cfg, allWritten_mem, allWritten_opA, storeBytes_allWritten, apply_ite answerAllWritten,
    answerAllWritten_next, answerAllWritten_fault]

theorem execShl_allWritten : execShl s.allWritten = answerAllWritten (execShl s) := by
  simp only [execShl, allWritten_opA, allWritten_w0_value, allWritten_w1_value, setWide_allWritten, apply_ite answerAllWritten,
    answerAllWritten_next, answerAllWritten_fault]

theorem execShr_allWritten : execShr s.allWritten = answerAllWritten (execShr s) := by
  simp only [execShr, allWritten_opA, allWritten_w0_value, allWritten_w1_value, setWide_allWritten, apply_ite answerAllWritten,
    answerAllWritten_next, answerAllWritten_fault]

theorem execInit_allWritten : execInit s.allWritten = answerAllWritten (execInit s) := by
  simp only [execInit, allWritten_initialised, allWritten_opA, apply_ite answerAllWritten, answerAllWritten_next,
    answerAllWritten_fault]
  simp only [State.allWritten]
  rfl

/-- The heap commands' common conditions do not look at the marks, so only the command's own rule matters. -/
theorem withHeap_allWritten {body body' : List Nat → Result} (h : ∀ cs, body' cs = answerAllWritten (body cs)) :
    s.allWritten.withHeap body' = answerAllWritten (s.withHeap body) := by
  simp only [State.withHeap, allWritten_initialised, allWritten_headerOverwritten, allWritten_heapChunks, allWritten_cfg,
    allWritten_arenaSize, apply_ite answerAllWritten, answerAllWritten_fault]
  cases s.heapChunks with
  | none => rfl
  | some cs => simp only [h, apply_ite answerAllWritten, answerAllWritten_fault]

theorem execAlloc_allWritten : execAlloc s.allWritten = answerAllWritten (execAlloc s) := by
  refine withHeap_allWritten s fun cs => ?_
  simp only [allWritten_cfg, allWritten_mem, allWritten_opA, enterHalt_allWritten, setMem_allWritten, setA_allWritten]
  cases allocChunk s.cfg s.mem cs (s.opA .a0) <;> rfl

theorem execFree_allWritten : execFree s.allWritten = answerAllWritten (execFree s) := by
  refine withHeap_allWritten s fun cs => ?_
  simp only [allWritten_cfg, allWritten_mem, allWritten_opA, setMem_allWritten, apply_ite answerAllWritten,
    answerAllWritten_next, answerAllWritten_fault]

theorem reallocCopy_allWritten (cs : List Nat) (c newSize : Nat) :
    reallocCopy s.allWritten cs c newSize = answerAllWritten (reallocCopy s cs c newSize) := by
  simp only [reallocCopy, allWritten_cfg, allWritten_mem, enterHalt_allWritten, setMem_allWritten, setA_allWritten]
  cases allocChunk s.cfg s.mem cs newSize with
  | none => rfl
  | some granted => simp only [apply_ite answerAllWritten, answerAllWritten_next, answerAllWritten_fault]

theorem execRealloc_allWritten : execRealloc s.allWritten = answerAllWritten (execRealloc s) := by
  refine withHeap_allWritten s fun cs => ?_
  simp only [allWritten_cfg, allWritten_mem, allWritten_opA, setMem_allWritten, reallocCopy_allWritten,
    apply_ite answerAllWritten, answerAllWritten_next, answerAllWritten_fault]

/-- A command answers the same whether its registers have been written or not, but for the marks. -/
theorem exec_allWritten (i : Instr) : exec i s.allWritten = answerAllWritten (exec i s) := by
  cases i with
  | init => exact execInit_allWritten s
  | alloc => exact execAlloc_allWritten s
  | free => exact execFree_allWritten s
  | realloc => exact execRealloc_allWritten s
  | mul => exact execMul_allWritten s
  | shl => exact execShl_allWritten s
  | shr => exact execShr_allWritten s
  | lentobe32 => exact execLentobe32_allWritten s
  | be32tolen | bentolen | lentoben => exact convert_allWritten s _ _ _ _

end

/-- Settles O10: each clause reads off `exec_allWritten`. -/
theorem commandsRunOnUnwrittenRegisters : Obligations.CommandsRunOnUnwrittenRegisters := by
  intro s i
  rw [exec_allWritten]
  exact ⟨fun t ht => by rw [ht, answerAllWritten_next], fun u => answerAllWritten_eq_next_iff.1,
    fun f => answerAllWritten_eq_fault_iff.symm⟩

end Sys2Proof.Proofs
end
